-- ==== Sys2Proof/Word.lean ====
section
/-! DEFINITION. The words of the block: bytes, 64-bit registers, command words, byte orders and the real-value
type FVal of spec/10_state.md rule R24. -/

namespace Sys2Proof

/-- A byte is 8 bits (00_scope R8). -/
abbrev Byte := BitVec 8

/-- A 64-bit register (10_state R21). -/
abbrev Word := BitVec 64

/-- A 32-bit command word (30_encoding R70). -/
abbrev CommandWord := BitVec 32

/-- The two byte orders (00_scope R12, 20_memory R55). The ORD field has 0 for little and 1 for big. -/
inductive ByteOrder where
  | little
  | big
  deriving DecidableEq, Repr

/-- One real value of a float operand or result (10_state R24). `fin q` is the exact rational `q`; `fin 0` is
positive zero. -/
inductive FVal where
  | fin (q : Rat)
  | negZero
  | posInf
  | negInf
  | nan
  deriving DecidableEq, Repr

end Sys2Proof
end

