-- ==== Sys2Proof/Syntax.lean ====
section
/-! DEFINITION. The commands of the block, one constructor for each row of spec/opcode_table.json, and the value
kinds and count kinds of spec/30_encoding.md rules R73 and R75. -/

namespace Sys2Proof

/-- The ten value kinds, EK codes 0 to 9 (30_encoding R73). -/
inductive Kind where
  | u8
  | i8
  | u16
  | i16
  | u32
  | i32
  | u64
  | i64
  | f32
  | f64
  deriving DecidableEq, Repr

/-- The four count kinds, CK codes 0 to 3 (30_encoding R75). -/
inductive CountKind where
  | u8
  | u16
  | u32
  | u64
  deriving DecidableEq, Repr

/-- The 26 commands (30_encoding R76, R77). `bits` and `expb` are the 7-bit fields BITS and EXPB; `ord` is ORD;
`ek` is EK, already one of the ten kinds; `ck` is CK. -/
inductive Instr where
  | fpack (bits expb : BitVec 7)
  | funpack (bits expb : BitVec 7)
  | encU8 (ord : ByteOrder)
  | encI8 (ord : ByteOrder)
  | encU16 (ord : ByteOrder)
  | encI16 (ord : ByteOrder)
  | encU32 (ord : ByteOrder)
  | encI32 (ord : ByteOrder)
  | encU64 (ord : ByteOrder)
  | encI64 (ord : ByteOrder)
  | encF32 (ord : ByteOrder)
  | encF64 (ord : ByteOrder)
  | decU8 (ord : ByteOrder)
  | decI8 (ord : ByteOrder)
  | decU16 (ord : ByteOrder)
  | decI16 (ord : ByteOrder)
  | decU32 (ord : ByteOrder)
  | decI32 (ord : ByteOrder)
  | decU64 (ord : ByteOrder)
  | decI64 (ord : ByteOrder)
  | decF32 (ord : ByteOrder)
  | decF64 (ord : ByteOrder)
  | venc (ord : ByteOrder)
  | vdec (ord : ByteOrder)
  | lpenc (ord : ByteOrder) (ek : Kind) (ck : CountKind)
  | lpdec (ord : ByteOrder) (ek : Kind) (ck : CountKind)
  deriving DecidableEq, Repr

end Sys2Proof
end

