-- ==== Sys2Proof/WellFormed.lean ====
section
/-! DEFINITION. When a command is well formed: the formats of spec/41_ieee754_packer.md rule R101. Every other
field of a command is closed by its type. -/

namespace Sys2Proof

/-- R101, one bound at a time: `2 <= bits <= 64` and `1 <= expbits <= bits - 1`. -/
def formatWF (bits expb : BitVec 7) : Bool :=
  decide (2 ≤ bits.toNat) && decide (bits.toNat ≤ 64) &&
    decide (1 ≤ expb.toNat) && decide (expb.toNat ≤ bits.toNat - 1)

/-- A well-formed command. -/
def Instr.wf : Instr → Bool
  | .fpack bits expb => formatWF bits expb
  | .funpack bits expb => formatWF bits expb
  | .encU8 _ => true
  | .encI8 _ => true
  | .encU16 _ => true
  | .encI16 _ => true
  | .encU32 _ => true
  | .encI32 _ => true
  | .encU64 _ => true
  | .encI64 _ => true
  | .encF32 _ => true
  | .encF64 _ => true
  | .decU8 _ => true
  | .decI8 _ => true
  | .decU16 _ => true
  | .decI16 _ => true
  | .decU32 _ => true
  | .decI32 _ => true
  | .decU64 _ => true
  | .decI64 _ => true
  | .decF32 _ => true
  | .decF64 _ => true
  | .venc _ => true
  | .vdec _ => true
  | .lpenc _ _ _ => true
  | .lpdec _ _ _ => true

end Sys2Proof
end

