-- ==== Sys2Proof/Decode.lean ====
section
/-! DEFINITION. The command decoder and encoder of spec/30_encoding.md: the fields of the format CW (R71), the rows
of the opcode map (R77), the total decoder (R80) and, after it, the encoder written from the same tables. -/

namespace Sys2Proof

/-- EK codes (30_encoding R73). -/
def Kind.code : Kind → BitVec 4
  | .u8 => 0
  | .i8 => 1
  | .u16 => 2
  | .i16 => 3
  | .u32 => 4
  | .i32 => 5
  | .u64 => 6
  | .i64 => 7
  | .f32 => 8
  | .f64 => 9

/-- The kind an EK code names; codes 10 to 15 are reserved (30_encoding R73). -/
def Kind.ofCode (c : BitVec 4) : Option Kind :=
  match c.toNat with
  | 0 => some .u8
  | 1 => some .i8
  | 2 => some .u16
  | 3 => some .i16
  | 4 => some .u32
  | 5 => some .i32
  | 6 => some .u64
  | 7 => some .i64
  | 8 => some .f32
  | 9 => some .f64
  | _ => none

/-- CK codes (30_encoding R75). -/
def CountKind.code : CountKind → BitVec 2
  | .u8 => 0
  | .u16 => 1
  | .u32 => 2
  | .u64 => 3

/-- The count kind a CK code names; all four codes are legal (30_encoding R75). -/
def CountKind.ofCode (c : BitVec 2) : CountKind :=
  match c.toNat with
  | 0 => .u8
  | 1 => .u16
  | 2 => .u32
  | _ => .u64

/-- ORD: 0 is little-endian, 1 is big-endian (30_encoding R71). -/
def ByteOrder.code : ByteOrder → BitVec 1
  | .little => 0
  | .big => 1

/-- `ENC.<k>`: one instruction for each kind (30_encoding R76). -/
def Instr.enc (k : Kind) (ord : ByteOrder) : Instr :=
  match k with
  | .u8 => .encU8 ord
  | .i8 => .encI8 ord
  | .u16 => .encU16 ord
  | .i16 => .encI16 ord
  | .u32 => .encU32 ord
  | .i32 => .encI32 ord
  | .u64 => .encU64 ord
  | .i64 => .encI64 ord
  | .f32 => .encF32 ord
  | .f64 => .encF64 ord

/-- `DEC.<k>`: one instruction for each kind (30_encoding R76). -/
def Instr.dec (k : Kind) (ord : ByteOrder) : Instr :=
  match k with
  | .u8 => .decU8 ord
  | .i8 => .decI8 ord
  | .u16 => .decU16 ord
  | .i16 => .decI16 ord
  | .u32 => .decU32 ord
  | .i32 => .decI32 ord
  | .u64 => .decU64 ord
  | .i64 => .decI64 ord
  | .f32 => .decF32 ord
  | .f64 => .decF64 ord

/-! ### The fields of a command word (30_encoding R71, R72) -/

/-- OPC = CW[3:0]. -/
def opcOf (w : CommandWord) : BitVec 4 := w.extractLsb' 0 4

/-- ORD = CW[4]. -/
def ordOf (w : CommandWord) : ByteOrder := if w.getLsbD 4 then .big else .little

/-- EK = CW[8:5]. -/
def ekOf (w : CommandWord) : BitVec 4 := w.extractLsb' 5 4

/-- CK = CW[10:9]. -/
def ckOf (w : CommandWord) : BitVec 2 := w.extractLsb' 9 2

/-- BITS = CW[17:11]. -/
def bitsOf (w : CommandWord) : BitVec 7 := w.extractLsb' 11 7

/-- EXPB = CW[24:18]. -/
def expbOf (w : CommandWord) : BitVec 7 := w.extractLsb' 18 7

/-- RES = CW[31:25]. -/
def resOf (w : CommandWord) : BitVec 7 := w.extractLsb' 25 7

/-! ### The decoder -/

/-- Why a word is ILLEGAL (30_encoding R81). The spec has one verdict; the reason is a name for the reader and has
no effect. DESIGN CHOICE (log entry 8). -/
inductive Illegal where
  /-- OPC 0x0 or 0x9 to 0xF. -/
  | reservedOpcode
  /-- A nonzero RES bit. -/
  | reservedBits
  /-- EK >= 10 in ENC, DEC, LPENC or LPDEC. -/
  | reservedKind
  /-- A nonzero field that the row requires to be 0. -/
  | unusedField
  /-- An illegal `(bits, expbits)` in FPACK or FUNPACK. -/
  | illegalFormat
  deriving DecidableEq, Repr

/-- What the decoder answers: exactly one command with its fields, or ILLEGAL (30_encoding R80). -/
inductive Verdict where
  | command (i : Instr)
  | illegal (why : Illegal)
  deriving DecidableEq, Repr

/-- `legal_fmt(bits, expbits)` (41_ieee754_packer R101). -/
def legalFmt (bits expb : Nat) : Bool :=
  decide (2 ≤ bits ∧ bits ≤ 64) && decide (1 ≤ expb ∧ expb ≤ bits - 1)

/-- One row of the opcode map (30_encoding R77): a word matches it when `(word & mask) = value`; `build` reads the
free fields and makes the check that follows the match (R80). -/
structure Row where
  mnemonic : String
  value    : CommandWord
  mask     : CommandWord
  build    : CommandWord → Verdict

/-- `(word & r.mask) = r.match` (30_encoding R77). -/
def Row.hits (r : Row) (w : CommandWord) : Bool := (w &&& r.mask) == r.value

/-- FPACK and FUNPACK: the format must be legal (30_encoding R80). -/
def buildFormat (mk : BitVec 7 → BitVec 7 → Instr) (w : CommandWord) : Verdict :=
  if legalFmt (bitsOf w).toNat (expbOf w).toNat then .command (mk (bitsOf w) (expbOf w))
  else .illegal .illegalFormat

/-- ENC, DEC, VENC and VDEC: only ORD is free (30_encoding R77). -/
def buildOrd (mk : ByteOrder → Instr) (w : CommandWord) : Verdict := .command (mk (ordOf w))

/-- LPENC and LPDEC: ORD, EK and CK are free, and EK must be at most 9 (30_encoding R80). -/
def buildFrame (mk : ByteOrder → Kind → CountKind → Instr) (w : CommandWord) : Verdict :=
  match Kind.ofCode (ekOf w) with
  | some k => .command (mk (ordOf w) k (CountKind.ofCode (ckOf w)))
  | none => .illegal .reservedKind

/-- The packer's rows (30_encoding R77). -/
def packerRows : List Row :=
  [ ⟨"FPACK", 0x00000001, 0xFE0007FF, buildFormat .fpack⟩,
    ⟨"FUNPACK", 0x00000002, 0xFE0007FF, buildFormat .funpack⟩ ]

/-- The ENC rows (30_encoding R77). -/
def encRows : List Row :=
  [ ⟨"ENC.U8", 0x003, 0xFFFFFFEF, buildOrd .encU8⟩,
    ⟨"ENC.I8", 0x023, 0xFFFFFFEF, buildOrd .encI8⟩,
    ⟨"ENC.U16", 0x043, 0xFFFFFFEF, buildOrd .encU16⟩,
    ⟨"ENC.I16", 0x063, 0xFFFFFFEF, buildOrd .encI16⟩,
    ⟨"ENC.U32", 0x083, 0xFFFFFFEF, buildOrd .encU32⟩,
    ⟨"ENC.I32", 0x0A3, 0xFFFFFFEF, buildOrd .encI32⟩,
    ⟨"ENC.U64", 0x0C3, 0xFFFFFFEF, buildOrd .encU64⟩,
    ⟨"ENC.I64", 0x0E3, 0xFFFFFFEF, buildOrd .encI64⟩,
    ⟨"ENC.F32", 0x103, 0xFFFFFFEF, buildOrd .encF32⟩,
    ⟨"ENC.F64", 0x123, 0xFFFFFFEF, buildOrd .encF64⟩ ]

/-- The DEC rows (30_encoding R77). -/
def decRows : List Row :=
  [ ⟨"DEC.U8", 0x004, 0xFFFFFFEF, buildOrd .decU8⟩,
    ⟨"DEC.I8", 0x024, 0xFFFFFFEF, buildOrd .decI8⟩,
    ⟨"DEC.U16", 0x044, 0xFFFFFFEF, buildOrd .decU16⟩,
    ⟨"DEC.I16", 0x064, 0xFFFFFFEF, buildOrd .decI16⟩,
    ⟨"DEC.U32", 0x084, 0xFFFFFFEF, buildOrd .decU32⟩,
    ⟨"DEC.I32", 0x0A4, 0xFFFFFFEF, buildOrd .decI32⟩,
    ⟨"DEC.U64", 0x0C4, 0xFFFFFFEF, buildOrd .decU64⟩,
    ⟨"DEC.I64", 0x0E4, 0xFFFFFFEF, buildOrd .decI64⟩,
    ⟨"DEC.F32", 0x104, 0xFFFFFFEF, buildOrd .decF32⟩,
    ⟨"DEC.F64", 0x124, 0xFFFFFFEF, buildOrd .decF64⟩ ]

/-- The rows of the list commands (30_encoding R77). -/
def listRows : List Row :=
  [ ⟨"VENC", 0x00000005, 0xFFFFFFEF, buildOrd .venc⟩,
    ⟨"VDEC", 0x00000006, 0xFFFFFFEF, buildOrd .vdec⟩,
    ⟨"LPENC", 0x00000007, 0xFFFFF80F, buildFrame .lpenc⟩,
    ⟨"LPDEC", 0x00000008, 0xFFFFF80F, buildFrame .lpdec⟩ ]

/-- Every row of the opcode map (30_encoding R77). -/
def rows : List Row := packerRows ++ encRows ++ decRows ++ listRows

/-- The reason given for a word that matches no row (30_encoding R81). -/
def noRowReason (w : CommandWord) : Illegal :=
  if opcOf w = 0 ∨ 9 ≤ (opcOf w).toNat then .reservedOpcode
  else if resOf w ≠ 0 then .reservedBits
  else if (opcOf w = 3 ∨ opcOf w = 4) ∧ 10 ≤ (ekOf w).toNat then .reservedKind
  else .unusedField

/-- The decoder, total on all 2^32 words (30_encoding R80). -/
def decode (w : CommandWord) : Verdict :=
  match rows.find? (·.hits w) with
  | some r => r.build w
  | none => .illegal (noRowReason w)

/-! ### The encoder -/

/-- The format CW: each field at its place, RES = 0 (30_encoding R71). -/
def packWord (opc : BitVec 4) (ord : BitVec 1) (ek : BitVec 4) (ck : BitVec 2) (bits expb : BitVec 7) :
    CommandWord :=
  BitVec.ofNat 32 (opc.toNat + 2 ^ 4 * ord.toNat + 2 ^ 5 * ek.toNat + 2 ^ 9 * ck.toNat + 2 ^ 11 * bits.toNat +
    2 ^ 18 * expb.toNat)

/-- The command word of a well-formed command (30_encoding R76). -/
def encode : Instr → CommandWord
  | .fpack bits expb => packWord 0x1 0 0 0 bits expb
  | .funpack bits expb => packWord 0x2 0 0 0 bits expb
  | .encU8 ord => packWord 0x3 ord.code (Kind.code .u8) 0 0 0
  | .encI8 ord => packWord 0x3 ord.code (Kind.code .i8) 0 0 0
  | .encU16 ord => packWord 0x3 ord.code (Kind.code .u16) 0 0 0
  | .encI16 ord => packWord 0x3 ord.code (Kind.code .i16) 0 0 0
  | .encU32 ord => packWord 0x3 ord.code (Kind.code .u32) 0 0 0
  | .encI32 ord => packWord 0x3 ord.code (Kind.code .i32) 0 0 0
  | .encU64 ord => packWord 0x3 ord.code (Kind.code .u64) 0 0 0
  | .encI64 ord => packWord 0x3 ord.code (Kind.code .i64) 0 0 0
  | .encF32 ord => packWord 0x3 ord.code (Kind.code .f32) 0 0 0
  | .encF64 ord => packWord 0x3 ord.code (Kind.code .f64) 0 0 0
  | .decU8 ord => packWord 0x4 ord.code (Kind.code .u8) 0 0 0
  | .decI8 ord => packWord 0x4 ord.code (Kind.code .i8) 0 0 0
  | .decU16 ord => packWord 0x4 ord.code (Kind.code .u16) 0 0 0
  | .decI16 ord => packWord 0x4 ord.code (Kind.code .i16) 0 0 0
  | .decU32 ord => packWord 0x4 ord.code (Kind.code .u32) 0 0 0
  | .decI32 ord => packWord 0x4 ord.code (Kind.code .i32) 0 0 0
  | .decU64 ord => packWord 0x4 ord.code (Kind.code .u64) 0 0 0
  | .decI64 ord => packWord 0x4 ord.code (Kind.code .i64) 0 0 0
  | .decF32 ord => packWord 0x4 ord.code (Kind.code .f32) 0 0 0
  | .decF64 ord => packWord 0x4 ord.code (Kind.code .f64) 0 0 0
  | .venc ord => packWord 0x5 ord.code 0 0 0 0
  | .vdec ord => packWord 0x6 ord.code 0 0 0 0
  | .lpenc ord ek ck => packWord 0x7 ord.code ek.code ck.code 0 0
  | .lpdec ord ek ck => packWord 0x8 ord.code ek.code ck.code 0 0

/-- The command the decoder reads from the number `w` (log entry 3): a command is one 32-bit word, never bytes of
BUF (30_encoding R70, 20_memory R57), and a number that does not fit 32 bits is no command word. -/
def decodeTableWord (nbits w : Nat) : Option Instr :=
  if nbits ≤ 32 ∧ w < 2 ^ 32 then
    match decode (BitVec.ofNat 32 w) with
    | .command i => some i
    | .illegal _ => none
  else none

end Sys2Proof
end

