-- ==== Sys2Proof/Config.lean ====
section
/-! DEFINITION. What is fixed for a run: the four open parameters of spec/00_scope.md rule R7, and the free values
that stand for the draws of rule R10. -/

namespace Sys2Proof

/-- How FPACK quantizes the fraction (00_scope R7, 41_ieee754_packer R106). -/
inductive Quantize where
  | addHalfUlp
  | scalePlusHalf
  deriving DecidableEq, Repr

/-- The implementation parameters (00_scope R7): BUF_CAP, HOST_ORDER, MAX_LIST and PACK_QUANTIZE. They are fixed
for a run (70_reset_and_hazards R244). -/
structure Params where
  bufCap    : Nat
  hostOrder : ByteOrder
  maxList   : Nat
  quantize  : Quantize
  deriving DecidableEq, Repr

/-- The ranges of 00_scope R7: `0 <= BUF_CAP <= 2^63 - 1` and `1 <= MAX_LIST <= 2^64 - 1`. -/
abbrev Params.WF (c : Params) : Prop :=
  c.bufCap ≤ 2 ^ 63 - 1 ∧ 1 ≤ c.maxList ∧ c.maxList ≤ 2 ^ 64 - 1

/-- The configuration that spec/95_test_vectors.md uses "unless a row says otherwise".
DESIGN CHOICE (log entry 1): the spec leaves all four parameters open. -/
def Params.vectors : Params :=
  { bufCap := 8, hostOrder := .little, maxList := 2 ^ 64 - 1, quantize := .addHalfUlp }

/-- The free values behind `draw_N()` (00_scope R10): draw number `n` of a run is the low N bits of `drawValue n`.
It has no body, so no proof can see a value of it. DESIGN CHOICE (log entry 5): the form of the draw. -/
opaque Config.drawValue : Nat → Word

end Sys2Proof
end

