-- ==== Sys2Proof/Machine/State.lean ====
section
/-! DEFINITION. The state of one block instance (spec/10_state.md rule R20), the host's accesses, the reasons the
model can stop, and the state after reset (spec/70_reset_and_hazards.md rule R241). -/

namespace Sys2Proof.Machine

/-- An Item of a list register (10_state R25). `kind` is the 4-bit code, which a host may set to a reserved one. -/
structure Item where
  kind : BitVec 4
  word : Word
  real : FVal
  deriving DecidableEq, Repr

/-- BUF (10_state R39) as (offset, byte) pairs in one canonical form, `Memory.wf`. -/
abbrev Memory := List Host.Cell

/-- What a byte of BUF that nothing has written reads as when the launch contents list nothing there.
DESIGN CHOICE (log entry 2): the spec leaves the power-up contents to the host (70_reset_and_hazards R242). -/
def Memory.blank : Byte := 0

/-- The canonical form: offsets strictly rising, and no entry equal to what an unlisted offset reads as. -/
abbrev Memory.wf (m : Memory) : Prop :=
  m.Pairwise (fun c d => c.1 < d.1) ∧ ∀ c ∈ m, c.2 ≠ Memory.blank

/-- A value on the host's side of a register or of a BUF byte, by type (10_state R21). -/
inductive HostVal where
  | bits32 (v : BitVec 32)
  | bits64 (v : BitVec 64)
  | real (x : FVal)
  | items (l : List Item)
  | byte (b : Byte)
  deriving DecidableEq, Repr

/-- One access of the host (60_exceptions R228): a register by number, a BUF byte by offset, or reset. -/
inductive HostOp where
  | write (reg : Nat) (v : HostVal)
  | read (reg : Nat)
  | bufWrite (off : Nat) (b : Byte)
  | bufRead (off : Nat)
  | reset
  deriving DecidableEq, Repr

/-- The state. The first field is the configuration (log entry 1); then the registers and BUF in the order of
10_state R20; the last four fields are the model's own (log entries 3, 5, 6, 7). -/
structure State where
  cfg       : Params
  reqCw     : CommandWord
  reqOff    : Word
  reqWord   : Word
  reqFval   : FVal
  reqMax    : Word
  reqList   : List Item
  rspWord   : Word
  rspFval   : FVal
  rspLen    : Word
  rspList   : List Item
  fault     : BitVec 32
  faultCw   : CommandWord
  faultInfo : Word
  buf       : Memory
  host      : List HostOp
  cmdIndex  : Nat
  readData  : Option HostVal
  drawCount : Nat
  deriving DecidableEq, Repr

/-- Why a step of the model stops with a fault. (A fault OF THE BLOCK is not one of these: it is a next state,
60_exceptions R212.) -/
inductive Fault where
  /-- Raised by a host access to a BUF offset at or above BUF_CAP, a byte the spec says does not exist
  (20_memory R50). Safe: the model stops (log entry 11). -/
  | noSuchByte (off : Nat)
  deriving DecidableEq, Repr

/-- Why a step of the model gives no meaning. -/
inductive Refusal where
  /-- An instruction that has no meaning yet, by mnemonic. Safe. No arm of exec answers with it. -/
  | notModelled (mnemonic : String)
  /-- Raised by a host write of a value of another type than the register's (10_state R21 gives each register one
  type and no conversion). Safe: the model stops (log entry 9). -/
  | valueType (reg : Nat)
  /-- Raised by a host write of a list longer than MAX_LIST to REQ_LIST (00_scope R11: a list register holds at most
  MAX_LIST items). Safe: the model stops (log entry 10). -/
  | listLength (len : Nat)
  deriving DecidableEq, Repr

/-- Power-up: every register at its reset value (70_reset_and_hazards R241), the configuration and BUF's launch
contents supplied by the host (R242, R244), no access pending. -/
def State.powerUp (c : Params) (launch : Memory) : State :=
  { cfg := c
    reqCw := 0
    reqOff := 0
    reqWord := 0
    reqFval := .fin 0
    reqMax := 0
    reqList := []
    rspWord := 0
    rspFval := .fin 0
    rspLen := 0
    rspList := []
    fault := 0
    faultCw := 0
    faultInfo := 0
    buf := launch
    host := []
    cmdIndex := 0
    readData := none
    drawCount := 0 }

/-- The machine right after reset, with the configuration of log entry 1 and nothing listed in BUF (log entry 2). -/
def State.reset : State := State.powerUp Params.vectors []

end Sys2Proof.Machine
end

