-- ==== Sys2Proof/Machine/Flags.lean ====
section
/-! DEFINITION. The block has no status flags and no condition codes (spec/10_state.md rule R31). Its one status
register is FAULT (R36): its fields, its causes (spec/60_exceptions.md rule R211) and the word a fault writes
(R212). -/

namespace Sys2Proof.Machine

/-- The fault causes (60_exceptions R211). -/
inductive Cause where
  | illegalCommand
  | nonfiniteOperand
  | capacity
  | countRange
  | listRange
  deriving DecidableEq, Repr

/-- The CAUSE codes 1 to 5 (60_exceptions R211). -/
def Cause.code : Cause → BitVec 32
  | .illegalCommand => 1
  | .nonfiniteOperand => 2
  | .capacity => 3
  | .countRange => 4
  | .listRange => 5

/-- `(1 << 8) | cause` (60_exceptions R212). -/
def faultWord (c : Cause) : BitVec 32 := (1 <<< 8) ||| c.code

/-- FAULT.FV, bit 8: a fault has occurred since reset (10_state R36). -/
def faultValid (s : State) : Bool := s.fault.getLsbD 8

/-- FAULT.CAUSE, bits 3:0 (10_state R36). -/
def faultCause (s : State) : BitVec 4 := s.fault.extractLsb' 0 4

/-- `min(info, 2^64 - 1)`: FAULT_INFO saturates (60_exceptions R212). -/
def saturate64 (info : Nat) : Word := BitVec.ofNat 64 (min info (2 ^ 64 - 1))

end Sys2Proof.Machine
end

