-- ==== Sys2Proof/Machine/Ops.lean ====
section
/-! DEFINITION. The named operations over BUF and the registers: MemRead and MemWrite (spec/00_scope.md rule R10),
the capacity check (spec/20_memory.md rule R53), raising a fault (spec/60_exceptions.md rule R212), the draws, and
the return from the faulted state, which is reset (spec/70_reset_and_hazards.md rules R240 to R242). -/

namespace Sys2Proof.Machine

/-- What a command answers. -/
abbrev Result := Host.Outcome State Fault Refusal

/-! ### BUF -/

/-- `BUF[a]` (00_scope R10). -/
def Memory.read : Memory → Nat → Byte
  | [], _ => Memory.blank
  | c :: m, a => if c.1 = a then c.2 else Memory.read m a

/-- Puts an entry into its place in rising order. -/
def Memory.place (a : Nat) (b : Byte) : Memory → Memory
  | [] => [(a, b)]
  | c :: m => if a < c.1 then (a, b) :: c :: m else c :: Memory.place a b m

/-- `BUF[a] <- b` (00_scope R10); writing what an unlisted offset reads as removes the entry. -/
def Memory.write (m : Memory) (a : Nat) (b : Byte) : Memory :=
  let rest := m.filter (fun c => decide (c.1 ≠ a))
  if b = Memory.blank then rest else Memory.place a b rest

/-- `MemRead(off, n)` (00_scope R10). -/
def Memory.readBytes (m : Memory) (off n : Nat) : List Byte :=
  (List.range n).map (fun i => m.read (off + i))

/-- `MemWrite(off, n, bs)` with n the length of bs (00_scope R10). -/
def Memory.writeBytes (m : Memory) (off : Nat) : List Byte → Memory
  | [] => m
  | b :: bs => Memory.writeBytes (m.write off b) (off + 1) bs

/-! ### Updates of the response registers -/

def State.setRspWord (v : Word) (s : State) : State := { s with rspWord := v }
def State.setRspFval (v : FVal) (s : State) : State := { s with rspFval := v }
def State.setRspLen (v : Word) (s : State) : State := { s with rspLen := v }
def State.setRspList (v : List Item) (s : State) : State := { s with rspList := v }
def State.setBuf (m : Memory) (s : State) : State := { s with buf := m }
def State.setDrawCount (n : Nat) (s : State) : State := { s with drawCount := n }

/-! ### Updates the host makes -/

def State.setReqOff (v : Word) (s : State) : State := { s with reqOff := v }
def State.setReqWord (v : Word) (s : State) : State := { s with reqWord := v }
def State.setReqFval (v : FVal) (s : State) : State := { s with reqFval := v }
def State.setReqMax (v : Word) (s : State) : State := { s with reqMax := v }
def State.setReqList (v : List Item) (s : State) : State := { s with reqList := v }
def State.setHost (l : List HostOp) (s : State) : State := { s with host := l }
def State.setReadData (v : HostVal) (s : State) : State := { s with readData := some v }

/-- A write of REQ_CW stores the word (10_state R32) and makes the next command the following one of the host's
sequence, faulted or not (R30). -/
def State.acceptCommand (w : CommandWord) (s : State) : State :=
  { s with reqCw := w, cmdIndex := s.cmdIndex + 1 }

/-! ### Faults -/

/-- The arguments of `raise Fault(cause, info)` (60_exceptions R212). -/
structure Raise where
  cause : Cause
  info  : Nat
  deriving DecidableEq, Repr

/-- The record a fault leaves: FAULT, FAULT_CW and FAULT_INFO, and nothing else (60_exceptions R212). A command runs
only while FAULT.FV = 0 (10_state R40), which is when R212 defines the action. -/
def State.recordFault (r : Raise) (s : State) : State :=
  { s with fault := faultWord r.cause, faultCw := s.reqCw, faultInfo := saturate64 r.info }

/-- `raise Fault(cause, info)` (60_exceptions R212): the command ends at once. Given the state the command started
in, none of its other writes is made. -/
def raiseFault (r : Raise) (s : State) : Result := .next (s.recordFault r)

/-- Reset, the one way out of the faulted state (60_exceptions R214, R220): every register to its reset value
(70_reset_and_hazards R241), BUF unchanged (R242). The configuration is fixed for the run (R244). The model's own
fields keep their values (log entries 3, 5, 6, 7). -/
def State.resetRegisters (s : State) : State :=
  { s with
    reqCw := 0
    reqOff := 0
    reqWord := 0
    reqFval := .fin 0
    reqMax := 0
    reqList := []
    rspWord := 0
    rspFval := .fin 0
    rspLen := 0
    rspList := []
    fault := 0
    faultCw := 0
    faultInfo := 0 }

/-- The capacity check (20_memory R53): over unbounded numbers, and before anything is written. `go` is the rest of
the command. -/
def guardCapacity (off n : Nat) (s : State) (go : Result) : Result :=
  if off + n ≤ s.cfg.bufCap then go else raiseFault ⟨.capacity, off + n⟩ s

/-! ### Draws -/

/-- `draw_N()` (00_scope R10): draw number `k`, any N-bit value. Log entry 5. -/
def drawBits (n k : Nat) : Nat := (Config.drawValue k).toNat % 2 ^ n

end Sys2Proof.Machine
end

