-- ==== Sys2Proof/Machine/Ieee754.lean ====
section
/-! DEFINITION. The IEEE754 Packer's functions (spec/41_ieee754_packer.md): formats (R100), quantize (R106), pack
(R104, R107) and unpack (R109), all exact over the rationals (spec/92_eei_decisions.md D3). -/

namespace Sys2Proof.Machine

/-- `sb = bits - expbits - 1` (41_ieee754_packer R100). -/
def sigBits (bits expb : Nat) : Nat := bits - expb - 1

/-- `bias = 2^(expbits-1) - 1` (41_ieee754_packer R100). -/
def bias (expb : Nat) : Nat := 2 ^ (expb - 1) - 1

/-- `2^e` for an integer e. -/
def pow2 : Int → Rat
  | .ofNat k => ((2 ^ k : Nat) : Rat)
  | .negSucc k => mkRat 1 (2 ^ (k + 1))

/-- The absolute value (41_ieee754_packer R104 step 2). -/
def magnitude (q : Rat) : Rat := if q < 0 then -q else q

/-- The unbiased exponent `e = floor(log2 |q|)` of a nonzero q (41_ieee754_packer R104 step 3). R118: the result is
defined by the value of e alone, and how e is found is not observable; here the bit lengths of numerator and
denominator give it to within one. DEDUCED (log entry 13). -/
def exponentOf (q : Rat) : Int :=
  let k : Int := (Nat.log2 q.num.natAbs : Int) - (Nat.log2 q.den : Int)
  if pow2 k ≤ magnitude q then k else k - 1

/-- The fraction `f = m - 1`, where `m = |q| / 2^e` (41_ieee754_packer R104 steps 3 and 4). -/
def fractionOf (q : Rat) : Rat := magnitude q * pow2 (-exponentOf q) - 1

/-- `quantize(f, sb)` (41_ieee754_packer R106). -/
def quantize (z : Quantize) (f : Rat) (sb : Nat) : Nat :=
  match z with
  | .addHalfUlp => (f * pow2 sb + 1 / 2).floor.toNat
  | .scalePlusHalf => (f * (pow2 sb + 1 / 2)).floor.toNat

/-- What pack answers: OK with a pattern, or UNDEF (41_ieee754_packer R104). -/
inductive Packed where
  | ok (p : Nat)
  | undef
  deriving DecidableEq, Repr

/-- Step 6 of pack, the OR of the source's formula, with no addition (41_ieee754_packer R104, R107). -/
def compose (bits expb sign biased sig : Nat) : Nat :=
  sign <<< (bits - 1) ||| biased <<< sigBits bits expb ||| sig

/-- `pack(x, bits, expbits)` for the finite x of value q (41_ieee754_packer R104); NegZero has the value 0 (R103). -/
def pack (z : Quantize) (q : Rat) (bits expb : Nat) : Packed :=
  if q = 0 then .ok 0
  else
    let biased : Int := exponentOf q + bias expb
    if biased < 0 ∨ biased > 2 ^ expb - 2 then .undef
    else .ok (compose bits expb (if q < 0 then 1 else 0) biased.toNat
      (quantize z (fractionOf q) (sigBits bits expb)))

/-- The exact value of a pattern by the formula of 41_ieee754_packer R109, with no special case. -/
def unpackFormula (w bits expb : Nat) : Rat :=
  let sb := sigBits bits expb
  let ef := (w >>> sb) % 2 ^ expb
  let sig := w % 2 ^ sb
  let v := ((sig : Rat) * pow2 (-(sb : Int)) + 1) * pow2 ((ef : Int) - (bias expb : Int))
  if w.testBit (bits - 1) then -v else v

/-- `unpack(w, bits, expbits)` for `0 <= w < 2^bits` (41_ieee754_packer R109); the all-zero word is 0 (R110). -/
def unpack (w bits expb : Nat) : Rat := if w = 0 then 0 else unpackFormula w bits expb

/-- The rational of a finite operand; `NegZero` packs as zero (41_ieee754_packer R103); none for PosInf, NegInf and
NaN (R115). -/
def finiteValue : FVal → Option Rat
  | .fin q => some q
  | .negZero => some 0
  | .posInf => none
  | .negInf => none
  | .nan => none

/-- A number and the draw count after it. -/
structure Drawn where
  value : Nat
  draws : Nat
  deriving DecidableEq, Repr

/-- The pattern a command stores: pack's, or a draw of `bits` bits when pack is UNDEF (41_ieee754_packer R105). `k`
is the number of draws made before. -/
def packOrDraw (z : Quantize) (q : Rat) (bits expb k : Nat) : Drawn :=
  match pack z q bits expb with
  | .ok p => ⟨p, k⟩
  | .undef => ⟨drawBits bits k, k + 1⟩

end Sys2Proof.Machine
end

