-- ==== Sys2Proof/Machine/Operands.lean ====
section
/-! DEFINITION. The operand forms: byte lists and their values (spec/00_scope.md rule R10), widening (R9), the sizes
and formats of kinds (spec/30_encoding.md rules R74, R75), and the shared element encoder and decoder
(spec/42_fixed_width_codec.md rules R131, R132). -/

namespace Sys2Proof

/-! ### Kinds -/

/-- `size(k)` in bytes (30_encoding R73, R74). -/
def Kind.size : Kind → Nat
  | .u8 => 1
  | .i8 => 1
  | .u16 => 2
  | .i16 => 2
  | .u32 => 4
  | .i32 => 4
  | .u64 => 8
  | .i64 => 8
  | .f32 => 4
  | .f64 => 8

/-- `sgn(k)` (30_encoding R74). -/
def Kind.signed : Kind → Bool
  | .u8 => false
  | .i8 => true
  | .u16 => false
  | .i16 => true
  | .u32 => false
  | .i32 => true
  | .u64 => false
  | .i64 => true
  | .f32 => false
  | .f64 => false

/-- `fmt(k)`: (32, 8) for F32, (64, 11) for F64, none for the integer kinds (30_encoding R74). -/
def Kind.format : Kind → Option (Nat × Nat)
  | .u8 => none
  | .i8 => none
  | .u16 => none
  | .i16 => none
  | .u32 => none
  | .i32 => none
  | .u64 => none
  | .i64 => none
  | .f32 => some (32, 8)
  | .f64 => some (64, 11)

/-- `isfloat(k)` (30_encoding R74). -/
def Kind.isFloat (k : Kind) : Bool := k.format.isSome

/-- `size(CK)` in bytes (30_encoding R75). -/
def CountKind.size : CountKind → Nat
  | .u8 => 1
  | .u16 => 2
  | .u32 => 4
  | .u64 => 8

end Sys2Proof

namespace Sys2Proof.Machine

/-! ### Byte lists -/

/-- `bytes_le(v, n)`: byte i is `(v >> 8i) & 0xFF` (00_scope R10). -/
def bytesLe (v n : Nat) : List Byte := (List.range n).map (fun i => BitVec.ofNat 8 (v >>> (8 * i)))

/-- `bytes_be(v, n)`: byte i is `(v >> 8(n-1-i)) & 0xFF` (00_scope R10). -/
def bytesBe (v n : Nat) : List Byte := (List.range n).map (fun i => BitVec.ofNat 8 (v >>> (8 * (n - 1 - i))))

/-- `val_le(bs)`: the sum of `bs[i] * 2^(8i)` (00_scope R10). -/
def valLe : List Byte → Nat
  | [] => 0
  | b :: bs => b.toNat + 2 ^ 8 * valLe bs

/-- `val_be(bs)`: the sum of `bs[i] * 2^(8(n-1-i))` (00_scope R10). -/
def valBe : List Byte → Nat
  | [] => 0
  | b :: bs => b.toNat * 2 ^ (8 * bs.length) + valBe bs

/-- The n bytes of v in a byte order (20_memory R55). -/
def bytesIn (ord : ByteOrder) (v n : Nat) : List Byte :=
  match ord with
  | .little => bytesLe v n
  | .big => bytesBe v n

/-- The value of bytes in a byte order (20_memory R55). -/
def valIn (ord : ByteOrder) (bs : List Byte) : Nat :=
  match ord with
  | .little => valLe bs
  | .big => valBe bs

/-! ### Widening -/

/-- `zext_N(v)` for `v < 2^N` (00_scope R9). -/
def zext (v : Nat) : Word := BitVec.ofNat 64 v

/-- `sext_N(v)` for `v < 2^N` (00_scope R9), in the form of 42_fixed_width_codec R155: `v - 2^N` when
`v >= 2^(N-1)`. -/
def sext (n v : Nat) : Word :=
  if 2 ^ (n - 1) ≤ v then BitVec.ofInt 64 ((v : Int) - 2 ^ n) else BitVec.ofNat 64 v

/-! ### The element encoder and decoder -/

/-- The bytes an encode gives, and the draw count after it. -/
structure Encoded where
  bytes : List Byte
  draws : Nat
  deriving DecidableEq, Repr

/-- `enc_bytes(k, ord, it, idx)` (42_fixed_width_codec R131). The integer kinds use the low `8n` bits of the item's
word; the float kinds ignore ORD and use HOST_ORDER (R158), and a non-finite operand raises NONFINITE_OPERAND with
the item's index (41_ieee754_packer R115). `draws` is the number of draws made before. -/
def encBytes (c : Params) (k : Kind) (ord : ByteOrder) (it : Item) (idx draws : Nat) : Except Raise Encoded :=
  match k.format with
  | none => .ok ⟨bytesIn ord (it.word.toNat % 2 ^ (8 * k.size)) k.size, draws⟩
  | some (bits, expb) =>
    match finiteValue it.real with
    | none => .error ⟨.nonfiniteOperand, idx⟩
    | some q =>
      let p := packOrDraw c.quantize q bits expb draws
      .ok ⟨bytesIn c.hostOrder p.value k.size, p.draws⟩

/-- `dec_item(k, ord, bs)` (42_fixed_width_codec R132). The field an item does not use is 0 or `Fin 0` (10_state
R25). -/
def decItem (c : Params) (k : Kind) (ord : ByteOrder) (bs : List Byte) : Item :=
  match k.format with
  | none =>
    let u := valIn ord bs
    { kind := k.code
      word := if k.signed then sext (8 * k.size) u else zext u
      real := .fin 0 }
  | some (bits, expb) =>
    { kind := k.code
      word := 0
      real := .fin (unpack (valIn c.hostOrder bs) bits expb) }

/-! ### Lists of items -/

/-- The items of a chain with the kinds their codes name, or ILLEGAL_COMMAND with info i + 1 for the lowest index i
whose kind is reserved (43_variadic_codec R164). -/
def taggedItems (idx : Nat) : List Item → Except Raise (List (Kind × Item))
  | [] => .ok []
  | it :: l =>
    match Kind.ofCode it.kind with
    | none => .error ⟨.illegalCommand, idx + 1⟩
    | some k =>
      match taggedItems (idx + 1) l with
      | .error r => .error r
      | .ok rest => .ok ((k, it) :: rest)

/-- The bytes of a list of items one after another, in index order (43_variadic_codec R162, R169). -/
def encItems (c : Params) (ord : ByteOrder) (idx draws : Nat) : List (Kind × Item) → Except Raise Encoded
  | [] => .ok ⟨[], draws⟩
  | (k, it) :: l =>
    match encBytes c k ord it idx draws with
    | .error r => .error r
    | .ok e =>
      match encItems c ord (idx + 1) e.draws l with
      | .error r => .error r
      | .ok rest => .ok ⟨e.bytes ++ rest.bytes, rest.draws⟩

/-- The total width of a list of kinds (43_variadic_codec R161). -/
def totalSize (ks : List Kind) : Nat := (ks.map Kind.size).sum

/-- The items of a list of kinds read one after another from `off`, packed without padding (43_variadic_codec R161,
R165; 44_length_prefixed_codec R182). -/
def decItems (c : Params) (ord : ByteOrder) (m : Memory) (off : Nat) : List Kind → List Item
  | [] => []
  | k :: ks => decItem c k ord (m.readBytes off k.size) :: decItems c ord m (off + k.size) ks

/-! ### What a storing command does with its bytes -/

/-- `MemWrite(REQ_OFF, T, out)` and `RSP_LEN <- T` (42_fixed_width_codec R133, 43_variadic_codec R162,
44_length_prefixed_codec R183), and the draws made. -/
def State.stored (total : Nat) (e : Encoded) (s : State) : State :=
  ((s.setBuf (s.buf.writeBytes s.reqOff.toNat e.bytes)).setRspLen (BitVec.ofNat 64 total)).setDrawCount e.draws

/-- The end of ENC, VENC and LPENC: the capacity check for all T bytes, then the store. -/
def storeRecord (total : Nat) (e : Encoded) (s : State) : Result :=
  guardCapacity s.reqOff.toNat total s (.next (s.stored total e))

end Sys2Proof.Machine
end

