-- ==== Sys2Proof/Machine/FixedWidth.lean ====
section
/-! DEFINITION. The Fixed-Width Codec's commands, ENC.* and DEC.* (spec/42_fixed_width_codec.md rules R133 to
R154). -/

namespace Sys2Proof.Machine

/-- The template of every `ENC.<k>` (42_fixed_width_codec R133). -/
def encCommand (k : Kind) (ord : ByteOrder) (s : State) : Result :=
  match encBytes s.cfg k ord ⟨k.code, s.reqWord, s.reqFval⟩ 0 s.drawCount with
  | .error r => raiseFault r s
  | .ok e => storeRecord k.size e s

/-- The template of every `DEC.<k>` (42_fixed_width_codec R134). -/
def decCommand (k : Kind) (ord : ByteOrder) (s : State) : Result :=
  guardCapacity s.reqOff.toNat k.size s
    (let it := decItem s.cfg k ord (s.buf.readBytes s.reqOff.toNat k.size)
     let t := if k.isFloat then s.setRspFval it.real else s.setRspWord it.word
     .next (t.setRspLen (BitVec.ofNat 64 k.size)))

/-- ENC.U8 (42_fixed_width_codec R135). -/
def execEncU8 (ord : ByteOrder) (s : State) : Result := encCommand .u8 ord s

/-- ENC.I8 (42_fixed_width_codec R136). -/
def execEncI8 (ord : ByteOrder) (s : State) : Result := encCommand .i8 ord s

/-- ENC.U16 (42_fixed_width_codec R137). -/
def execEncU16 (ord : ByteOrder) (s : State) : Result := encCommand .u16 ord s

/-- ENC.I16 (42_fixed_width_codec R138). -/
def execEncI16 (ord : ByteOrder) (s : State) : Result := encCommand .i16 ord s

/-- ENC.U32 (42_fixed_width_codec R139). -/
def execEncU32 (ord : ByteOrder) (s : State) : Result := encCommand .u32 ord s

/-- ENC.I32 (42_fixed_width_codec R140). -/
def execEncI32 (ord : ByteOrder) (s : State) : Result := encCommand .i32 ord s

/-- ENC.U64 (42_fixed_width_codec R141). -/
def execEncU64 (ord : ByteOrder) (s : State) : Result := encCommand .u64 ord s

/-- ENC.I64 (42_fixed_width_codec R142). -/
def execEncI64 (ord : ByteOrder) (s : State) : Result := encCommand .i64 ord s

/-- ENC.F32 (42_fixed_width_codec R143). -/
def execEncF32 (ord : ByteOrder) (s : State) : Result := encCommand .f32 ord s

/-- ENC.F64 (42_fixed_width_codec R144). -/
def execEncF64 (ord : ByteOrder) (s : State) : Result := encCommand .f64 ord s

/-- DEC.U8 (42_fixed_width_codec R145). -/
def execDecU8 (ord : ByteOrder) (s : State) : Result := decCommand .u8 ord s

/-- DEC.I8 (42_fixed_width_codec R146). -/
def execDecI8 (ord : ByteOrder) (s : State) : Result := decCommand .i8 ord s

/-- DEC.U16 (42_fixed_width_codec R147). -/
def execDecU16 (ord : ByteOrder) (s : State) : Result := decCommand .u16 ord s

/-- DEC.I16 (42_fixed_width_codec R148). -/
def execDecI16 (ord : ByteOrder) (s : State) : Result := decCommand .i16 ord s

/-- DEC.U32 (42_fixed_width_codec R149). -/
def execDecU32 (ord : ByteOrder) (s : State) : Result := decCommand .u32 ord s

/-- DEC.I32 (42_fixed_width_codec R150). -/
def execDecI32 (ord : ByteOrder) (s : State) : Result := decCommand .i32 ord s

/-- DEC.U64 (42_fixed_width_codec R151). -/
def execDecU64 (ord : ByteOrder) (s : State) : Result := decCommand .u64 ord s

/-- DEC.I64 (42_fixed_width_codec R152). -/
def execDecI64 (ord : ByteOrder) (s : State) : Result := decCommand .i64 ord s

/-- DEC.F32 (42_fixed_width_codec R153). -/
def execDecF32 (ord : ByteOrder) (s : State) : Result := decCommand .f32 ord s

/-- DEC.F64 (42_fixed_width_codec R154). -/
def execDecF64 (ord : ByteOrder) (s : State) : Result := decCommand .f64 ord s

end Sys2Proof.Machine
end

