-- ==== Sys2Proof/Machine/LengthPrefixed.lean ====
section
/-! DEFINITION. The Length-Prefixed Codec's commands, LPENC and LPDEC (spec/44_length_prefixed_codec.md rules R183,
R187), and the string a decode gives (R191). -/

namespace Sys2Proof.Machine

/-- The sentinel, -1 in 64-bit two's complement (44_length_prefixed_codec R190). -/
def sentinel : Word := 0xFFFFFFFFFFFFFFFF

/-- LPENC (44_length_prefixed_codec R183): the items' own kinds are ignored, and EK governs. -/
def execLpenc (ord : ByteOrder) (ek : Kind) (ck : CountKind) (s : State) : Result :=
  let n := s.reqList.length
  if 2 ^ (8 * ck.size) - 1 < n then raiseFault ⟨.countRange, n⟩ s
  else
    match encItems s.cfg ord 0 s.drawCount (s.reqList.map (fun it => (ek, it))) with
    | .error r => raiseFault r s
    | .ok e =>
      storeRecord (ck.size + n * ek.size)
        ⟨bytesIn ord n (ck.size) ++ e.bytes, e.draws⟩ s

/-- LPDEC (44_length_prefixed_codec R187): capacity for the count field, the guard (R188), LIST_RANGE (R189),
capacity for the elements, in that order. -/
def execLpdec (ord : ByteOrder) (ek : Kind) (ck : CountKind) (s : State) : Result :=
  let off := s.reqOff.toNat
  let u := ck.size
  guardCapacity off u s
    (let c := valIn ord (s.buf.readBytes off u)
     if s.reqMax.toNat < c then .next ((s.setRspLen sentinel).setRspList [])
     else if s.cfg.maxList < c then raiseFault ⟨.listRange, c⟩ s
     else
       guardCapacity off (u + c * ek.size) s
         (.next ((s.setRspList (decItems s.cfg ord s.buf (off + u) (List.replicate c ek))).setRspLen
           (BitVec.ofNat 64 (u + c * ek.size)))))

/-- The string of `sdec`: the bytes `word[7:0]` of RSP_LIST in order, or empty when RSP_LEN = -1
(44_length_prefixed_codec R191). -/
def decodedString (s : State) : List Byte :=
  if s.rspLen = sentinel then [] else s.rspList.map (fun it => it.word.extractLsb' 0 8)

end Sys2Proof.Machine
end

