-- ==== Sys2Proof/Machine/Packer.lean ====
section
/-! DEFINITION. The IEEE754 Packer's commands, FPACK and FUNPACK (spec/41_ieee754_packer.md rules R102, R108). -/

namespace Sys2Proof.Machine

/-- FPACK (41_ieee754_packer R102): NONFINITE_OPERAND for an infinity or NaN (R115); else the pattern, or a draw when
pack is UNDEF (R105), zero-extended into RSP_WORD. -/
def execFpack (bits expb : BitVec 7) (s : State) : Result :=
  match finiteValue s.reqFval with
  | none => raiseFault ⟨.nonfiniteOperand, 0⟩ s
  | some q =>
    let p := packOrDraw s.cfg.quantize q bits.toNat expb.toNat s.drawCount
    .next ((s.setRspWord (BitVec.ofNat 64 p.value)).setDrawCount p.draws)

/-- FUNPACK (41_ieee754_packer R108): the bits of REQ_WORD above `bits` are ignored. -/
def execFunpack (bits expb : BitVec 7) (s : State) : Result :=
  .next (s.setRspFval (.fin (unpack (s.reqWord.toNat % 2 ^ bits.toNat) bits.toNat expb.toNat)))

end Sys2Proof.Machine
end

