-- ==== Sys2Proof/Machine/Variadic.lean ====
section
/-! DEFINITION. The Variadic Codec's commands, VENC and VDEC (spec/43_variadic_codec.md rules R162, R165). -/

namespace Sys2Proof.Machine

/-- VENC (43_variadic_codec R162): the kinds are checked first, then the items are encoded in order, then the
capacity is checked for all of them. -/
def execVenc (ord : ByteOrder) (s : State) : Result :=
  match taggedItems 0 s.reqList with
  | .error r => raiseFault r s
  | .ok l =>
    match encItems s.cfg ord 0 s.drawCount l with
    | .error r => raiseFault r s
    | .ok e => storeRecord e.bytes.length e s

/-- VDEC (43_variadic_codec R165): of REQ_LIST only the kinds are read. -/
def execVdec (ord : ByteOrder) (s : State) : Result :=
  match taggedItems 0 s.reqList with
  | .error r => raiseFault r s
  | .ok l =>
    let ks := l.map Prod.fst
    guardCapacity s.reqOff.toNat (totalSize ks) s
      (.next ((s.setRspList (decItems s.cfg ord s.buf s.reqOff.toNat ks)).setRspLen
        (BitVec.ofNat 64 (totalSize ks))))

end Sys2Proof.Machine
end

