-- ==== Sys2Proof/Machine/Dispatch.lean ====
section
/-! DEFINITION. The dispatch: one arm per command, one meaning per arm. -/

namespace Sys2Proof.Machine

def exec (i : Instr) (s : State) : Host.Outcome State Fault Refusal :=
  match i with
  | .fpack bits expb => Sys2Proof.Machine.execFpack bits expb s
  | .funpack bits expb => Sys2Proof.Machine.execFunpack bits expb s
  | .encU8 ord => Sys2Proof.Machine.execEncU8 ord s
  | .encI8 ord => Sys2Proof.Machine.execEncI8 ord s
  | .encU16 ord => Sys2Proof.Machine.execEncU16 ord s
  | .encI16 ord => Sys2Proof.Machine.execEncI16 ord s
  | .encU32 ord => Sys2Proof.Machine.execEncU32 ord s
  | .encI32 ord => Sys2Proof.Machine.execEncI32 ord s
  | .encU64 ord => Sys2Proof.Machine.execEncU64 ord s
  | .encI64 ord => Sys2Proof.Machine.execEncI64 ord s
  | .encF32 ord => Sys2Proof.Machine.execEncF32 ord s
  | .encF64 ord => Sys2Proof.Machine.execEncF64 ord s
  | .decU8 ord => Sys2Proof.Machine.execDecU8 ord s
  | .decI8 ord => Sys2Proof.Machine.execDecI8 ord s
  | .decU16 ord => Sys2Proof.Machine.execDecU16 ord s
  | .decI16 ord => Sys2Proof.Machine.execDecI16 ord s
  | .decU32 ord => Sys2Proof.Machine.execDecU32 ord s
  | .decI32 ord => Sys2Proof.Machine.execDecI32 ord s
  | .decU64 ord => Sys2Proof.Machine.execDecU64 ord s
  | .decI64 ord => Sys2Proof.Machine.execDecI64 ord s
  | .decF32 ord => Sys2Proof.Machine.execDecF32 ord s
  | .decF64 ord => Sys2Proof.Machine.execDecF64 ord s
  | .venc ord => Sys2Proof.Machine.execVenc ord s
  | .vdec ord => Sys2Proof.Machine.execVdec ord s
  | .lpenc ord ek ck => Sys2Proof.Machine.execLpenc ord ek ck s
  | .lpdec ord ek ck => Sys2Proof.Machine.execLpdec ord ek ck s

end Sys2Proof.Machine
end

