-- ==== Sys2Proof/Machine/HostAccess.lean ====
section
/-! DEFINITION. What the host may do to the block (spec/60_exceptions.md rule R228): the register map
(spec/10_state.md rule R21), issuing a command by a write of REQ_CW (R40), BUF accesses between commands (R39) and
reset (spec/70_reset_and_hazards.md rule R240). -/

namespace Sys2Proof.Machine

/-- The registers of the map (10_state R21). -/
inductive Reg where
  | reqCw
  | reqOff
  | reqWord
  | reqFval
  | reqMax
  | reqList
  | rspWord
  | rspFval
  | rspLen
  | rspList
  | fault
  | faultCw
  | faultInfo
  deriving DecidableEq, Repr

/-- The register a number names; 0x06 to 0x0F, 0x14 to 0x1F and 0x23 and above are reserved (10_state R21). -/
def Reg.ofNumber (n : Nat) : Option Reg :=
  if n = 0x00 then some .reqCw
  else if n = 0x01 then some .reqOff
  else if n = 0x02 then some .reqWord
  else if n = 0x03 then some .reqFval
  else if n = 0x04 then some .reqMax
  else if n = 0x05 then some .reqList
  else if n = 0x10 then some .rspWord
  else if n = 0x11 then some .rspFval
  else if n = 0x12 then some .rspLen
  else if n = 0x13 then some .rspList
  else if n = 0x20 then some .fault
  else if n = 0x21 then some .faultCw
  else if n = 0x22 then some .faultInfo
  else none

/-- A register's value as the host reads it (10_state R21, R32). -/
def readReg (r : Reg) (s : State) : HostVal :=
  match r with
  | .reqCw => .bits32 s.reqCw
  | .reqOff => .bits64 s.reqOff
  | .reqWord => .bits64 s.reqWord
  | .reqFval => .real s.reqFval
  | .reqMax => .bits64 s.reqMax
  | .reqList => .items s.reqList
  | .rspWord => .bits64 s.rspWord
  | .rspFval => .real s.rspFval
  | .rspLen => .bits64 s.rspLen
  | .rspList => .items s.rspList
  | .fault => .bits32 s.fault
  | .faultCw => .bits32 s.faultCw
  | .faultInfo => .bits64 s.faultInfo

/-- A host read by number; a reserved number reads 0 (10_state R21). The spec gives that 0 no width; the model's is
64 bits. DESIGN CHOICE (log entry 9). -/
def hostRead (n : Nat) (s : State) : HostVal :=
  match Reg.ofNumber n with
  | some r => readReg r s
  | none => .bits64 0

/-- Runs what the decoder read (10_state R40): an ILLEGAL word raises ILLEGAL_COMMAND with info 0 (30_encoding
R81). -/
def execVerdict (v : Verdict) (s : State) : Result :=
  match v with
  | .command i => exec i s
  | .illegal _ => raiseFault ⟨.illegalCommand, 0⟩ s

/-- A host write to REQ_CW (10_state R40): the word is stored; while FAULT.FV = 1 nothing else happens; otherwise it
is decoded and executed as one step. -/
def issue (w : CommandWord) (s : State) : Result :=
  if faultValid s then .next (s.acceptCommand w) else execVerdict (decode w) (s.acceptCommand w)

/-- A host write of a value to a register (10_state R21): the request registers take it, the others ignore it. -/
def writeReg (n : Nat) (r : Reg) (v : HostVal) (s : State) : Result :=
  match r with
  | .reqCw => match v with
    | .bits32 w => issue w s
    | _ => .refused (.valueType n)
  | .reqOff => match v with
    | .bits64 x => .next (s.setReqOff x)
    | _ => .refused (.valueType n)
  | .reqWord => match v with
    | .bits64 x => .next (s.setReqWord x)
    | _ => .refused (.valueType n)
  | .reqFval => match v with
    | .real x => .next (s.setReqFval x)
    | _ => .refused (.valueType n)
  | .reqMax => match v with
    | .bits64 x => .next (s.setReqMax x)
    | _ => .refused (.valueType n)
  | .reqList => match v with
    | .items l => if l.length ≤ s.cfg.maxList then .next (s.setReqList l) else .refused (.listLength l.length)
    | _ => .refused (.valueType n)
  | .rspWord => .next s
  | .rspFval => .next s
  | .rspLen => .next s
  | .rspList => .next s
  | .fault => .next s
  | .faultCw => .next s
  | .faultInfo => .next s

/-- A host write by number; a write to a reserved number is ignored (10_state R21). -/
def hostWrite (n : Nat) (v : HostVal) (s : State) : Result :=
  match Reg.ofNumber n with
  | some r => writeReg n r v s
  | none => .next s

/-- One access of the host (60_exceptions R228). -/
def hostAccess (op : HostOp) (s : State) : Result :=
  match op with
  | .write n v => hostWrite n v s
  | .read n => .next (s.setReadData (hostRead n s))
  | .bufWrite off b => if off < s.cfg.bufCap then .next (s.setBuf (s.buf.write off b)) else .fault (.noSuchByte off)
  | .bufRead off => if off < s.cfg.bufCap then .next (s.setReadData (.byte (s.buf.read off))) else .fault (.noSuchByte off)
  | .reset => .next s.resetRegisters

/-- The access the host makes when it issues the command word numbered `w`. -/
def issueAccess (w : Nat) : HostOp := .write 0x00 (.bits32 (BitVec.ofNat 32 w))

end Sys2Proof.Machine
end

