-- ==== Sys2Proof/Machine/Step.lean ====
section
/-! DEFINITION. The step: the host's next access is made. The block fetches nothing (spec/10_state.md rule R30), so
the host's pending accesses are the program (log entry 3). -/

namespace Sys2Proof.Machine

/-- One step: the host's next access, or, with none pending, nothing: the block is idle and holds its state
(60_exceptions R227, 70_reset_and_hazards R243; log entry 4). -/
def step (s : State) : Host.Outcome State Fault Refusal :=
  match s.host with
  | [] => .next s
  | op :: rest => hostAccess op (s.setHost rest)

/-- `s` with the host's write of the command word `w` to REQ_CW as its next access (log entry 3). A command has one
32-bit word (30_encoding R70), so the bits above `nbits` are the zeros of `w`. -/
def State.withFetchWord (s : State) (nbits w : Nat) : State :=
  s.setHost (issueAccess (w % 2 ^ nbits) :: s.host)

end Sys2Proof.Machine
end

