-- ==== Sys2Proof/Machine/Assembler.lean ====
section
/-! DEFINITION. The text syntax of spec/30_encoding.md rules R85 and R86: the words of a line's mnemonic, what a
line's operands write, the pseudo-instructions, and a program as the host's accesses. The spec gives no literal form
for an operand value, so a line carries values (log entry 14). -/

namespace Sys2Proof

/-- One word or number of the mnemonic part of a line (30_encoding R85): `enc.u32.be` is the words enc, u32, be, and
`fpack 32, 8` is the word fpack and the numbers 32 and 8. -/
inductive Token where
  | word (t : String)
  | num (n : Nat)
  deriving DecidableEq, Repr

/-- The kind suffix (30_encoding R85). -/
def Kind.suffix : Kind → String
  | .u8 => "u8"
  | .i8 => "i8"
  | .u16 => "u16"
  | .i16 => "i16"
  | .u32 => "u32"
  | .i32 => "i32"
  | .u64 => "u64"
  | .i64 => "i64"
  | .f32 => "f32"
  | .f64 => "f64"

/-- The kind a suffix names. -/
def Kind.named (t : String) : Option Kind :=
  [Kind.u8, .i8, .u16, .i16, .u32, .i32, .u64, .i64, .f32, .f64].find? (fun k => k.suffix == t)

/-- The count suffix (30_encoding R85). -/
def CountKind.suffix : CountKind → String
  | .u8 => "u8"
  | .u16 => "u16"
  | .u32 => "u32"
  | .u64 => "u64"

/-- The count kind a suffix names. -/
def CountKind.named (t : String) : Option CountKind :=
  [CountKind.u8, .u16, .u32, .u64].find? (fun k => k.suffix == t)

/-- The order suffix: `.le` for ORD = 0, `.be` for ORD = 1 (30_encoding R85). -/
def ByteOrder.suffix : ByteOrder → String
  | .little => "le"
  | .big => "be"

/-- The order a suffix names. -/
def ByteOrder.named (t : String) : Option ByteOrder :=
  [ByteOrder.little, .big].find? (fun o => o.suffix == t)

/-- The mnemonic part of a command's line (30_encoding R85). -/
def Instr.tokens : Instr → List Token
  | .fpack bits expb => [.word "fpack", .num bits.toNat, .num expb.toNat]
  | .funpack bits expb => [.word "funpack", .num bits.toNat, .num expb.toNat]
  | .encU8 o => [.word "enc", .word "u8", .word o.suffix]
  | .encI8 o => [.word "enc", .word "i8", .word o.suffix]
  | .encU16 o => [.word "enc", .word "u16", .word o.suffix]
  | .encI16 o => [.word "enc", .word "i16", .word o.suffix]
  | .encU32 o => [.word "enc", .word "u32", .word o.suffix]
  | .encI32 o => [.word "enc", .word "i32", .word o.suffix]
  | .encU64 o => [.word "enc", .word "u64", .word o.suffix]
  | .encI64 o => [.word "enc", .word "i64", .word o.suffix]
  | .encF32 o => [.word "enc", .word "f32", .word o.suffix]
  | .encF64 o => [.word "enc", .word "f64", .word o.suffix]
  | .decU8 o => [.word "dec", .word "u8", .word o.suffix]
  | .decI8 o => [.word "dec", .word "i8", .word o.suffix]
  | .decU16 o => [.word "dec", .word "u16", .word o.suffix]
  | .decI16 o => [.word "dec", .word "i16", .word o.suffix]
  | .decU32 o => [.word "dec", .word "u32", .word o.suffix]
  | .decI32 o => [.word "dec", .word "i32", .word o.suffix]
  | .decU64 o => [.word "dec", .word "u64", .word o.suffix]
  | .decI64 o => [.word "dec", .word "i64", .word o.suffix]
  | .decF32 o => [.word "dec", .word "f32", .word o.suffix]
  | .decF64 o => [.word "dec", .word "f64", .word o.suffix]
  | .venc o => [.word "venc", .word o.suffix]
  | .vdec o => [.word "vdec", .word o.suffix]
  | .lpenc o ek ck => [.word "lpenc", .word ck.suffix, .word ek.suffix, .word o.suffix]
  | .lpdec o ek ck => [.word "lpdec", .word ck.suffix, .word ek.suffix, .word o.suffix]

/-- A number that fits a 7-bit field. -/
def field7 (n : Nat) : Option (BitVec 7) := if n < 2 ^ 7 then some (BitVec.ofNat 7 n) else none

/-- The command a mnemonic part names (30_encoding R85). Whether a format is legal is the decoder's question. -/
def Instr.ofTokens : List Token → Option Instr
  | [.word m, .num b, .num e] =>
    match field7 b, field7 e with
    | some bits, some expb =>
      if m = "fpack" then some (.fpack bits expb)
      else if m = "funpack" then some (.funpack bits expb)
      else none
    | _, _ => none
  | [.word m, .word o] =>
    match ByteOrder.named o with
    | some ord =>
      if m = "venc" then some (.venc ord)
      else if m = "vdec" then some (.vdec ord)
      else none
    | none => none
  | [.word m, .word k, .word o] =>
    match Kind.named k, ByteOrder.named o with
    | some kind, some ord =>
      if m = "enc" then some (Instr.enc kind ord)
      else if m = "dec" then some (Instr.dec kind ord)
      else none
    | _, _ => none
  | [.word m, .word c, .word k, .word o] =>
    match CountKind.named c, Kind.named k, ByteOrder.named o with
    | some ck, some ek, some ord =>
      if m = "lpenc" then some (.lpenc ord ek ck)
      else if m = "lpdec" then some (.lpdec ord ek ck)
      else none
    | _, _, _ => none
  | _ => none

end Sys2Proof

namespace Sys2Proof.Machine

/-- The `name=value` operands of a line; a register a line leaves out is none (30_encoding R85). -/
structure LineOperands where
  off  : Option Word := none
  word : Option Word := none
  fval : Option FVal := none
  max  : Option Word := none
  list : Option (List Item) := none
  deriving DecidableEq, Repr

/-- The access that sets a register, when the line has the operand. -/
def operandAccess (reg : Nat) (v : Option HostVal) : List HostOp :=
  match v with
  | some x => [.write reg x]
  | none => []

/-- Each `name=value` sets the request register of that name (30_encoding R85). -/
def LineOperands.accesses (o : LineOperands) : List HostOp :=
  operandAccess 0x01 (o.off.map .bits64) ++ operandAccess 0x02 (o.word.map .bits64) ++
    operandAccess 0x03 (o.fval.map .real) ++ operandAccess 0x04 (o.max.map .bits64) ++
    operandAccess 0x05 (o.list.map .items)

/-- A line of text (30_encoding R85) or of a pseudo-instruction (R86). -/
inductive Line where
  | command (i : Instr) (o : LineOperands)
  | pack754b32 (fval : Option FVal)
  | pack754b64 (fval : Option FVal)
  | unpack754b32 (word : Option Word)
  | unpack754b64 (word : Option Word)
  | senc (ck : CountKind) (ord : ByteOrder) (off : Option Word) (str : Option (List Byte))
  | sdec (ck : CountKind) (ord : ByteOrder) (off max : Option Word)
  deriving DecidableEq, Repr

/-- The items of a string: U8 items, one for each byte (30_encoding R86, 44_length_prefixed_codec R191). -/
def stringItems (str : List Byte) : List Item :=
  str.map (fun b => { kind := Kind.u8.code, word := zext b.toNat, real := .fin 0 })

/-- The command a line stands for and its operands (30_encoding R86). -/
def Line.expand : Line → Instr × LineOperands
  | .command i o => (i, o)
  | .pack754b32 x => (.fpack 32 8, { fval := x })
  | .pack754b64 x => (.fpack 64 11, { fval := x })
  | .unpack754b32 w => (.funpack 32 8, { word := w })
  | .unpack754b64 w => (.funpack 64 11, { word := w })
  | .senc ck ord off str => (.lpenc ord .u8 ck, { off := off, list := str.map stringItems })
  | .sdec ck ord off max => (.lpdec ord .u8 ck, { off := off, max := max })

/-- The host's accesses for a line: the operands first, then the command word (30_encoding R85). -/
def Line.accesses (l : Line) : List HostOp :=
  l.expand.2.accesses ++ [.write 0x00 (.bits32 (encode l.expand.1))]

/-- A program is the host's straight-line sequence of register writes (10_state R30, 95_test_vectors L3). -/
def programAccesses (ls : List Line) : List HostOp := ls.flatMap Line.accesses

end Sys2Proof.Machine
end

