-- ==== Sys2Proof/Machine/Run.lean ====
section
/-! DEFINITION. A run of a host command sequence: where it ends and what is observed of it
(spec/70_reset_and_hazards.md rule R248). -/

namespace Sys2Proof.Machine

/-- The access issues a command: it is a write of a command word to REQ_CW (10_state R40), executed or, while
FAULT.FV = 1, only stored. -/
def HostOp.isCommand : HostOp → Bool
  | .write n (.bits32 _) => n == 0x00
  | .write _ (.bits64 _) => false
  | .write _ (.real _) => false
  | .write _ (.items _) => false
  | .write _ (.byte _) => false
  | .read _ => false
  | .bufWrite _ _ => false
  | .bufRead _ => false
  | .reset => false

/-- Steps, at most `n` of them, for as long as a command is still to be issued. -/
def runFor : Nat → State → Result
  | 0, s => .next s
  | n + 1, s =>
    if s.host.any HostOp.isCommand then
      match step s with
      | .next t => runFor n t
      | .fault r => .fault r
      | .refused r => .refused r
    else .next s

/-- The end of the run of the host's sequence: the state when the last command's step has completed (70 R248). The
accesses the host makes after the last command are still in `host` there and are no part of the run (log entry 16). -/
def State.runEnd (s : State) : Result := runFor s.host.length s

/-- What is observed of a state: the registers and BUF (70 R248). -/
structure Observed where
  reqCw     : CommandWord
  reqOff    : Word
  reqWord   : Word
  reqFval   : FVal
  reqMax    : Word
  reqList   : List Item
  rspWord   : Word
  rspFval   : FVal
  rspLen    : Word
  rspList   : List Item
  fault     : BitVec 32
  faultCw   : CommandWord
  faultInfo : Word
  buf       : Memory
  deriving DecidableEq, Repr

/-- The registers and BUF of a state. -/
def State.observed (s : State) : Observed :=
  { reqCw := s.reqCw
    reqOff := s.reqOff
    reqWord := s.reqWord
    reqFval := s.reqFval
    reqMax := s.reqMax
    reqList := s.reqList
    rspWord := s.rspWord
    rspFval := s.rspFval
    rspLen := s.rspLen
    rspList := s.rspList
    fault := s.fault
    faultCw := s.faultCw
    faultInfo := s.faultInfo
    buf := s.buf }

/-- The observed result of the run: the final registers and BUF (70 R248). None when the model stops at an access of
the host before the last command (log entries 9 to 11). -/
def State.runResult (s : State) : Option Observed :=
  match s.runEnd with
  | .next t => some t.observed
  | .fault _ => none
  | .refused _ => none

end Sys2Proof.Machine
end

