-- ==== Sys2Proof/Safety.lean ====
section
/-! DEFINITION. What counts as a safe run of the block: the invariant its registers and BUF keep, and how a
run ends (spec/70_reset_and_hazards.md rule R248). -/

namespace Sys2Proof.Machine

/-- FAULT is 0 with FAULT_CW and FAULT_INFO 0, or it holds FV = 1 and one of the causes 1 to 5 with every reserved
bit 0 (10_state R36, R37). -/
def FaultLegal (s : State) : Prop :=
  (s.fault = 0 ∧ s.faultCw = 0 ∧ s.faultInfo = 0) ∨ ∃ c : Cause, s.fault = faultWord c

/-- An item the block writes: one of the ten kinds, the unused field 0 or `Fin 0`, a float value always `Fin q`
(10_state R25). -/
def ItemWritten (it : Item) : Prop :=
  ∃ k : Kind, it.kind = k.code ∧
    if k.isFloat then it.word = 0 ∧ ∃ q, it.real = .fin q else it.real = .fin 0

/-- What holds of every register and of BUF in every state a run from power-up reaches. -/
structure State.Inv (s : State) : Prop where
  /-- The configuration is in the ranges of 00_scope R7. -/
  cfg : s.cfg.WF
  /-- BUF is in canonical form. -/
  bufCanonical : s.buf.wf
  /-- BUF has no byte at or above BUF_CAP (10_state R39). -/
  bufInside : ∀ c ∈ s.buf, c.1 < s.cfg.bufCap
  /-- FAULT and its companions (10_state R36, R37). -/
  faultLegal : FaultLegal s
  /-- A list register holds at most MAX_LIST items (00_scope R11). -/
  reqListBound : s.reqList.length ≤ s.cfg.maxList
  rspListBound : s.rspList.length ≤ s.cfg.maxList
  /-- RSP_FVAL is always `Fin q` (41_ieee754_packer R116). -/
  rspFvalFin : ∃ q, s.rspFval = .fin q
  /-- RSP_LIST holds items the block writes (10_state R25). -/
  rspItems : ∀ it ∈ s.rspList, ItemWritten it
  /-- RSP_LEN is the sentinel or a byte count within BUF_CAP (44_length_prefixed_codec R190). -/
  rspLen : s.rspLen = sentinel ∨ s.rspLen.toNat ≤ s.cfg.bufCap

/-- A normal end: the run of the host's sequence has an end, with FAULT.FV = 0 there (70_reset_and_hazards R248). -/
def State.NormalEnd (s : State) : Prop := ∃ t, s.runEnd = .next t ∧ faultValid t = false

/-- A faulted run: FAULT.FV = 1 when the last command's step has completed, whatever the host does afterwards
(70_reset_and_hazards R248). -/
def State.FaultedRun (s : State) : Prop := ∃ t, s.runEnd = .next t ∧ faultValid t = true

/-- Every register at its reset value (70_reset_and_hazards R241). -/
structure State.RegistersReset (s : State) : Prop where
  reqCw : s.reqCw = 0
  reqOff : s.reqOff = 0
  reqWord : s.reqWord = 0
  reqFval : s.reqFval = .fin 0
  reqMax : s.reqMax = 0
  reqList : s.reqList = []
  rspWord : s.rspWord = 0
  rspFval : s.rspFval = .fin 0
  rspLen : s.rspLen = 0
  rspList : s.rspList = []
  fault : s.fault = 0
  faultCw : s.faultCw = 0
  faultInfo : s.faultInfo = 0

/-- The state with its host accesses after the first, REQ_CW and the command index as a write of `w` to REQ_CW
leaves them (10_state R30, R32). -/
def State.accepted (w : CommandWord) (rest : List HostOp) (s : State) : State :=
  { s with host := rest, reqCw := w, cmdIndex := s.cmdIndex + 1 }

/-- The record of a fault, in the words of 60_exceptions R212: `FAULT <- (1 << 8) | cause`, `FAULT_CW <- REQ_CW`,
`FAULT_INFO <- min(info, 2^64 - 1)`, and nothing else. -/
def State.faulted (cause : Cause) (info : Nat) (s : State) : State :=
  { s with
    fault := BitVec.ofNat 32 (2 ^ 8 + cause.code.toNat)
    faultCw := s.reqCw
    faultInfo := BitVec.ofNat 64 (min info (2 ^ 64 - 1)) }

/-- The state with every request register but REQ_CW set by the host to other values. -/
def State.withRequests (off word : Word) (fval : FVal) (max : Word) (list : List Item) (s : State) : State :=
  { s with reqOff := off, reqWord := word, reqFval := fval, reqMax := max, reqList := list }

/-- An outcome with its next state changed by `f`. -/
def mapNext (f : State → State) : Result → Result
  | .next t => .next (f t)
  | .fault r => .fault r
  | .refused r => .refused r

/-- The weight of byte i of n in a byte order: `8i` bits for little, `8(n-1-i)` for big (00_scope R10). -/
def byteShift (ord : ByteOrder) (n i : Nat) : Nat :=
  match ord with
  | .little => 8 * i
  | .big => 8 * (n - 1 - i)

/-- `v mod 2^(8n)` as a decode of an integer kind presents it in 64 bits (42_fixed_width_codec R155): the unsigned
value, or for a signed kind the two's-complement value. -/
def presented (k : Kind) (v : Nat) : Int :=
  let u := v % 2 ^ (8 * k.size)
  if k.signed ∧ 2 ^ (8 * k.size - 1) ≤ u then (u : Int) - 2 ^ (8 * k.size) else u

/-- One ENC after another over the items of a list, REQ_OFF advanced by each item's width (43_variadic_codec R161,
R166); none when one of them faults. -/
def encChain (ord : ByteOrder) : List (Kind × Item) → State → Option State
  | [], s => some s
  | (k, it) :: l, s =>
    match exec (Instr.enc k ord) { s with reqWord := it.word, reqFval := it.real } with
    | .next t =>
      if faultValid t then none else encChain ord l { t with reqOff := t.reqOff + BitVec.ofNat 64 k.size }
    | .fault _ => none
    | .refused _ => none

end Sys2Proof.Machine
end

