-- ==== Sys2Proof/Certificates/Slice0/Obligations.lean ====
section
/-! DEFINITION. The statements about the block, each a Prop with the rules of spec/ it rests on. Nothing here is
proved. Every statement holds for every configuration (the field cfg, log entry 1), every BUF contents and every
value of the draws (log entry 5), unless it says otherwise. -/

open Sys2Proof Sys2Proof.Machine

/-! ### The command word -/

/-- Decoding the word of a well-formed command gives the command back, with every operand at every value the
encoding admits (30_encoding R71, R73, R75, R76, R80). All 26 commands. -/
def Obligations.DecodeInvertsEncode : Prop :=
  ∀ i : Instr, i.wf = true → decode (encode i) = .command i

/-- A word that decodes to a command is that command's word, and the command is well formed: each legal word has one
meaning and no bit of it is dropped (30_encoding R77, R80). -/
def Obligations.EncodeInvertsDecode : Prop :=
  ∀ (w : CommandWord) (i : Instr), decode w = .command i → i.wf = true ∧ encode i = w

/-- At most one row of the opcode map matches any word (30_encoding R77). -/
def Obligations.AtMostOneRowMatches : Prop :=
  ∀ (w : CommandWord) (j k : Nat) (hj : j < rows.length) (hk : k < rows.length),
    (rows[j]).hits w = true → (rows[k]).hits w = true → j = k

/-- Exactly the words of the list of 30_encoding R81 are illegal, and issuing one while no fault is recorded raises
ILLEGAL_COMMAND with info 0 and changes nothing else but REQ_CW (and the model's own position and program, log
entries 3 and 6). -/
def Obligations.IllegalWordsFault : Prop :=
  ∀ w : CommandWord,
    ((∃ why, decode w = .illegal why) ↔
      opcOf w = 0 ∨ 9 ≤ (opcOf w).toNat ∨ resOf w ≠ 0 ∨
        ((opcOf w = 1 ∨ opcOf w = 2) ∧ (ordOf w = .big ∨ ekOf w ≠ 0 ∨ ckOf w ≠ 0)) ∨
        ((opcOf w = 3 ∨ opcOf w = 4) ∧ (ckOf w ≠ 0 ∨ bitsOf w ≠ 0 ∨ expbOf w ≠ 0)) ∨
        ((opcOf w = 5 ∨ opcOf w = 6) ∧ (ekOf w ≠ 0 ∨ ckOf w ≠ 0 ∨ bitsOf w ≠ 0 ∨ expbOf w ≠ 0)) ∨
        ((opcOf w = 7 ∨ opcOf w = 8) ∧ (bitsOf w ≠ 0 ∨ expbOf w ≠ 0)) ∨
        ((opcOf w = 3 ∨ opcOf w = 4 ∨ opcOf w = 7 ∨ opcOf w = 8) ∧ 10 ≤ (ekOf w).toNat) ∨
        ((opcOf w = 1 ∨ opcOf w = 2) ∧
          ¬(2 ≤ (bitsOf w).toNat ∧ (bitsOf w).toNat ≤ 64 ∧ 1 ≤ (expbOf w).toNat ∧
            (expbOf w).toNat ≤ (bitsOf w).toNat - 1))) ∧
    ((∃ why, decode w = .illegal why) →
      ∀ (s : State) (rest : List HostOp), faultValid s = false → s.host = .write 0x00 (.bits32 w) :: rest →
        step s = .next ((s.accepted w rest).faulted .illegalCommand 0))

/-- The worked encodings of 30_encoding R87, decoded and encoded. -/
def Obligations.WorkedEncodings : Prop :=
  decode 0x00000093 = .command (.encU32 .big) ∧ encode (.encU32 .big) = 0x00000093 ∧
  decode 0x00000083 = .command (.encU32 .little) ∧ encode (.encU32 .little) = 0x00000083 ∧
  decode 0x00000094 = .command (.decU32 .big) ∧ encode (.decU32 .big) = 0x00000094 ∧
  decode 0x00210001 = .command (.fpack 32 8) ∧ encode (.fpack 32 8) = 0x00210001 ∧
  decode 0x002E0001 = .command (.fpack 64 11) ∧ encode (.fpack 64 11) = 0x002E0001 ∧
  decode 0x00210002 = .command (.funpack 32 8) ∧ encode (.funpack 32 8) = 0x00210002 ∧
  decode 0x00000015 = .command (.venc .big) ∧ encode (.venc .big) = 0x00000015 ∧
  decode 0x00000217 = .command (.lpenc .big .u8 .u16) ∧ encode (.lpenc .big .u8 .u16) = 0x00000217 ∧
  decode 0x00000218 = .command (.lpdec .big .u8 .u16) ∧ encode (.lpdec .big .u8 .u16) = 0x00000218 ∧
  decode 0x00000103 = .command (.encF32 .little) ∧ encode (.encF32 .little) = 0x00000103

/-- The mnemonic part of a command's text names the command (30_encoding R85). -/
def Obligations.MnemonicTextNamesTheCommand : Prop :=
  ∀ i : Instr, Instr.ofTokens i.tokens = some i

/-! ### The step, the host and reset -/

/-- A host write to REQ_CW issues one command (10_state R40): with FAULT.FV = 1 the word is stored and nothing else
happens; otherwise the decoded command is executed in the state with the word stored, and an illegal word raises
ILLEGAL_COMMAND. The step adds only the model's own fields: the access is taken off the program (log entry 3) and the
command index goes up by one (R30, log entry 6). -/
def Obligations.StepRunsTheDecodedCommand : Prop :=
  ∀ (s : State) (w : CommandWord) (rest : List HostOp), s.host = .write 0x00 (.bits32 w) :: rest →
    (faultValid s = true → step s = .next (s.accepted w rest)) ∧
    (faultValid s = false → ∀ i, decode w = .command i → step s = exec i (s.accepted w rest)) ∧
    (faultValid s = false → ∀ why, decode w = .illegal why →
      step s = .next ((s.accepted w rest).faulted .illegalCommand 0))

/-- After a fault the block is stuck until reset (60_exceptions R214): a write of REQ_CW stores the word and executes
nothing; no access but reset changes a fault register or a response register; reset clears FAULT; and a run that ends
in a state with a fault recorded is a faulted run and no normal end (70_reset_and_hazards R248). -/
def Obligations.StuckUntilReset : Prop :=
  ∀ (s : State) (op : HostOp) (rest : List HostOp), faultValid s = true → s.host = op :: rest →
    (∀ r : State, r.runEnd = .next s → r.FaultedRun ∧ ¬r.NormalEnd) ∧
    (∀ w, op = .write 0x00 (.bits32 w) → step s = .next (s.accepted w rest)) ∧
    (op ≠ .reset → ∀ t, step s = .next t →
      t.fault = s.fault ∧ t.faultCw = s.faultCw ∧ t.faultInfo = s.faultInfo ∧ t.rspWord = s.rspWord ∧
        t.rspFval = s.rspFval ∧ t.rspLen = s.rspLen ∧ t.rspList = s.rspList) ∧
    (op = .reset → ∃ t, step s = .next t ∧ t.fault = 0 ∧ faultValid t = false)

/-- The reset state of every register (70_reset_and_hazards R241): in State.reset, at every power-up, and after a
reset of any state; and reset issues no command, so the command index stays (log entry 6). -/
def Obligations.ResetStateOfEveryRegister : Prop :=
  State.reset.RegistersReset ∧ (∀ (c : Params) (m : Memory), (State.powerUp c m).RegistersReset) ∧
    ∀ s : State, s.resetRegisters.RegistersReset ∧ s.resetRegisters.cmdIndex = s.cmdIndex

/-- Reset as an event between commands (70_reset_and_hazards R240, R242): it sets every register, does not touch BUF
or the configuration, and leaves the engine idle and ready: the next command word is executed. Power-up is a reset
that takes BUF's launch contents from the host. -/
def Obligations.ResetLeavesBufAndClearsTheFault : Prop :=
  (∀ (s : State) (rest : List HostOp), s.host = .reset :: rest →
    ∃ t, step s = .next t ∧ t.RegistersReset ∧ t.buf = s.buf ∧ t.cfg = s.cfg ∧ faultValid t = false ∧
      t.host = rest ∧
      ∀ (w : CommandWord) (rest' : List HostOp) (i : Instr), rest = .write 0x00 (.bits32 w) :: rest' →
        decode w = .command i → step t = exec i (t.accepted w rest')) ∧
  ∀ (c : Params) (m : Memory),
    (State.powerUp c m).RegistersReset ∧ (State.powerUp c m).buf = m ∧ faultValid (State.powerUp c m) = false

/-- The register map as the host sees it (10_state R21, R28): every register reads by its number, a reserved number
reads 0 (of 64 bits: log entry 9), the request registers take what is written (REQ_LIST at most MAX_LIST items),
and a write to a read-only or reserved number changes nothing. -/
def Obligations.RegisterMap : Prop :=
  ∀ s : State,
    hostRead 0x00 s = .bits32 s.reqCw ∧ hostRead 0x01 s = .bits64 s.reqOff ∧ hostRead 0x02 s = .bits64 s.reqWord ∧
    hostRead 0x03 s = .real s.reqFval ∧ hostRead 0x04 s = .bits64 s.reqMax ∧ hostRead 0x05 s = .items s.reqList ∧
    hostRead 0x10 s = .bits64 s.rspWord ∧ hostRead 0x11 s = .real s.rspFval ∧ hostRead 0x12 s = .bits64 s.rspLen ∧
    hostRead 0x13 s = .items s.rspList ∧ hostRead 0x20 s = .bits32 s.fault ∧ hostRead 0x21 s = .bits32 s.faultCw ∧
    hostRead 0x22 s = .bits64 s.faultInfo ∧
    (∀ n, (0x06 ≤ n ∧ n ≤ 0x0F) ∨ (0x14 ≤ n ∧ n ≤ 0x1F) ∨ 0x23 ≤ n → hostRead n s = .bits64 0) ∧
    (∀ x, hostWrite 0x01 (.bits64 x) s = .next { s with reqOff := x }) ∧
    (∀ x, hostWrite 0x02 (.bits64 x) s = .next { s with reqWord := x }) ∧
    (∀ x, hostWrite 0x03 (.real x) s = .next { s with reqFval := x }) ∧
    (∀ x, hostWrite 0x04 (.bits64 x) s = .next { s with reqMax := x }) ∧
    (∀ l, l.length ≤ s.cfg.maxList → hostWrite 0x05 (.items l) s = .next { s with reqList := l }) ∧
    (∀ n v, 0x06 ≤ n → hostWrite n v s = .next s)

/-- The host's accesses to BUF between commands (10_state R39, 60_exceptions R228): a write changes its byte and no
other, a read gives the byte and changes nothing in the block, and an offset at or above BUF_CAP names no byte (the
model stops there: log entry 11). -/
def Obligations.HostReachesBufBetweenCommands : Prop :=
  ∀ (s : State) (rest : List HostOp) (off : Nat),
    (∀ b, s.host = .bufWrite off b :: rest → off < s.cfg.bufCap →
      ∃ t, step s = .next t ∧ t = { s with host := rest, buf := t.buf } ∧ t.buf.read off = b ∧
        ∀ a, a ≠ off → t.buf.read a = s.buf.read a) ∧
    (s.host = .bufRead off :: rest → off < s.cfg.bufCap →
      step s = .next { s with host := rest, readData := some (.byte (s.buf.read off)) }) ∧
    (∀ b, s.host = .bufWrite off b :: rest → s.cfg.bufCap ≤ off → step s = .fault (.noSuchByte off)) ∧
    (s.host = .bufRead off :: rest → s.cfg.bufCap ≤ off → step s = .fault (.noSuchByte off))

/-- The end of a run (70_reset_and_hazards R248): it is the state when the last command's step has completed. The
accesses made by then end with a command, and no command is left; the step of the last command is the end, and before
it every step leads to the same end. The end is normal or faulted by its FAULT.FV. The observed result, the registers
and BUF, does not depend on what the host does after the last command: its accesses then, a reset among them, are no
part of the run (log entry 16; a sequence with no command ends at once, log entry 16 too). -/
def Obligations.RunEndsAtTheLastCommand : Prop :=
  ∀ s : State,
    (∀ t, s.runEnd = .next t →
      (∀ w, .write 0x00 (.bits32 w) ∉ t.host) ∧
      (∃ made, s.host = made ++ t.host ∧
        (made = [] ∨ ∃ before w, made = before ++ [.write 0x00 (.bits32 w)])) ∧
      (s.NormalEnd ↔ faultValid t = false) ∧ (s.FaultedRun ↔ faultValid t = true) ∧
      s.runResult = some t.observed) ∧
    (∀ w rest, s.host = .write 0x00 (.bits32 w) :: rest → (∀ v, .write 0x00 (.bits32 v) ∉ rest) →
      s.runEnd = step s) ∧
    (∀ op rest t, s.host = op :: rest → (∃ w, .write 0x00 (.bits32 w) ∈ rest) → step s = .next t →
      s.runEnd = t.runEnd) ∧
    ∀ sequence after : List HostOp, (∀ w, .write 0x00 (.bits32 w) ∉ after) →
      { s with host := sequence ++ after }.runResult = { s with host := sequence }.runResult

/-- The command index (10_state R30; a field of the model, log entry 6) goes up by one at each issued command, faulted
or not, and at no other access. -/
def Obligations.CommandIndexCountsIssuedCommands : Prop :=
  ∀ (s t : State) (op : HostOp) (rest : List HostOp), s.host = op :: rest → step s = .next t →
    ((∃ w, op = .write 0x00 (.bits32 w)) → t.cmdIndex = s.cmdIndex + 1) ∧
    ((∀ w, op ≠ .write 0x00 (.bits32 w)) → t.cmdIndex = s.cmdIndex)

/-! ### Invariants -/

/-- The invariant of Safety.lean holds after reset, with the configuration and the BUF contents of State.reset (log
entries 1 and 2). -/
def Obligations.ResetMeetsTheInvariant : Prop := State.reset.Inv

/-- Every step keeps the invariant (Safety.lean): the configuration is in range, BUF is canonical and has no byte at
or above BUF_CAP, FAULT holds a legal record with its reserved bits 0, the list registers hold at most MAX_LIST items,
RSP_FVAL is always `Fin q`, RSP_LIST holds items the block writes, and RSP_LEN is the sentinel or within BUF_CAP
(00_scope R7, R11; 10_state R25, R36, R37, R39; 44_length_prefixed_codec R190). -/
def Obligations.EveryStepKeepsTheInvariant : Prop :=
  ∀ s t : State, s.Inv → step s = .next t → t.Inv

/-- The configuration is fixed for the whole run and cannot change at run time (70_reset_and_hazards R244). -/
def Obligations.ConfigurationIsFixed : Prop :=
  ∀ s t : State, step s = .next t → t.cfg = s.cfg

/-- Every command ends, whatever the state (70_reset_and_hazards R249): no command stops the model. -/
def Obligations.EveryCommandEnds : Prop :=
  ∀ (i : Instr) (s : State), ∃ t, exec i s = .next t

/-! ### Faults -/

/-- Every fault is precise (60_exceptions R212): a command run with no fault recorded either leaves the fault
registers as they were, or leaves the record of one fault and changes nothing else at all. -/
def Obligations.FaultsArePrecise : Prop :=
  ∀ (i : Instr) (s t : State), faultValid s = false → exec i s = .next t →
    (t.fault = s.fault ∧ t.faultCw = s.faultCw ∧ t.faultInfo = s.faultInfo) ∨
      (faultValid t = true ∧ ∃ cause info, t = s.faulted cause info)

/-- A non-finite operand (41_ieee754_packer R115) of FPACK, ENC.F32, ENC.F64, or a float item of VENC or LPENC raises
NONFINITE_OPERAND and writes nothing: index 0 for FPACK and ENC, the lowest such item index for VENC and LPENC, when
no check that comes first (60_exceptions R217) fails. -/
def Obligations.NonfiniteOperandFaults : Prop :=
  ∀ (s : State) (ord : ByteOrder),
    ((s.reqFval = .posInf ∨ s.reqFval = .negInf ∨ s.reqFval = .nan) →
      (∀ bits expb, exec (.fpack bits expb) s = .next (s.faulted .nonfiniteOperand 0)) ∧
      exec (.encF32 ord) s = .next (s.faulted .nonfiniteOperand 0) ∧
      exec (.encF64 ord) s = .next (s.faulted .nonfiniteOperand 0)) ∧
    (∀ (i : Nat) (hi : i < s.reqList.length),
      (s.reqList[i].real = .posInf ∨ s.reqList[i].real = .negInf ∨ s.reqList[i].real = .nan) →
      ((∀ it ∈ s.reqList, it.kind.toNat ≤ 9) → 8 ≤ (s.reqList[i]).kind.toNat →
        (∀ j, ∀ hj : j < i, 8 ≤ (s.reqList[j]'(by omega)).kind.toNat →
          (s.reqList[j]'(by omega)).real = .negZero ∨ ∃ q, (s.reqList[j]'(by omega)).real = .fin q) →
        exec (.venc ord) s = .next (s.faulted .nonfiniteOperand i)) ∧
      (∀ (ek : Kind) (ck : CountKind), ek = .f32 ∨ ek = .f64 → s.reqList.length ≤ 2 ^ (8 * ck.size) - 1 →
        (∀ j, ∀ hj : j < i,
          (s.reqList[j]'(by omega)).real = .negZero ∨ ∃ q, (s.reqList[j]'(by omega)).real = .fin q) →
        exec (.lpenc ord ek ck) s = .next (s.faulted .nonfiniteOperand i)))

/-- An access past BUF_CAP raises CAPACITY with the end offset it needs, computed with no wrap-around, before any byte
of the command is written (20_memory R53). Every command that accesses BUF, when no check that comes first
(60_exceptions R217) fails. -/
def Obligations.CapacityFaults : Prop :=
  ∀ (s : State) (ord : ByteOrder),
    (∀ k : Kind, k.isFloat = false ∨ finiteValue s.reqFval ≠ none → s.cfg.bufCap < s.reqOff.toNat + k.size →
      exec (Instr.enc k ord) s = .next (s.faulted .capacity (s.reqOff.toNat + k.size))) ∧
    (∀ k : Kind, s.cfg.bufCap < s.reqOff.toNat + k.size →
      exec (Instr.dec k ord) s = .next (s.faulted .capacity (s.reqOff.toNat + k.size))) ∧
    (∀ l : List (Kind × Item), s.reqList = l.map Prod.snd → (∀ p ∈ l, p.2.kind = p.1.code) →
      s.cfg.bufCap < s.reqOff.toNat + totalSize (l.map Prod.fst) →
      exec (.vdec ord) s = .next (s.faulted .capacity (s.reqOff.toNat + totalSize (l.map Prod.fst))) ∧
      ((∀ p ∈ l, p.1.isFloat = true → finiteValue p.2.real ≠ none) →
        exec (.venc ord) s = .next (s.faulted .capacity (s.reqOff.toNat + totalSize (l.map Prod.fst))))) ∧
    (∀ (ek : Kind) (ck : CountKind), s.reqList.length ≤ 2 ^ (8 * ck.size) - 1 →
      (ek.isFloat = true → ∀ it ∈ s.reqList, finiteValue it.real ≠ none) →
      s.cfg.bufCap < s.reqOff.toNat + (ck.size + s.reqList.length * ek.size) →
      exec (.lpenc ord ek ck) s =
        .next (s.faulted .capacity (s.reqOff.toNat + (ck.size + s.reqList.length * ek.size)))) ∧
    (∀ (ek : Kind) (ck : CountKind),
      (s.cfg.bufCap < s.reqOff.toNat + ck.size →
        exec (.lpdec ord ek ck) s = .next (s.faulted .capacity (s.reqOff.toNat + ck.size))) ∧
      (s.reqOff.toNat + ck.size ≤ s.cfg.bufCap →
        ∀ c, c = valIn ord (s.buf.readBytes s.reqOff.toNat ck.size) → c ≤ s.reqMax.toNat → c ≤ s.cfg.maxList →
        s.cfg.bufCap < s.reqOff.toNat + (ck.size + c * ek.size) →
        exec (.lpdec ord ek ck) s = .next (s.faulted .capacity (s.reqOff.toNat + (ck.size + c * ek.size)))))

/-! ### The IEEE754 Packer -/

/-- Zero, `Fin 0` or `NegZero`, packs to the all-zero pattern (41_ieee754_packer R103), for every format and both
readings of PACK_QUANTIZE. -/
def Obligations.ZeroPacksToTheZeroPattern : Prop :=
  (∀ (z : Quantize) (bits expb : Nat) (q : Rat), finiteValue (.fin 0) = some q ∨ finiteValue .negZero = some q →
    pack z q bits expb = .ok 0) ∧
  ∀ (bits expb : BitVec 7) (s : State), (Instr.fpack bits expb).wf = true →
    s.reqFval = .fin 0 ∨ s.reqFval = .negZero → exec (.fpack bits expb) s = .next { s with rspWord := 0 }

/-- FPACK of a nonzero value in range (41_ieee754_packer R102, R104): for the e with `2^e <= |q| < 2^(e+1)` and the
biased exponent `E = e + bias` in `[0, 2^expbits - 2]`, RSP_WORD is the OR of sign, E and the quantized fraction at
their places, zero-extended, and nothing else changes. -/
def Obligations.FpackComposesSignExponentAndFraction : Prop :=
  ∀ (bits expb : BitVec 7) (s : State) (q : Rat) (e : Int) (biased : Nat),
    (Instr.fpack bits expb).wf = true → s.reqFval = .fin q → (2 : Rat) ^ e ≤ |q| → |q| < (2 : Rat) ^ (e + 1) →
    (biased : Int) = e + (2 ^ (expb.toNat - 1) - 1) → biased ≤ 2 ^ expb.toNat - 2 →
    exec (.fpack bits expb) s =
      .next { s with
        rspWord := BitVec.ofNat 64
          ((if q < 0 then 1 else 0) <<< (bits.toNat - 1) ||| biased <<< (bits.toNat - expb.toNat - 1) |||
            quantize s.cfg.quantize (|q| / (2 : Rat) ^ e - 1) (bits.toNat - expb.toNat - 1)) }

/-- FPACK of a nonzero value whose magnitude is below 2^(-bias) or at least 2^(2^(expbits-1)) (41_ieee754_packer R105,
60_exceptions R216): pack is UNDEF exactly there, and the command completes with a draw of `bits` bits in RSP_WORD,
the free value of log entry 5, and no fault. -/
def Obligations.FpackOutOfRangeWritesADraw : Prop :=
  ∀ (bits expb : BitVec 7) (s : State) (q : Rat), (Instr.fpack bits expb).wf = true → q ≠ 0 →
    (pack s.cfg.quantize q bits.toNat expb.toNat = .undef ↔
      |q| < (2 : Rat) ^ (-((2 : Int) ^ (expb.toNat - 1) - 1)) ∨
        (2 : Rat) ^ ((2 : Int) ^ (expb.toNat - 1)) ≤ |q|) ∧
    (s.reqFval = .fin q → pack s.cfg.quantize q bits.toNat expb.toNat = .undef →
      drawBits bits.toNat s.drawCount < 2 ^ bits.toNat ∧
      exec (.fpack bits expb) s =
        .next { s with
          rspWord := BitVec.ofNat 64 (drawBits bits.toNat s.drawCount)
          drawCount := s.drawCount + 1 })

/-- quantize (41_ieee754_packer R106): the greatest integer at most `f 2^sb + 1/2`, or at most `f (2^sb + 1/2)`, by
PACK_QUANTIZE; in `[0, 2^sb]`; with ADD_HALF_ULP within half of `f 2^sb`, an exact tie going up. -/
def Obligations.QuantizeIsTheSpecifiedRounding : Prop :=
  ∀ (f : Rat) (sb : Nat), 0 ≤ f → f < 1 →
    (∀ z, quantize z f sb ≤ 2 ^ sb) ∧
    ((quantize .addHalfUlp f sb : Rat) ≤ f * 2 ^ sb + 1 / 2 ∧
      f * 2 ^ sb + 1 / 2 < (quantize .addHalfUlp f sb : Rat) + 1) ∧
    ((quantize .scalePlusHalf f sb : Rat) ≤ f * (2 ^ sb + 1 / 2) ∧
      f * (2 ^ sb + 1 / 2) < (quantize .scalePlusHalf f sb : Rat) + 1) ∧
    ∀ m : Nat, f * 2 ^ sb = m + 1 / 2 → quantize .addHalfUlp f sb = m + 1

/-- A rounding carry is ORed, not added (41_ieee754_packer R107): with an even biased exponent E the pattern is the
one of exponent field E + 1 and significand 0, of magnitude 2^(e+1); with an odd E it is the one of E and significand
0, of magnitude 2^e; and E = 2^expbits - 2 is even and gives the all-ones exponent field. -/
def Obligations.RoundingCarryIsOred : Prop :=
  ∀ bits expb sign biased : Nat, 2 ≤ bits → bits ≤ 64 → 1 ≤ expb → expb ≤ bits - 1 → sign ≤ 1 →
    biased ≤ 2 ^ expb - 2 →
    (biased % 2 = 0 →
      compose bits expb sign biased (2 ^ sigBits bits expb) =
          sign * 2 ^ (bits - 1) + (biased + 1) * 2 ^ sigBits bits expb ∧
        |unpack (compose bits expb sign biased (2 ^ sigBits bits expb)) bits expb| =
          (2 : Rat) ^ ((biased : Int) - (2 ^ (expb - 1) - 1) + 1)) ∧
    (biased % 2 = 1 →
      compose bits expb sign biased (2 ^ sigBits bits expb) =
          sign * 2 ^ (bits - 1) + biased * 2 ^ sigBits bits expb ∧
        |unpack (compose bits expb sign biased (2 ^ sigBits bits expb)) bits expb| =
          (2 : Rat) ^ ((biased : Int) - (2 ^ (expb - 1) - 1))) ∧
    (biased = 2 ^ expb - 2 → biased % 2 = 0 ∧ biased + 1 = 2 ^ expb - 1)

/-- FUNPACK (41_ieee754_packer R108, R109): only the low `bits` bits of REQ_WORD count; with fields S, Ef and sig of a
nonzero word, RSP_FVAL is `(-1)^S (1 + sig / 2^sb) 2^(Ef - bias)`, and 0 for the all-zero word; nothing else
changes. -/
def Obligations.FunpackGivesTheValueOfTheFields : Prop :=
  ∀ (bits expb : BitVec 7) (s : State) (sign ef sig : Nat), (Instr.funpack bits expb).wf = true → sign ≤ 1 →
    ef < 2 ^ expb.toNat → sig < 2 ^ (bits.toNat - expb.toNat - 1) →
    s.reqWord.toNat % 2 ^ bits.toNat =
      sign * 2 ^ (bits.toNat - 1) + ef * 2 ^ (bits.toNat - expb.toNat - 1) + sig →
    (s.reqWord.toNat % 2 ^ bits.toNat ≠ 0 →
      exec (.funpack bits expb) s =
        .next { s with
          rspFval := .fin ((-1) ^ sign * (1 + (sig : Rat) / 2 ^ (bits.toNat - expb.toNat - 1)) *
            (2 : Rat) ^ ((ef : Int) - (2 ^ (expb.toNat - 1) - 1))) }) ∧
    (s.reqWord.toNat % 2 ^ bits.toNat = 0 → exec (.funpack bits expb) s = .next { s with rspFval := .fin 0 })

/-- unpack of the all-zero word is 0, the inverse of pack's special case; without it the formula would give
2^(-bias); no other word is special, and none other unpacks to 0 (41_ieee754_packer R110). -/
def Obligations.OnlyTheZeroWordUnpacksToZero : Prop :=
  ∀ bits expb : Nat, 2 ≤ bits → bits ≤ 64 → 1 ≤ expb → expb ≤ bits - 1 →
    unpack 0 bits expb = 0 ∧ (∀ z, pack z 0 bits expb = .ok 0) ∧
    unpackFormula 0 bits expb = (2 : Rat) ^ (-((2 : Int) ^ (expb - 1) - 1)) ∧
    ∀ w, w < 2 ^ bits → w ≠ 0 → unpack w bits expb = unpackFormula w bits expb ∧ unpack w bits expb ≠ 0

/-- The sign-only word unpacks to -2^(-bias), for binary32 to -2^(-127), and FUNPACK never yields negative zero: it
always writes `Fin q` (41_ieee754_packer R116). -/
def Obligations.SignOnlyWordIsNotZero : Prop :=
  (∀ bits expb : Nat, 2 ≤ bits → bits ≤ 64 → 1 ≤ expb → expb ≤ bits - 1 →
    unpack (1 <<< (bits - 1)) bits expb = -(2 : Rat) ^ (-((2 : Int) ^ (expb - 1) - 1))) ∧
  unpack 0x80000000 32 8 = -(2 : Rat) ^ (-127 : Int) ∧
  ∀ (bits expb : BitVec 7) (s t : State), exec (.funpack bits expb) s = .next t →
    t.rspFval ≠ .negZero ∧ ∃ q, t.rspFval = .fin q

/-- An all-ones exponent field unpacks by the normal formula to a finite value, `±(1 + sig/2^sb) 2^(2^(expbits-1))`;
for binary32, 0x7F800000 gives 2^128 and 0x7FC00000 gives 1.5 * 2^128; no result is an infinity or a NaN
(41_ieee754_packer R117). -/
def Obligations.AllOnesExponentIsFinite : Prop :=
  (∀ bits expb sign sig : Nat, 2 ≤ bits → bits ≤ 64 → 1 ≤ expb → expb ≤ bits - 1 → sign ≤ 1 →
    sig < 2 ^ sigBits bits expb →
    unpack (sign * 2 ^ (bits - 1) + (2 ^ expb - 1) * 2 ^ sigBits bits expb + sig) bits expb =
      (-1) ^ sign * (1 + (sig : Rat) / 2 ^ sigBits bits expb) * (2 : Rat) ^ ((2 : Int) ^ (expb - 1))) ∧
  unpack 0x7F800000 32 8 = (2 : Rat) ^ 128 ∧ unpack 0x7FC00000 32 8 = 3 / 2 * (2 : Rat) ^ 128 ∧
  (∀ (i : Instr) (s t : State), (∃ q, s.rspFval = .fin q) → exec i s = .next t → ∃ q, t.rspFval = .fin q) ∧
  ∀ (c : Params) (k : Kind) (ord : ByteOrder) (bs : List Byte), ∃ q, (decItem c k ord bs).real = .fin q

/-- pack(2^(-bias)) has e = -bias, E = 0 and significand 0, so it is the all-zero pattern, which unpacks to 0; for
binary32, 2^(-127) packs to 0; and -2^(-bias) packs to the sign-only pattern and round-trips
(41_ieee754_packer R113). -/
def Obligations.LeastMagnitudePacksToZero : Prop :=
  (∀ (z : Quantize) (bits expb : Nat) (q : Rat), 2 ≤ bits → bits ≤ 64 → 1 ≤ expb → expb ≤ bits - 1 →
    q = (2 : Rat) ^ (-((2 : Int) ^ (expb - 1) - 1)) →
    exponentOf q = -((2 : Int) ^ (expb - 1) - 1) ∧ quantize z (fractionOf q) (sigBits bits expb) = 0 ∧
    pack z q bits expb = .ok 0 ∧ unpack 0 bits expb = 0 ∧
    pack z (-q) bits expb = .ok (1 <<< (bits - 1)) ∧ unpack (1 <<< (bits - 1)) bits expb = -q) ∧
  ∀ z, pack z ((2 : Rat) ^ (-127 : Int)) 32 8 = .ok 0

/-- The packer's round trip (41_ieee754_packer R111): a value of at most sb + 1 significant bits whose biased exponent
lies in `[0, 2^expbits - 2]`, other than +2^(-bias), packs without rounding and unpacks to itself, under either
reading of PACK_QUANTIZE; zero does too. -/
def Obligations.PackThenUnpackIsExact : Prop :=
  ∀ (z : Quantize) (bits expb : Nat), 2 ≤ bits → bits ≤ 64 → 1 ≤ expb → expb ≤ bits - 1 →
    (pack z 0 bits expb = .ok 0 ∧ unpack 0 bits expb = 0) ∧
    ∀ (q : Rat) (m : Nat) (k e : Int), q = m * (2 : Rat) ^ k ∨ q = -(m * (2 : Rat) ^ k) → q ≠ 0 →
      m < 2 ^ (sigBits bits expb + 1) → (2 : Rat) ^ e ≤ |q| → |q| < (2 : Rat) ^ (e + 1) →
      0 ≤ e + (2 ^ (expb - 1) - 1) → e + (2 ^ (expb - 1) - 1) ≤ 2 ^ expb - 2 →
      q ≠ (2 : Rat) ^ (-((2 : Int) ^ (expb - 1) - 1)) →
      (quantize z (fractionOf q) (sigBits bits expb) : Rat) = fractionOf q * 2 ^ sigBits bits expb ∧
      ∃ p, pack z q bits expb = .ok p ∧ p < 2 ^ bits ∧ unpack p bits expb = q

/-! ### The Fixed-Width Codec -/

/-- ENC of every integer kind (42_fixed_width_codec R131, R133, R135 to R142; 20_memory R55): the bytes at REQ_OFF are
the low bytes of REQ_WORD in the order ORD, RSP_LEN is the width, and nothing else changes. ENC.U8, ENC.I8, ENC.U16,
ENC.I16, ENC.U32, ENC.I32, ENC.U64, ENC.I64. -/
def Obligations.EncIntegerStoresTheLowBytes : Prop :=
  ∀ (k : Kind) (ord : ByteOrder) (s : State), k.isFloat = false → s.reqOff.toNat + k.size ≤ s.cfg.bufCap →
    ∃ t, exec (Instr.enc k ord) s = .next t ∧
      t = { s with buf := t.buf, rspLen := BitVec.ofNat 64 k.size } ∧
      (∀ i, i < k.size → t.buf.read (s.reqOff.toNat + i) =
        BitVec.ofNat 8 (s.reqWord.toNat >>> byteShift ord k.size i)) ∧
      ∀ a, a < s.reqOff.toNat ∨ s.reqOff.toNat + k.size ≤ a → t.buf.read a = s.buf.read a

/-- ENC.F32 and ENC.F64 of a finite value (42_fixed_width_codec R131, R133, R143, R144; 20_memory R56): the bytes at
REQ_OFF are the packed pattern in HOST_ORDER, or those of a draw when pack is UNDEF (log entry 5), RSP_LEN is the
width, and nothing else changes. -/
def Obligations.EncFloatStoresThePattern : Prop :=
  ∀ (k : Kind) (bits expb : Nat) (ord : ByteOrder) (s : State) (q : Rat),
    (k = .f32 ∧ bits = 32 ∧ expb = 8) ∨ (k = .f64 ∧ bits = 64 ∧ expb = 11) →
    s.reqFval = .fin q ∨ (s.reqFval = .negZero ∧ q = 0) → s.reqOff.toNat + k.size ≤ s.cfg.bufCap →
    ∃ t p, exec (Instr.enc k ord) s = .next t ∧
      t = { s with buf := t.buf, rspLen := BitVec.ofNat 64 k.size, drawCount := t.drawCount } ∧
      ((pack s.cfg.quantize q bits expb = .ok p ∧ t.drawCount = s.drawCount) ∨
        (pack s.cfg.quantize q bits expb = .undef ∧ p = drawBits bits s.drawCount ∧
          t.drawCount = s.drawCount + 1)) ∧
      (∀ i, i < k.size → t.buf.read (s.reqOff.toNat + i) =
        BitVec.ofNat 8 (p >>> byteShift s.cfg.hostOrder k.size i)) ∧
      ∀ a, a < s.reqOff.toNat ∨ s.reqOff.toNat + k.size ≤ a → t.buf.read a = s.buf.read a

/-- DEC of every integer kind (42_fixed_width_codec R132, R134, R145 to R152, R155): with u the value of the bytes at
REQ_OFF in the order ORD, RSP_WORD is u, or for a signed kind u in two's complement, presented in 64 bits; RSP_LEN is
the width, and nothing else changes. DEC.U8, DEC.I8, DEC.U16, DEC.I16, DEC.U32, DEC.I32, DEC.U64, DEC.I64. -/
def Obligations.DecIntegerReadsTheValue : Prop :=
  ∀ (k : Kind) (ord : ByteOrder) (s : State) (u : Nat), k.isFloat = false →
    s.reqOff.toNat + k.size ≤ s.cfg.bufCap →
    u = ∑ i ∈ Finset.range k.size, (s.buf.read (s.reqOff.toNat + i)).toNat * 2 ^ byteShift ord k.size i →
    ∃ v : Word, exec (Instr.dec k ord) s = .next { s with rspWord := v, rspLen := BitVec.ofNat 64 k.size } ∧
      u < 2 ^ (8 * k.size) ∧
      (k.signed = false → v.toNat = u) ∧
      (k.signed = true → v.toInt = if 2 ^ (8 * k.size - 1) ≤ u then (u : Int) - 2 ^ (8 * k.size) else u)

/-- DEC.F32 and DEC.F64 (42_fixed_width_codec R132, R134, R153, R154; 20_memory R56): RSP_FVAL is the exact rational
that the bytes at REQ_OFF, read in HOST_ORDER, unpack to; RSP_LEN is the width, and nothing else changes. -/
def Obligations.DecFloatReadsTheRational : Prop :=
  ∀ (k : Kind) (bits expb : Nat) (ord : ByteOrder) (s : State),
    (k = .f32 ∧ bits = 32 ∧ expb = 8) ∨ (k = .f64 ∧ bits = 64 ∧ expb = 11) →
    s.reqOff.toNat + k.size ≤ s.cfg.bufCap →
    exec (Instr.dec k ord) s =
      .next { s with
        rspFval := .fin (unpack (∑ i ∈ Finset.range k.size,
          (s.buf.read (s.reqOff.toNat + i)).toNat * 2 ^ byteShift s.cfg.hostOrder k.size i) bits expb)
        rspLen := BitVec.ofNat 64 k.size }

/-- On the float path ORD has no effect (42_fixed_width_codec R158): ENC.F32, ENC.F64, DEC.F32 and DEC.F64 behave
identically with ORD = 0 and ORD = 1, and both use HOST_ORDER. That the two encodes make the SAME draw where pack is
UNDEF is the model's numbering of draws (log entry 5, DESIGN CHOICE) and no rule of the spec. -/
def Obligations.FloatPathIgnoresOrd : Prop :=
  ∀ s : State,
    exec (.encF32 .little) s = exec (.encF32 .big) s ∧ exec (.encF64 .little) s = exec (.encF64 .big) s ∧
    exec (.decF32 .little) s = exec (.decF32 .big) s ∧ exec (.decF64 .little) s = exec (.decF64 .big) s ∧
    ∀ (c : Params) (k : Kind) (ord : ByteOrder) (bits expb : Nat) (bs : List Byte),
      k.format = some (bits, expb) →
      (decItem c k ord bs).real = .fin (unpack (valIn c.hostOrder bs) bits expb) ∧
      ∀ (it : Item) (q : Rat) (idx d p : Nat), it.real = .fin q → pack c.quantize q bits expb = .ok p →
        encBytes c k ord it idx d = .ok ⟨bytesIn c.hostOrder p k.size, d⟩

/-- Integer round trip (42_fixed_width_codec R156): for every integer kind, order, offset in range and value in the
kind's range, ENC then DEC at the same REQ_OFF and ORD, with the bytes as ENC left them, gives the value back in
RSP_WORD. -/
def Obligations.IntegerRoundTrip : Prop :=
  ∀ (k : Kind) (ord : ByteOrder) (s : State), k.isFloat = false → s.reqOff.toNat + k.size ≤ s.cfg.bufCap →
    (k.signed = false → s.reqWord.toNat < 2 ^ (8 * k.size)) →
    (k.signed = true → -2 ^ (8 * k.size - 1) ≤ s.reqWord.toInt ∧ s.reqWord.toInt < 2 ^ (8 * k.size - 1)) →
    ∃ t, exec (Instr.enc k ord) s = .next t ∧
      ∀ u : State, u.cfg = t.cfg → u.reqOff = t.reqOff →
        (∀ i, i < k.size → u.buf.read (s.reqOff.toNat + i) = t.buf.read (s.reqOff.toNat + i)) →
        ∃ v, exec (Instr.dec k ord) u = .next v ∧ v.rspWord = s.reqWord

/-- Decoding bytes and encoding the result back gives the same bytes, for every integer kind, both orders and every
list of size(k) bytes (42_fixed_width_codec R157). -/
def Obligations.DecodedBytesEncodeBack : Prop :=
  ∀ (c : Params) (k : Kind) (ord : ByteOrder) (bs : List Byte) (d : Nat), k.isFloat = false →
    bs.length = k.size → encBytes c k ord (decItem c k ord bs) 0 d = .ok ⟨bs, d⟩

/-- A mixed-width view (20_memory R58): the four bytes of a little-endian ENC.U32 of v, read back by a DEC.U8 at
`REQ_OFF + i`, give `(v >> 8i) & 0xFF`; read back by a big-endian DEC.U32 they give the byte-reversed value. -/
def Obligations.MixedWidthView : Prop :=
  ∀ (s t : State) (ord : ByteOrder) (v : Nat), s.cfg.WF → s.reqOff.toNat + 4 ≤ s.cfg.bufCap →
    v = s.reqWord.toNat % 2 ^ 32 → exec (.encU32 .little) s = .next t →
    (∀ i, i < 4 → ∃ u, exec (.decU8 ord) { t with reqOff := s.reqOff + BitVec.ofNat 64 i } = .next u ∧
      u.rspWord.toNat = v / 2 ^ (8 * i) % 2 ^ 8) ∧
    ∃ u, exec (.decU32 .big) t = .next u ∧
      u.rspWord.toNat = v % 2 ^ 8 * 2 ^ 24 + v / 2 ^ 8 % 2 ^ 8 * 2 ^ 16 + v / 2 ^ 16 % 2 ^ 8 * 2 ^ 8 +
        v / 2 ^ 24 % 2 ^ 8

/-! ### The Variadic Codec -/

/-- VENC (43_variadic_codec R161, R162): the items' bytes lie one after another from REQ_OFF with no padding, each
integer item's in the order ORD, each float item's pattern in HOST_ORDER or a draw (log entry 5); RSP_LEN is the sum of
the widths, and nothing else changes. -/
def Obligations.VencStoresTheRecord : Prop :=
  ∀ (ord : ByteOrder) (s : State) (l : List (Kind × Item)), s.reqList = l.map Prod.snd →
    (∀ p ∈ l, p.2.kind = p.1.code) → (∀ p ∈ l, p.1.isFloat = true → finiteValue p.2.real ≠ none) →
    s.reqOff.toNat + totalSize (l.map Prod.fst) ≤ s.cfg.bufCap →
    ∃ t, exec (.venc ord) s = .next t ∧
      t = { s with
        buf := t.buf
        rspLen := BitVec.ofNat 64 (totalSize (l.map Prod.fst))
        drawCount := t.drawCount } ∧
      (∀ a, a < s.reqOff.toNat ∨ s.reqOff.toNat + totalSize (l.map Prod.fst) ≤ a →
        t.buf.read a = s.buf.read a) ∧
      ∀ (i : Nat) (hi : i < l.length) (off : Nat),
        off = s.reqOff.toNat + totalSize ((l.map Prod.fst).take i) →
        (l[i].1.isFloat = false →
          t.buf.readBytes off l[i].1.size = bytesIn ord l[i].2.word.toNat l[i].1.size) ∧
        ∀ bits expb q, l[i].1.format = some (bits, expb) → finiteValue l[i].2.real = some q →
          (∀ p, pack s.cfg.quantize q bits expb = .ok p →
            t.buf.readBytes off l[i].1.size = bytesIn s.cfg.hostOrder p l[i].1.size) ∧
          (pack s.cfg.quantize q bits expb = .undef →
            ∃ n, t.buf.readBytes off l[i].1.size = bytesIn s.cfg.hostOrder (drawBits bits n) l[i].1.size)

/-- VDEC (43_variadic_codec R161, R165): item i of RSP_LIST is what `dec_item` gives for the bytes at its place, with
the kinds of REQ_LIST; RSP_LEN is the sum of the widths, and nothing else changes. -/
def Obligations.VdecReadsTheRecord : Prop :=
  ∀ (ord : ByteOrder) (s : State) (l : List (Kind × Item)), s.reqList = l.map Prod.snd →
    (∀ p ∈ l, p.2.kind = p.1.code) → s.reqOff.toNat + totalSize (l.map Prod.fst) ≤ s.cfg.bufCap →
    ∃ r : List Item,
      exec (.vdec ord) s =
        .next { s with rspList := r, rspLen := BitVec.ofNat 64 (totalSize (l.map Prod.fst)) } ∧
      ∃ h : r.length = l.length, ∀ (i : Nat) (hi : i < l.length),
        r[i] = decItem s.cfg l[i].1 ord
          (s.buf.readBytes (s.reqOff.toNat + totalSize ((l.map Prod.fst).take i)) l[i].1.size)

/-- An item with a reserved kind, EK 10 to 15, makes VENC and VDEC raise ILLEGAL_COMMAND with info i + 1 for the
lowest such index i (43_variadic_codec R164). -/
def Obligations.ReservedItemKindFaults : Prop :=
  ∀ (ord : ByteOrder) (s : State) (i : Nat) (hi : i < s.reqList.length), 10 ≤ (s.reqList[i]).kind.toNat →
    (∀ j, ∀ hj : j < i, (s.reqList[j]'(by omega)).kind.toNat ≤ 9) →
    exec (.venc ord) s = .next (s.faulted .illegalCommand (i + 1)) ∧
      exec (.vdec ord) s = .next (s.faulted .illegalCommand (i + 1))

/-- A zero-length list is legal for VENC and VDEC (43_variadic_codec R167): no BUF byte changes, RSP_LEN = 0, and VDEC
gives RSP_LIST = []; it faults with `Fault(CAPACITY, REQ_OFF)` exactly when `REQ_OFF > BUF_CAP`. -/
def Obligations.EmptyListIsLegal : Prop :=
  ∀ (ord : ByteOrder) (s : State), s.reqList = [] →
    (s.reqOff.toNat ≤ s.cfg.bufCap →
      exec (.venc ord) s = .next { s with rspLen := 0 } ∧
      exec (.vdec ord) s = .next { s with rspList := [], rspLen := 0 }) ∧
    (s.cfg.bufCap < s.reqOff.toNat →
      exec (.venc ord) s = .next (s.faulted .capacity s.reqOff.toNat) ∧
      exec (.vdec ord) s = .next (s.faulted .capacity s.reqOff.toNat))

/-- The composition law, encoding (43_variadic_codec R166): VENC that does not fault leaves BUF, and makes the draws,
as the ENC commands of its items do one after another at their offsets. That the two make the SAME draws, in number
and in value, is the model's numbering of draws (log entry 5, DESIGN CHOICE) and no rule of the spec; so the count of
draws, and BUF at the items whose pack is UNDEF, rest on that entry. -/
def Obligations.VencIsAChainOfEnc : Prop :=
  ∀ (ord : ByteOrder) (s t : State) (l : List (Kind × Item)), s.cfg.WF → s.reqList = l.map Prod.snd →
    (∀ p ∈ l, p.2.kind = p.1.code) → faultValid s = false → exec (.venc ord) s = .next t →
    faultValid t = false → ∃ u, encChain ord l s = some u ∧ u.buf = t.buf ∧ u.drawCount = t.drawCount

/-- The composition law, decoding (43_variadic_codec R166): VDEC that does not fault gives in RSP_LIST the items that
the DEC commands at the items' offsets give in RSP_WORD or RSP_FVAL. -/
def Obligations.VdecItemsAreThoseOfDec : Prop :=
  ∀ (ord : ByteOrder) (s t : State) (l : List (Kind × Item)), s.cfg.WF → s.reqList = l.map Prod.snd →
    (∀ p ∈ l, p.2.kind = p.1.code) → faultValid s = false → exec (.vdec ord) s = .next t →
    faultValid t = false →
    ∃ h : t.rspList.length = l.length, ∀ (i : Nat) (hi : i < l.length),
      ∃ u, exec (Instr.dec l[i].1 ord)
          { s with reqOff := s.reqOff + BitVec.ofNat 64 (totalSize ((l.map Prod.fst).take i)) } = .next u ∧
        t.rspList[i].kind = l[i].1.code ∧
        (l[i].1.isFloat = false → u.rspWord = t.rspList[i].word) ∧
        (l[i].1.isFloat = true → u.rspFval = t.rspList[i].real)

/-- VDEC after VENC with the same kinds, offset and order (43_variadic_codec R166): every integer item comes back as
its value modulo 2^(8n), widened, and every float item as the value its pattern unpacks to. -/
def Obligations.VdecAfterVencGivesTheItemsBack : Prop :=
  ∀ (ord : ByteOrder) (s t u v : State) (l m : List (Kind × Item)), s.reqList = l.map Prod.snd →
    (∀ p ∈ l, p.2.kind = p.1.code) → faultValid s = false → exec (.venc ord) s = .next t →
    faultValid t = false → u.cfg = t.cfg → u.reqOff = t.reqOff → u.buf = t.buf →
    u.reqList = m.map Prod.snd → (∀ p ∈ m, p.2.kind = p.1.code) → m.map Prod.fst = l.map Prod.fst →
    exec (.vdec ord) u = .next v →
    v.rspLen = t.rspLen ∧ ∃ h : v.rspList.length = l.length, ∀ (i : Nat) (hi : i < l.length),
      v.rspList[i].kind = l[i].1.code ∧
      (l[i].1.isFloat = false →
        v.rspList[i].word = BitVec.ofInt 64 (presented l[i].1 l[i].2.word.toNat) ∧ v.rspList[i].real = .fin 0) ∧
      ∀ bits expb q p, l[i].1.format = some (bits, expb) → finiteValue l[i].2.real = some q →
        pack s.cfg.quantize q bits expb = .ok p →
        v.rspList[i].real = .fin (unpack p bits expb) ∧ v.rspList[i].word = 0

/-! ### The Length-Prefixed Codec -/

/-- LPENC (44_length_prefixed_codec R181 to R183): the count in U bytes in the order ORD at REQ_OFF, then the elements
with no padding, encoded with EK whatever their own kinds, a float one's pattern in HOST_ORDER or a draw (log entry
5); RSP_LEN is U + n S, and nothing else changes. -/
def Obligations.LpencStoresTheFrame : Prop :=
  ∀ (ord : ByteOrder) (ek : Kind) (ck : CountKind) (s : State) (n : Nat), n = s.reqList.length →
    n ≤ 2 ^ (8 * ck.size) - 1 → (ek.isFloat = true → ∀ it ∈ s.reqList, finiteValue it.real ≠ none) →
    s.reqOff.toNat + (ck.size + n * ek.size) ≤ s.cfg.bufCap →
    ∃ t, exec (.lpenc ord ek ck) s = .next t ∧
      t = { s with
        buf := t.buf
        rspLen := BitVec.ofNat 64 (ck.size + n * ek.size)
        drawCount := t.drawCount } ∧
      (∀ a, a < s.reqOff.toNat ∨ s.reqOff.toNat + (ck.size + n * ek.size) ≤ a →
        t.buf.read a = s.buf.read a) ∧
      t.buf.readBytes s.reqOff.toNat ck.size = bytesIn ord n ck.size ∧
      ∀ (i : Nat) (hi : i < s.reqList.length) (off : Nat), off = s.reqOff.toNat + ck.size + i * ek.size →
        (ek.isFloat = false →
          t.buf.readBytes off ek.size = bytesIn ord s.reqList[i].word.toNat ek.size) ∧
        ∀ bits expb q, ek.format = some (bits, expb) → finiteValue s.reqList[i].real = some q →
          (∀ p, pack s.cfg.quantize q bits expb = .ok p →
            t.buf.readBytes off ek.size = bytesIn s.cfg.hostOrder p ek.size) ∧
          (pack s.cfg.quantize q bits expb = .undef →
            ∃ d, t.buf.readBytes off ek.size = bytesIn s.cfg.hostOrder (drawBits bits d) ek.size)

/-- LPDEC of a frame whose count passes the guard and fits (44_length_prefixed_codec R187): RSP_LIST holds the c
elements read at `REQ_OFF + U + i S`, RSP_LEN is U + c S, and nothing else changes. -/
def Obligations.LpdecReadsTheFrame : Prop :=
  ∀ (ord : ByteOrder) (ek : Kind) (ck : CountKind) (s : State) (c : Nat),
    s.reqOff.toNat + ck.size ≤ s.cfg.bufCap →
    c = ∑ i ∈ Finset.range ck.size, (s.buf.read (s.reqOff.toNat + i)).toNat * 2 ^ byteShift ord ck.size i →
    c ≤ s.reqMax.toNat → c ≤ s.cfg.maxList → s.reqOff.toNat + (ck.size + c * ek.size) ≤ s.cfg.bufCap →
    ∃ r : List Item,
      exec (.lpdec ord ek ck) s =
        .next { s with rspList := r, rspLen := BitVec.ofNat 64 (ck.size + c * ek.size) } ∧
      ∃ h : r.length = c, ∀ (i : Nat) (hi : i < c),
        r[i] = decItem s.cfg ek ord (s.buf.readBytes (s.reqOff.toNat + ck.size + i * ek.size) ek.size)

/-- The guard (44_length_prefixed_codec R188, 60_exceptions R215): the decoded count c and REQ_MAX are compared as
unsigned integers. When c > REQ_MAX the command gives RSP_LEN = -1 and RSP_LIST = [], reads no element byte (only the
count field's bytes are assumed to exist) and does not fault; when c <= REQ_MAX decoding continues, to one of its
faults or to a list of c items. -/
def Obligations.GuardGivesTheSentinel : Prop :=
  ∀ (ord : ByteOrder) (ek : Kind) (ck : CountKind) (s : State) (c : Nat),
    s.reqOff.toNat + ck.size ≤ s.cfg.bufCap →
    c = ∑ i ∈ Finset.range ck.size, (s.buf.read (s.reqOff.toNat + i)).toNat * 2 ^ byteShift ord ck.size i →
    (s.reqMax.toNat < c →
      exec (.lpdec ord ek ck) s = .next { s with rspLen := 0xFFFFFFFFFFFFFFFF, rspList := [] }) ∧
    (c ≤ s.reqMax.toNat → ∃ t, exec (.lpdec ord ek ck) s = .next t ∧
      (t = s.faulted .listRange c ∨ t = s.faulted .capacity (s.reqOff.toNat + (ck.size + c * ek.size)) ∨
        (t.rspList.length = c ∧ t.rspLen = BitVec.ofNat 64 (ck.size + c * ek.size))))

/-- A list longer than the count field can express raises COUNT_RANGE with its length and writes nothing; with
CK = U64 that cannot occur, because a list register holds at most MAX_LIST items (44_length_prefixed_codec R184). -/
def Obligations.CountRangeFaults : Prop :=
  ∀ (ord : ByteOrder) (ek : Kind) (s : State),
    (∀ ck : CountKind, 2 ^ (8 * ck.size) - 1 < s.reqList.length →
      exec (.lpenc ord ek ck) s = .next (s.faulted .countRange s.reqList.length)) ∧
    (s.cfg.WF → s.reqList.length ≤ s.cfg.maxList → ∀ t, exec (.lpenc ord ek .u64) s = .next t →
      t.fault = s.fault ∨ t.fault ≠ faultWord .countRange)

/-- A count that passes the guard but exceeds MAX_LIST raises LIST_RANGE with the count; when MAX_LIST is at least
2^(8U) - 1, or REQ_MAX is at most MAX_LIST, LPDEC never raises it (44_length_prefixed_codec R189). -/
def Obligations.ListRangeFaults : Prop :=
  ∀ (ord : ByteOrder) (ek : Kind) (ck : CountKind) (s : State) (c : Nat),
    s.reqOff.toNat + ck.size ≤ s.cfg.bufCap →
    c = ∑ i ∈ Finset.range ck.size, (s.buf.read (s.reqOff.toNat + i)).toNat * 2 ^ byteShift ord ck.size i →
    (c ≤ s.reqMax.toNat → s.cfg.maxList < c →
      exec (.lpdec ord ek ck) s = .next (s.faulted .listRange c)) ∧
    (2 ^ (8 * ck.size) - 1 ≤ s.cfg.maxList ∨ s.reqMax.toNat ≤ s.cfg.maxList →
      ∀ t, exec (.lpdec ord ek ck) s = .next t → t.fault = s.fault ∨ t.fault ≠ faultWord .listRange)

/-- The sentinel is RSP_LEN = 0xFFFFFFFFFFFFFFFF, which is -1, and no successful command that writes RSP_LEN gives a
negative one (44_length_prefixed_codec R190): only an LPDEC that fails its guard does. -/
def Obligations.OnlyTheGuardGivesANegativeLength : Prop :=
  (0xFFFFFFFFFFFFFFFF : Word).toInt = -1 ∧
  ∀ (i : Instr) (s t : State), s.cfg.WF → faultValid s = false → exec i s = .next t → faultValid t = false →
    (∀ bits expb, i ≠ .fpack bits expb ∧ i ≠ .funpack bits expb) →
    (∃ ord ek ck, i = .lpdec ord ek ck ∧
      s.reqMax.toNat < valIn ord (s.buf.readBytes s.reqOff.toNat ck.size) ∧ t.rspLen = 0xFFFFFFFFFFFFFFFF) ∨
    0 ≤ t.rspLen.toInt

/-- An empty LPENC writes exactly U bytes of zero count and gives RSP_LEN = U; the capacity check is
`REQ_OFF + U > BUF_CAP` (44_length_prefixed_codec R185). -/
def Obligations.EmptyFrameIsAZeroCount : Prop :=
  ∀ (ord : ByteOrder) (ek : Kind) (ck : CountKind) (s : State), s.reqList = [] →
    (s.reqOff.toNat + ck.size ≤ s.cfg.bufCap → ∃ t, exec (.lpenc ord ek ck) s = .next t ∧
      t = { s with buf := t.buf, rspLen := BitVec.ofNat 64 ck.size } ∧
      (∀ i, i < ck.size → t.buf.read (s.reqOff.toNat + i) = 0) ∧
      ∀ a, a < s.reqOff.toNat ∨ s.reqOff.toNat + ck.size ≤ a → t.buf.read a = s.buf.read a) ∧
    (s.cfg.bufCap < s.reqOff.toNat + ck.size →
      exec (.lpenc ord ek ck) s = .next (s.faulted .capacity (s.reqOff.toNat + ck.size)))

/-- The frame round trip (44_length_prefixed_codec R192): LPENC of a list, then LPDEC with the same fields and offset
and REQ_MAX at least the length, the frame's bytes as LPENC left them and no fault: RSP_LEN = U + n S, and RSP_LIST
holds n items, each integer one the `word` modulo 2^(8S) widened, each float one the packed-and-unpacked value; with
REQ_MAX below the length, the sentinel. -/
def Obligations.FrameRoundTrip : Prop :=
  ∀ (ord : ByteOrder) (ek : Kind) (ck : CountKind) (s t u v : State) (n : Nat), n = s.reqList.length →
    faultValid s = false → exec (.lpenc ord ek ck) s = .next t → faultValid t = false →
    u.cfg = t.cfg → u.reqOff = t.reqOff → faultValid u = false →
    (∀ i, i < ck.size + n * ek.size →
      u.buf.read (s.reqOff.toNat + i) = t.buf.read (s.reqOff.toNat + i)) →
    exec (.lpdec ord ek ck) u = .next v → faultValid v = false →
    (n ≤ u.reqMax.toNat →
      v.rspLen = BitVec.ofNat 64 (ck.size + n * ek.size) ∧
      ∃ h : v.rspList.length = s.reqList.length, ∀ (i : Nat) (hi : i < s.reqList.length),
        v.rspList[i].kind = ek.code ∧
        (ek.isFloat = false →
          v.rspList[i].word = BitVec.ofInt 64 (presented ek s.reqList[i].word.toNat)) ∧
        ∀ bits expb q p, ek.format = some (bits, expb) → finiteValue s.reqList[i].real = some q →
          pack s.cfg.quantize q bits expb = .ok p →
          v.rspList[i].real = .fin (unpack p bits expb)) ∧
    (u.reqMax.toNat < n → v.rspLen = 0xFFFFFFFFFFFFFFFF ∧ v.rspList = [])

/-- Strings (44_length_prefixed_codec R191, R194; 30_encoding R86): the pseudo-instruction senc stands for LPENC of
the bytes with EK = U8 and sdec for LPDEC with EK = U8; encoding a string that fits and decoding it with a bound of at
least its length gives the string back with RSP_LEN = size(CK) + length, and with a smaller bound the empty string. -/
def Obligations.StringRoundTrip : Prop :=
  ∀ (ord : ByteOrder) (ck : CountKind) (off max : Option Word) (str : List Byte) (s t u : State),
    (Line.senc ck ord off (some str)).expand =
      (.lpenc ord .u8 ck, { off := off, list := some (stringItems str) }) ∧
    (Line.sdec ck ord off max).expand = (.lpdec ord .u8 ck, { off := off, max := max }) ∧
    (s.cfg.WF → s.reqList = stringItems str → str.length ≤ 2 ^ (8 * ck.size) - 1 →
      str.length ≤ s.cfg.maxList → s.reqOff.toNat + (ck.size + str.length) ≤ s.cfg.bufCap →
      exec (.lpenc ord .u8 ck) s = .next t → u.cfg = t.cfg → u.reqOff = t.reqOff → u.buf = t.buf →
      ∃ v, exec (.lpdec ord .u8 ck) u = .next v ∧
        (str.length ≤ u.reqMax.toNat →
          decodedString v = str ∧ v.rspLen = BitVec.ofNat 64 (ck.size + str.length)) ∧
        (u.reqMax.toNat < str.length → decodedString v = []))

/-! ### Frames and what a command reads -/

/-- What FPACK and FUNPACK leave unchanged (41_ieee754_packer R102, R108; 10_state R28): everything but RSP_WORD (and
the count of draws, log entry 5) for FPACK, everything but RSP_FVAL for FUNPACK; and the fault registers when FPACK
faults. All of BUF is unchanged. -/
def Obligations.PackerFrame : Prop :=
  ∀ (bits expb : BitVec 7) (s t : State),
    (exec (.fpack bits expb) s = .next t →
      t = { s with
        rspWord := t.rspWord, drawCount := t.drawCount
        fault := t.fault, faultCw := t.faultCw, faultInfo := t.faultInfo }) ∧
    (exec (.funpack bits expb) s = .next t → t = { s with rspFval := t.rspFval })

/-- What the storing commands leave unchanged (42_fixed_width_codec R133, 43_variadic_codec R162,
44_length_prefixed_codec R183): everything but BUF, RSP_LEN (and the count of draws), and the fault registers when
the command faults; and every byte of BUF outside the bytes stored at REQ_OFF: size(k) of them for `ENC.<k>` (all ten
kinds), the sum of the item kinds' widths for VENC, U + n S for LPENC. -/
def Obligations.StoringFrame : Prop :=
  ∀ (i : Instr) (s t : State) (n : Nat),
    ((∃ k ord, i = Instr.enc k ord ∧ n = k.size) ∨
      (∃ ord, i = .venc ord ∧ n = totalSize (s.reqList.filterMap fun it => Kind.ofCode it.kind)) ∨
      ∃ ord ek ck, i = .lpenc ord ek ck ∧ n = ck.size + s.reqList.length * ek.size) →
    exec i s = .next t →
    t = { s with
      buf := t.buf, rspLen := t.rspLen, drawCount := t.drawCount
      fault := t.fault, faultCw := t.faultCw, faultInfo := t.faultInfo } ∧
    ∀ a, a < s.reqOff.toNat ∨ s.reqOff.toNat + n ≤ a → t.buf.read a = s.buf.read a

/-- What the decoding commands leave unchanged (42_fixed_width_codec R134, 43_variadic_codec R165,
44_length_prefixed_codec R187): everything but RSP_LEN and RSP_WORD for the integer kinds of DEC, RSP_LEN and RSP_FVAL
for DEC.F32 and DEC.F64, RSP_LEN and RSP_LIST for VDEC and LPDEC, and the fault registers when the command faults. All
of BUF is unchanged. -/
def Obligations.DecodingFrame : Prop :=
  ∀ (s t : State) (ord : ByteOrder),
    (∀ k : Kind, k.isFloat = false → exec (Instr.dec k ord) s = .next t →
      t = { s with
        rspWord := t.rspWord, rspLen := t.rspLen
        fault := t.fault, faultCw := t.faultCw, faultInfo := t.faultInfo }) ∧
    (∀ k : Kind, k.isFloat = true → exec (Instr.dec k ord) s = .next t →
      t = { s with
        rspFval := t.rspFval, rspLen := t.rspLen
        fault := t.fault, faultCw := t.faultCw, faultInfo := t.faultInfo }) ∧
    (∀ i : Instr, (i = .vdec ord ∨ ∃ ek ck, i = .lpdec ord ek ck) → exec i s = .next t →
      t = { s with
        rspList := t.rspList, rspLen := t.rspLen
        fault := t.fault, faultCw := t.faultCw, faultInfo := t.faultInfo })

/-- Each command reads only the request registers 70_reset_and_hazards R245 lists for it: with the others set to any
values, it does the same. VDEC reads only the kinds of REQ_LIST. Where pack is UNDEF, the two are compared on one and
the same draw (log entry 5). -/
def Obligations.CommandsReadOnlyTheirOperands : Prop :=
  ∀ (s : State) (off word : Word) (fval : FVal) (max : Word) (list : List Item) (i : Instr),
    ((∃ bits expb, i = .fpack bits expb) ∧ fval = s.reqFval ∨
      (∃ bits expb, i = .funpack bits expb) ∧ word = s.reqWord ∨
      (∃ k ord, k.isFloat = false ∧ i = Instr.enc k ord) ∧ off = s.reqOff ∧ word = s.reqWord ∨
      (∃ k ord, k.isFloat = true ∧ i = Instr.enc k ord) ∧ off = s.reqOff ∧ fval = s.reqFval ∨
      (∃ k ord, i = Instr.dec k ord) ∧ off = s.reqOff ∨
      (∃ ord, i = .venc ord) ∧ off = s.reqOff ∧ list = s.reqList ∨
      (∃ ord, i = .vdec ord) ∧ off = s.reqOff ∧ list.map Item.kind = s.reqList.map Item.kind ∨
      (∃ ord ek ck, i = .lpenc ord ek ck) ∧ off = s.reqOff ∧ list = s.reqList ∨
      (∃ ord ek ck, i = .lpdec ord ek ck) ∧ off = s.reqOff ∧ max = s.reqMax) →
    exec i (s.withRequests off word fval max list) =
      mapNext (State.withRequests off word fval max list) (exec i s)
end

