-- ==== Sys2Proof/Laws/Bytes.lean ====
section
/-! SUPPORT. The laws of byte lists and of widening: a value and its bytes in either order determine each other. -/

namespace Sys2Proof.Machine

@[simp] theorem length_bytesLe (v n : Nat) : (bytesLe v n).length = n := by simp [bytesLe]

@[simp] theorem length_bytesBe (v n : Nat) : (bytesBe v n).length = n := by simp [bytesBe]

@[simp] theorem length_bytesIn (o : ByteOrder) (v n : Nat) : (bytesIn o v n).length = n := by
  cases o <;> simp [bytesIn]

/-- Byte i of `bytes_le(v, n)` (00_scope R10). -/
theorem getElem_bytesLe (v n i : Nat) (h : i < (bytesLe v n).length) :
    (bytesLe v n)[i] = BitVec.ofNat 8 (v >>> (8 * i)) := by
  simp [bytesLe]

/-- Byte i of `bytes_be(v, n)` (00_scope R10). -/
theorem getElem_bytesBe (v n i : Nat) (h : i < (bytesBe v n).length) :
    (bytesBe v n)[i] = BitVec.ofNat 8 (v >>> (8 * (n - 1 - i))) := by
  simp [bytesBe]

/-- The big-endian bytes are the little-endian bytes in reverse. -/
theorem bytesBe_eq_reverse (v n : Nat) : bytesBe v n = (bytesLe v n).reverse := by
  apply List.ext_getElem (by simp)
  intro i hi hi'
  simp [getElem_bytesBe, getElem_bytesLe]

theorem bytesLe_zero (v : Nat) : bytesLe v 0 = [] := rfl

theorem bytesLe_succ (v n : Nat) :
    bytesLe v (n + 1) = BitVec.ofNat 8 v :: bytesLe (v / 2 ^ 8) n := by
  apply List.ext_getElem (by simp)
  intro i hi hi'
  cases i with
  | zero => simp [getElem_bytesLe]
  | succ i =>
    simp only [getElem_bytesLe, List.getElem_cons_succ]
    congr 1
    rw [Nat.shiftRight_eq_div_pow, Nat.shiftRight_eq_div_pow, Nat.div_div_eq_div_mul, ← pow_add]
    congr 2
    omega

theorem valLe_append (as bs : List Byte) : valLe (as ++ bs) = valLe as + 2 ^ (8 * as.length) * valLe bs := by
  induction as with
  | nil => simp [valLe]
  | cons a as ih =>
    rw [List.cons_append, valLe, valLe, ih, List.length_cons, show 8 * (as.length + 1) = 8 + 8 * as.length by omega,
      pow_add]
    ring

/-- A big-endian value is the little-endian value of the bytes in reverse. -/
theorem valBe_eq_reverse (bs : List Byte) : valBe bs = valLe bs.reverse := by
  induction bs with
  | nil => rfl
  | cons b bs ih =>
    rw [valBe, List.reverse_cons, valLe_append, ih]
    simp [valLe]
    ring

theorem valLe_lt (bs : List Byte) : valLe bs < 2 ^ (8 * bs.length) := by
  induction bs with
  | nil => simp [valLe]
  | cons b bs ih =>
    rw [valLe, List.length_cons, show 8 * (bs.length + 1) = 8 + 8 * bs.length by omega, pow_add]
    have hb := b.isLt
    have hp : 0 < 2 ^ (8 * bs.length) := Nat.two_pow_pos _
    nlinarith

/-- A value read from n bytes fits 8n bits. -/
theorem valIn_lt (o : ByteOrder) (bs : List Byte) : valIn o bs < 2 ^ (8 * bs.length) := by
  cases o with
  | little => exact valLe_lt bs
  | big =>
    have h := valLe_lt bs.reverse
    rw [List.length_reverse] at h
    rw [valIn, valBe_eq_reverse]
    exact h

theorem valLe_bytesLe (v n : Nat) : valLe (bytesLe v n) = v % 2 ^ (8 * n) := by
  induction n generalizing v with
  | zero => simp [bytesLe_zero, valLe, Nat.mod_one]
  | succ n ih =>
    rw [bytesLe_succ, valLe, ih, BitVec.toNat_ofNat, show 8 * (n + 1) = 8 + 8 * n by omega, pow_add,
      Nat.mod_mul]

/-- The bytes of a value read back as the value modulo 2^(8n), in either order. -/
theorem valIn_bytesIn (o : ByteOrder) (v n : Nat) : valIn o (bytesIn o v n) = v % 2 ^ (8 * n) := by
  cases o with
  | little => exact valLe_bytesLe v n
  | big => rw [valIn, bytesIn, valBe_eq_reverse, bytesBe_eq_reverse, List.reverse_reverse, valLe_bytesLe]

theorem bytesLe_valLe (bs : List Byte) : bytesLe (valLe bs) bs.length = bs := by
  induction bs with
  | nil => rfl
  | cons b bs ih =>
    have hb := b.isLt
    rw [List.length_cons, bytesLe_succ, valLe]
    congr 1
    · apply BitVec.eq_of_toNat_eq
      rw [BitVec.toNat_ofNat, Nat.add_mul_mod_self_left, Nat.mod_eq_of_lt hb]
    · rw [Nat.add_mul_div_left _ _ (by norm_num), Nat.div_eq_of_lt hb, Nat.zero_add, ih]

/-- The value of bytes has those bytes, in either order. -/
theorem bytesIn_valIn (o : ByteOrder) (bs : List Byte) : bytesIn o (valIn o bs) bs.length = bs := by
  cases o with
  | little => exact bytesLe_valLe bs
  | big =>
    have h := bytesLe_valLe bs.reverse
    rw [List.length_reverse] at h
    rw [valIn, bytesIn, valBe_eq_reverse, bytesBe_eq_reverse, h, List.reverse_reverse]

/-- Bytes depend on the value modulo 2^(8n) only. -/
theorem bytesIn_mod (o : ByteOrder) (v n : Nat) : bytesIn o (v % 2 ^ (8 * n)) n = bytesIn o v n := by
  have h := bytesIn_valIn o (bytesIn o v n)
  rwa [valIn_bytesIn, length_bytesIn] at h

/-! ### Widening -/

theorem toNat_zext {u : Nat} (h : u < 2 ^ 64) : (zext u).toNat = u := by
  simp only [zext, BitVec.toNat_ofNat]
  exact Nat.mod_eq_of_lt h

/-- `sext_N(u)` as a number: `u`, or `u + 2^64 - 2^N` when bit N - 1 is set (42_fixed_width_codec R155). -/
theorem toNat_sext {n u : Nat} (hn : n ≤ 64) (h : u < 2 ^ n) :
    (sext n u).toNat = if 2 ^ (n - 1) ≤ u then u + 2 ^ 64 - 2 ^ n else u := by
  have hp : 2 ^ n ≤ 2 ^ 64 := Nat.pow_le_pow_right (by norm_num) hn
  unfold sext
  split
  · rw [BitVec.toNat_ofInt]
    have hi : ((2 : Int) ^ n) = ((2 ^ n : Nat) : Int) := by push_cast; rfl
    have e : (((u : Int) - 2 ^ n) % ((2 ^ 64 : Nat) : Int)) = (u : Int) - 2 ^ n + ((2 ^ 64 : Nat) : Int) := by
      rw [← Int.add_emod_right]
      apply Int.emod_eq_of_lt <;> rw [hi] <;> omega
    rw [e, hi]
    omega
  · rw [BitVec.toNat_ofNat]
    exact Nat.mod_eq_of_lt (by omega)

/-- The low N bits of a sign extension are the value extended. -/
theorem toNat_sext_mod {n u : Nat} (hn : n ≤ 64) (h : u < 2 ^ n) : (sext n u).toNat % 2 ^ n = u := by
  rw [toNat_sext hn h]
  split
  · have hd : 2 ^ 64 = 2 ^ n * 2 ^ (64 - n) := by rw [← pow_add]; congr 1; omega
    have hq : 1 ≤ 2 ^ (64 - n) := Nat.one_le_two_pow
    have hm : 2 ^ n * 2 ^ (64 - n) - 2 ^ n = 2 ^ n * (2 ^ (64 - n) - 1) := by
      rw [Nat.mul_sub, Nat.mul_one]
    have hle : 2 ^ n ≤ 2 ^ n * 2 ^ (64 - n) := Nat.le_mul_of_pos_right _ (by omega)
    rw [hd, Nat.add_sub_assoc hle, hm, Nat.add_mul_mod_self_left, Nat.mod_eq_of_lt h]
  · exact Nat.mod_eq_of_lt h

end Sys2Proof.Machine
end

