-- ==== Sys2Proof/Laws/Ieee754.lean ====
section
/-! SUPPORT. The laws of the packer's arithmetic: powers of two, the exponent and the fraction of a nonzero rational,
and the range of quantize. -/

namespace Sys2Proof.Machine

/-- `pow2` is the power of two. -/
theorem pow2_eq_zpow (e : Int) : pow2 e = (2 : Rat) ^ e := by
  cases e with
  | ofNat k => simp [pow2]
  | negSucc k => simp [pow2, Rat.mkRat_eq_div, zpow_negSucc]

theorem pow2_pos (e : Int) : 0 < pow2 e := by
  rw [pow2_eq_zpow]
  positivity

theorem pow2_add (a b : Int) : pow2 (a + b) = pow2 a * pow2 b := by
  simp only [pow2_eq_zpow]
  exact zpow_add₀ (by norm_num) a b

@[simp] theorem pow2_zero : pow2 0 = 1 := by simp [pow2_eq_zpow]

theorem pow2_natCast (n : Nat) : pow2 (n : Int) = ((2 ^ n : Nat) : Rat) := by simp [pow2_eq_zpow]

theorem pow2_neg_mul (e : Int) : pow2 (-e) * pow2 e = 1 := by
  rw [← pow2_add]
  simp

theorem pow2_lt {a b : Int} (h : a < b) : pow2 a < pow2 b := by
  simp only [pow2_eq_zpow]
  exact zpow_lt_zpow_right₀ (by norm_num) h

theorem pow2_le {a b : Int} (h : a ≤ b) : pow2 a ≤ pow2 b := by
  simp only [pow2_eq_zpow]
  exact zpow_le_zpow_right₀ (by norm_num) h

/-- `magnitude` is the absolute value. -/
theorem magnitude_eq_abs (q : Rat) : magnitude q = |q| := by
  unfold magnitude
  split
  · rw [abs_of_neg ‹_›]
  · rw [abs_of_nonneg (not_lt.1 ‹_›)]

theorem magnitude_pos {q : Rat} (h : q ≠ 0) : 0 < magnitude q := by
  rw [magnitude_eq_abs]
  exact abs_pos.2 h

theorem magnitude_eq_div (q : Rat) : magnitude q = (q.num.natAbs : Rat) / (q.den : Rat) := by
  rw [magnitude_eq_abs, ← Rat.num_div_den |q|, Rat.num_abs_eq_abs_num, Rat.den_abs_eq_den]
  rw [Nat.cast_natAbs]

/-- The unbiased exponent is `floor(log2 |q|)`: after normalising, `1 <= m < 2` (41_ieee754_packer R104). -/
theorem exponentOf_bounds {q : Rat} (h : q ≠ 0) :
    pow2 (exponentOf q) ≤ magnitude q ∧ magnitude q < pow2 (exponentOf q + 1) := by
  have hn : q.num.natAbs ≠ 0 := by simpa using h
  have hd : q.den ≠ 0 := q.den_nz
  have n1 := Nat.log2_self_le hn
  have n2 := Nat.lt_log2_self (n := q.num.natAbs)
  have d1 := Nat.log2_self_le hd
  have d2 := Nat.lt_log2_self (n := q.den)
  set a := Nat.log2 q.num.natAbs with ha
  set b := Nat.log2 q.den with hb
  have hm := magnitude_eq_div q
  have hd0 : (0 : Rat) < q.den := by exact_mod_cast Nat.pos_of_ne_zero hd
  have upper : magnitude q < pow2 ((a : Int) - b + 1) := by
    rw [hm, div_lt_iff₀ hd0]
    have e : pow2 ((a : Int) - b + 1) * pow2 (b : Int) = pow2 ((a + 1 : Nat) : Int) := by
      rw [← pow2_add]; congr 1; push_cast; ring
    have h1 : (q.num.natAbs : Rat) < pow2 ((a + 1 : Nat) : Int) := by
      rw [pow2_natCast]; exact_mod_cast n2
    have h2 : pow2 (b : Int) ≤ (q.den : Rat) := by
      rw [pow2_natCast]; exact_mod_cast d1
    calc (q.num.natAbs : Rat) < pow2 ((a : Int) - b + 1) * pow2 (b : Int) := by rw [e]; exact h1
      _ ≤ _ := mul_le_mul_of_nonneg_left h2 (pow2_pos _).le
  have lower : pow2 ((a : Int) - b - 1) ≤ magnitude q := by
    rw [hm, le_div_iff₀ hd0]
    have e : pow2 ((a : Int) - b - 1) * pow2 ((b + 1 : Nat) : Int) = pow2 (a : Int) := by
      rw [← pow2_add]; congr 1; push_cast; ring
    have h1 : pow2 (a : Int) ≤ (q.num.natAbs : Rat) := by
      rw [pow2_natCast]; exact_mod_cast n1
    have h2 : (q.den : Rat) ≤ pow2 ((b + 1 : Nat) : Int) := by
      rw [pow2_natCast]; exact_mod_cast d2.le
    calc _ ≤ pow2 ((a : Int) - b - 1) * pow2 ((b + 1 : Nat) : Int) :=
          mul_le_mul_of_nonneg_left h2 (pow2_pos _).le
      _ ≤ _ := by rw [e]; exact h1
  simp only [exponentOf]
  split
  · exact ⟨‹_›, upper⟩
  · refine ⟨lower, ?_⟩
    rw [show ((a : Int) - b - 1 + 1) = (a : Int) - b by ring]
    exact not_le.1 ‹_›

/-- The exponent is the only one with `2^e <= |q| < 2^(e+1)`. -/
theorem exponentOf_unique {q : Rat} {e : Int} (h1 : pow2 e ≤ magnitude q) (h2 : magnitude q < pow2 (e + 1)) :
    exponentOf q = e := by
  have h : q ≠ 0 := by
    rintro rfl
    have := pow2_pos e
    simp [magnitude] at h1
    linarith
  obtain ⟨g1, g2⟩ := exponentOf_bounds h
  by_contra hne
  rcases lt_or_gt_of_ne hne with hl | hl
  · have := pow2_le (show exponentOf q + 1 ≤ e by omega)
    linarith
  · have := pow2_le (show e + 1 ≤ exponentOf q by omega)
    linarith

/-- The fraction of a nonzero rational: `0 <= f < 1` (41_ieee754_packer R104 step 4). -/
theorem fractionOf_bounds {q : Rat} (h : q ≠ 0) : 0 ≤ fractionOf q ∧ fractionOf q < 1 := by
  obtain ⟨h1, h2⟩ := exponentOf_bounds h
  have hp := pow2_pos (-exponentOf q)
  have hi := pow2_neg_mul (exponentOf q)
  rw [pow2_add, show pow2 1 = 2 by simp [pow2_eq_zpow]] at h2
  unfold fractionOf
  constructor <;> nlinarith

/-- A rational is its sign, fraction and exponent. -/
theorem magnitude_eq_fraction (q : Rat) : magnitude q = (fractionOf q + 1) * pow2 (exponentOf q) := by
  unfold fractionOf
  rw [sub_add_cancel, mul_assoc, pow2_neg_mul, mul_one]

/-- `quantize(f, sb)` lies in `[0, 2^sb]` for `f < 1` (41_ieee754_packer R106). -/
theorem quantize_le (z : Quantize) {f : Rat} (sb : Nat) (h1 : f < 1) : quantize z f sb ≤ 2 ^ sb := by
  have hp : (1 : Rat) ≤ (2 : Rat) ^ sb := one_le_pow₀ (by norm_num)
  have key : ∀ x : Rat, x < (2 : Rat) ^ sb + 1 → x.floor.toNat ≤ 2 ^ sb := by
    intro x hx
    have : x.floor < (2 : Int) ^ sb + 1 := by
      rw [Rat.floor_lt_iff]
      push_cast
      exact hx
    rw [Int.toNat_le]
    push_cast
    exact Int.lt_add_one_iff.1 this
  cases z <;> simp only [quantize, pow2_natCast] <;> apply key <;> push_cast <;> nlinarith

/-- The significand width of a format is below its total width. -/
theorem sigBits_lt {bits expb : Nat} (h : 2 ≤ bits) : sigBits bits expb < bits := by
  unfold sigBits
  omega

/-- The OR of a sign, a biased exponent below the all-ones field and a quantized fraction, the rounding carry
included, fits the format (41_ieee754_packer R107). -/
theorem compose_lt {bits expb sign biased sig : Nat} (h2 : 2 ≤ bits) (he : 1 ≤ expb) (hb : expb ≤ bits - 1)
    (hs : sign ≤ 1) (hE : biased ≤ 2 ^ expb - 2) (hsig : sig ≤ 2 ^ sigBits bits expb) :
    compose bits expb sign biased sig < 2 ^ bits := by
  have h1 : bits - 1 = expb + sigBits bits expb := by unfold sigBits; omega
  have hp : 2 ≤ 2 ^ expb := by
    calc 2 = 2 ^ 1 := by norm_num
      _ ≤ 2 ^ expb := Nat.pow_le_pow_right (by norm_num) he
  have hx : 2 ^ (bits - 1) = 2 ^ expb * 2 ^ sigBits bits expb := by rw [h1, pow_add]
  have hy : 2 * 2 ^ (bits - 1) = 2 ^ bits := by rw [← pow_succ']; congr 1; omega
  have hpos := Nat.two_pow_pos (sigBits bits expb)
  unfold compose
  rw [Nat.shiftLeft_eq, Nat.shiftLeft_eq]
  refine Nat.or_lt_two_pow (Nat.or_lt_two_pow ?_ ?_) ?_
  · calc sign * 2 ^ (bits - 1) ≤ 1 * 2 ^ (bits - 1) := Nat.mul_le_mul_right _ hs
      _ < 2 ^ bits := by have := Nat.two_pow_pos (bits - 1); omega
  · calc biased * 2 ^ sigBits bits expb ≤ 2 ^ expb * 2 ^ sigBits bits expb := Nat.mul_le_mul_right _ (by omega)
      _ < 2 ^ bits := by rw [← hx]; have := Nat.two_pow_pos (bits - 1); omega
  · calc sig ≤ 1 * 2 ^ sigBits bits expb := by omega
      _ ≤ 2 ^ expb * 2 ^ sigBits bits expb := Nat.mul_le_mul_right _ (by omega)
      _ < 2 ^ bits := by rw [← hx]; have := Nat.two_pow_pos (bits - 1); omega

/-- A packed pattern fits its format (41_ieee754_packer R104). -/
theorem pack_lt {z : Quantize} {q : Rat} {bits expb p : Nat} (h2 : 2 ≤ bits) (he : 1 ≤ expb) (hb : expb ≤ bits - 1)
    (h : pack z q bits expb = .ok p) : p < 2 ^ bits := by
  unfold pack at h
  split at h
  · cases h
    exact Nat.two_pow_pos _
  · rename_i hq
    dsimp only at h
    split at h
    · cases h
    · rename_i hr
      cases h
      have hp : 2 ≤ 2 ^ expb := by
        calc 2 = 2 ^ 1 := by norm_num
          _ ≤ 2 ^ expb := Nat.pow_le_pow_right (by norm_num) he
      refine compose_lt h2 he hb (by split <;> omega) ?_ (quantize_le _ _ (fractionOf_bounds hq).2)
      have hc : ((2 : Int) ^ expb) = ((2 ^ expb : Nat) : Int) := by push_cast; rfl
      omega

/-! ### The fields of a pattern -/

theorem shiftLeft_one (n : Nat) : 1 <<< n = 2 ^ n := by rw [Nat.shiftLeft_eq, Nat.one_mul]

/-- The bias as an integer (41_ieee754_packer R100). -/
theorem bias_cast (expb : Nat) : ((bias expb : Nat) : Int) = 2 ^ (expb - 1) - 1 := by
  unfold bias
  have := Nat.two_pow_pos (expb - 1)
  push_cast [Nat.cast_sub this]
  rfl

theorem low_fields_lt {bits expb ef sig : Nat} (h2 : 2 ≤ bits) (hb : expb ≤ bits - 1) (hef : ef < 2 ^ expb)
    (hsig : sig < 2 ^ sigBits bits expb) : ef * 2 ^ sigBits bits expb + sig < 2 ^ (bits - 1) := by
  have h1 : bits - 1 = expb + sigBits bits expb := by unfold sigBits; omega
  have hx : 2 ^ (bits - 1) = 2 ^ expb * 2 ^ sigBits bits expb := by rw [h1, pow_add]
  have : (ef + 1) * 2 ^ sigBits bits expb ≤ 2 ^ expb * 2 ^ sigBits bits expb := Nat.mul_le_mul_right _ hef
  rw [Nat.add_mul] at this
  omega

/-- The fields of a pattern read back from it (41_ieee754_packer R100). -/
theorem fields_of_pattern {bits expb sign ef sig w : Nat} (h2 : 2 ≤ bits) (hb : expb ≤ bits - 1) (hs : sign ≤ 1)
    (hef : ef < 2 ^ expb) (hsig : sig < 2 ^ sigBits bits expb)
    (hw : w = sign * 2 ^ (bits - 1) + ef * 2 ^ sigBits bits expb + sig) :
    w % 2 ^ sigBits bits expb = sig ∧ (w >>> sigBits bits expb) % 2 ^ expb = ef ∧
      w.testBit (bits - 1) = decide (sign = 1) ∧ w < 2 ^ bits := by
  have h1 : bits - 1 = expb + sigBits bits expb := by unfold sigBits; omega
  have hx : 2 ^ (bits - 1) = 2 ^ expb * 2 ^ sigBits bits expb := by rw [h1, pow_add]
  have hy : 2 * 2 ^ (bits - 1) = 2 ^ bits := by rw [← pow_succ']; congr 1; omega
  have hw' : w = (sign * 2 ^ expb + ef) * 2 ^ sigBits bits expb + sig := by rw [hw, hx]; ring
  have hd : w / 2 ^ sigBits bits expb = sign * 2 ^ expb + ef := by
    rw [hw', Nat.mul_comm, Nat.mul_add_div (Nat.two_pow_pos _), Nat.div_eq_of_lt hsig, Nat.add_zero]
  have hlow := low_fields_lt h2 hb hef hsig
  refine ⟨?_, ?_, ?_, ?_⟩
  · rw [hw', Nat.mul_comm, Nat.mul_add_mod, Nat.mod_eq_of_lt hsig]
  · rw [Nat.shiftRight_eq_div_pow, hd, Nat.mul_comm, Nat.mul_add_mod, Nat.mod_eq_of_lt hef]
  · rw [Nat.testBit_eq_decide_div_mod_eq]
    congr 1
    rw [hw, Nat.add_assoc, Nat.mul_comm, Nat.mul_add_div (Nat.two_pow_pos _), Nat.div_eq_of_lt hlow, Nat.add_zero,
      Nat.mod_eq_of_lt (by omega)]
  · rw [hw]
    have : sign * 2 ^ (bits - 1) ≤ 1 * 2 ^ (bits - 1) := Nat.mul_le_mul_right _ hs
    omega

/-- Every pattern has its three fields (41_ieee754_packer R100). -/
theorem exists_fields {bits expb w : Nat} (h2 : 2 ≤ bits) (hb : expb ≤ bits - 1) (hw : w < 2 ^ bits) :
    ∃ sign ef sig, sign ≤ 1 ∧ ef < 2 ^ expb ∧ sig < 2 ^ sigBits bits expb ∧
      w = sign * 2 ^ (bits - 1) + ef * 2 ^ sigBits bits expb + sig := by
  have h1 : bits - 1 = expb + sigBits bits expb := by unfold sigBits; omega
  have hx : 2 ^ (bits - 1) = 2 ^ sigBits bits expb * 2 ^ expb := by rw [h1, pow_add, mul_comm]
  have hy : 2 * 2 ^ (bits - 1) = 2 ^ bits := by rw [← pow_succ']; congr 1; omega
  refine ⟨w / 2 ^ (bits - 1), w / 2 ^ sigBits bits expb % 2 ^ expb, w % 2 ^ sigBits bits expb, ?_,
    Nat.mod_lt _ (Nat.two_pow_pos _), Nat.mod_lt _ (Nat.two_pow_pos _), ?_⟩
  · have : w / 2 ^ (bits - 1) < 2 := by
      rw [Nat.div_lt_iff_lt_mul (Nat.two_pow_pos _)]
      omega
    omega
  · rw [hx]
    have e1 := Nat.div_add_mod w (2 ^ sigBits bits expb)
    have e2 := Nat.div_add_mod (w / 2 ^ sigBits bits expb) (2 ^ expb)
    rw [Nat.div_div_eq_div_mul] at e2
    generalize w / (2 ^ sigBits bits expb * 2 ^ expb) = A at *
    generalize w / 2 ^ sigBits bits expb % 2 ^ expb = B at *
    generalize w / 2 ^ sigBits bits expb = C at *
    conv_lhs => rw [← e1, ← e2]
    ring

/-- The formula of 41_ieee754_packer R109 on the fields of a pattern. -/
theorem unpackFormula_fields {bits expb sign ef sig w : Nat} (h2 : 2 ≤ bits) (hb : expb ≤ bits - 1) (hs : sign ≤ 1)
    (hef : ef < 2 ^ expb) (hsig : sig < 2 ^ sigBits bits expb)
    (hw : w = sign * 2 ^ (bits - 1) + ef * 2 ^ sigBits bits expb + sig) :
    unpackFormula w bits expb =
      (-1) ^ sign * (1 + (sig : Rat) / 2 ^ sigBits bits expb) * (2 : Rat) ^ ((ef : Int) - (2 ^ (expb - 1) - 1)) := by
  obtain ⟨a, b, c, -⟩ := fields_of_pattern h2 hb hs hef hsig hw
  unfold unpackFormula
  dsimp only
  rw [a, b, c, bias_cast, pow2_eq_zpow, pow2_eq_zpow, zpow_neg, zpow_natCast]
  rw [show ((sig : Rat) * (2 ^ sigBits bits expb)⁻¹ + 1) = 1 + (sig : Rat) / 2 ^ sigBits bits expb by
    rw [div_eq_mul_inv, add_comm]]
  interval_cases sign
  · simp
  · rw [pow_one]
    simp only [decide_true, if_true]
    ring

/-- With no rounding carry the OR of pack's step 6 is a sum (41_ieee754_packer R104). -/
theorem compose_eq_sum {bits expb sign biased sig : Nat} (h2 : 2 ≤ bits) (hb : expb ≤ bits - 1)
    (hE : biased < 2 ^ expb) (hsig : sig < 2 ^ sigBits bits expb) :
    compose bits expb sign biased sig = sign * 2 ^ (bits - 1) + biased * 2 ^ sigBits bits expb + sig := by
  have hlow := low_fields_lt h2 hb hE hsig
  unfold compose
  rw [Nat.or_assoc, ← Nat.shiftLeft_add_eq_or_of_lt hsig,
    ← Nat.shiftLeft_add_eq_or_of_lt (by rw [Nat.shiftLeft_eq]; exact hlow)]
  rw [Nat.shiftLeft_eq, Nat.shiftLeft_eq, Nat.add_assoc]

/-- A rounding carry sets the low bit of the exponent field (41_ieee754_packer R107). -/
theorem compose_carry (bits expb sign biased : Nat) :
    compose bits expb sign biased (2 ^ sigBits bits expb) = compose bits expb sign (biased ||| 1) 0 := by
  unfold compose
  rw [Nat.or_assoc, Nat.or_assoc]
  congr 1
  rw [Nat.or_zero, Nat.shiftLeft_or_distrib]
  congr 1
  rw [Nat.shiftLeft_eq, Nat.one_mul]

theorem or_one_of_even {n : Nat} (h : n % 2 = 0) : n ||| 1 = n + 1 := by
  have e : n = (n / 2) <<< 1 := by rw [Nat.shiftLeft_eq]; omega
  conv_lhs => rw [e]
  rw [← Nat.shiftLeft_add_eq_or_of_lt (by norm_num), ← e]

theorem or_one_of_odd {n : Nat} (h : n % 2 = 1) : n ||| 1 = n := by
  have h0 : (n - 1) % 2 = 0 := by omega
  have e := or_one_of_even h0
  have : n = (n - 1) ||| 1 := by rw [e]; omega
  conv_lhs => rw [this]
  rw [Nat.or_assoc, Nat.or_self, ← this]

/-- The exponent and the fraction of a rational from the bounds of its absolute value. -/
theorem exponentOf_of_bounds {q : Rat} {e : Int} (h1 : (2 : Rat) ^ e ≤ |q|) (h2 : |q| < (2 : Rat) ^ (e + 1)) :
    exponentOf q = e ∧ q ≠ 0 ∧ fractionOf q = |q| / (2 : Rat) ^ e - 1 := by
  have he : exponentOf q = e := exponentOf_unique (by rw [pow2_eq_zpow, magnitude_eq_abs]; exact h1)
    (by rw [pow2_eq_zpow, magnitude_eq_abs]; exact h2)
  refine ⟨he, ?_, ?_⟩
  · rintro rfl
    have : (0 : Rat) < 2 ^ e := by positivity
    simp at h1
    linarith
  · unfold fractionOf
    rw [he, magnitude_eq_abs, pow2_eq_zpow, zpow_neg]
    rfl

theorem quantize_zero (z : Quantize) (sb : Nat) : quantize z 0 sb = 0 := by
  have : ((1 : Rat) / 2).floor = 0 := by decide +kernel
  cases z <;> simp only [quantize, zero_mul, zero_add]
  · rw [this]
    rfl
  · rw [show (0 : Rat).floor = 0 by decide +kernel]
    rfl

/-- A rational's floor as a natural number, for a nonnegative rational. -/
theorem floor_toNat_bounds {x : Rat} (hx : 0 ≤ x) :
    (x.floor.toNat : Rat) ≤ x ∧ x < (x.floor.toNat : Rat) + 1 := by
  have h0 : 0 ≤ x.floor := by
    rw [Rat.le_floor_iff]
    simpa using hx
  have : ((x.floor.toNat : Nat) : Rat) = (x.floor : Rat) := by
    rw [← Int.cast_natCast, Int.toNat_of_nonneg h0]
  rw [this]
  refine ⟨Rat.floor_le x, ?_⟩
  have := Rat.lt_floor_add_one x
  push_cast at this
  exact this

end Sys2Proof.Machine
end

