-- ==== Sys2Proof/Laws/Memory.lean ====
section
/-! SUPPORT. The laws of BUF: a read after a write, the bytes a wide write leaves alone, and that every memory
operation keeps the canonical form. -/

namespace Sys2Proof.Machine

@[simp] theorem read_nil (a : Nat) : Memory.read [] a = Memory.blank := rfl

theorem read_cons (c : Host.Cell) (m : Memory) (a : Nat) :
    Memory.read (c :: m) a = if c.1 = a then c.2 else Memory.read m a := rfl

theorem read_eq_blank_of_not_listed {m : Memory} {a : Nat} (h : ∀ c ∈ m, c.1 ≠ a) :
    m.read a = Memory.blank := by
  induction m with
  | nil => rfl
  | cons c m ih =>
    rw [read_cons, if_neg (h c (by simp)), ih fun d hd => h d (by simp [hd])]

theorem read_filter_other {m : Memory} {a x : Nat} (h : x ≠ a) :
    Memory.read (m.filter fun c => decide (c.1 ≠ a)) x = m.read x := by
  induction m with
  | nil => rfl
  | cons c m ih =>
    by_cases hc : c.1 = a
    · have hx : c.1 ≠ x := fun e => h (e.symm.trans hc)
      simp only [List.filter_cons, ne_eq, hc, not_true_eq_false, decide_false, Bool.false_eq_true, if_false]
      rw [read_cons, if_neg hx]
      simpa using ih
    · simp only [List.filter_cons, ne_eq, hc, not_false_eq_true, decide_true, if_true]
      rw [read_cons, read_cons]
      simp only [ne_eq] at ih
      rw [ih]

theorem read_place_other {m : Memory} {a x : Nat} {b : Byte} (h : x ≠ a) :
    (Memory.place a b m).read x = m.read x := by
  induction m with
  | nil => simp [Memory.place, read_cons, h.symm]
  | cons c m ih =>
    unfold Memory.place
    split
    · rw [read_cons, if_neg h.symm]
    · rw [read_cons, read_cons, ih]

theorem read_place_same {m : Memory} {a : Nat} {b : Byte} (h : ∀ c ∈ m, c.1 ≠ a) :
    (Memory.place a b m).read a = b := by
  induction m with
  | nil => simp [Memory.place, read_cons]
  | cons c m ih =>
    unfold Memory.place
    split
    · simp [read_cons]
    · rw [read_cons, if_neg (h c (by simp)), ih fun d hd => h d (by simp [hd])]

/-- A read after a write to the same offset gives the byte written. -/
@[simp] theorem read_write_same (m : Memory) (a : Nat) (b : Byte) : (m.write a b).read a = b := by
  unfold Memory.write
  split
  · rename_i hb
    rw [hb]
    exact read_eq_blank_of_not_listed (by simp)
  · exact read_place_same (by simp)

/-- A write leaves every other offset alone. -/
theorem read_write_other (m : Memory) {a x : Nat} (b : Byte) (h : x ≠ a) :
    (m.write a b).read x = m.read x := by
  unfold Memory.write
  split
  · exact read_filter_other h
  · exact (read_place_other h).trans (read_filter_other h)

/-! ### Wide accesses -/

@[simp] theorem length_readBytes (m : Memory) (off n : Nat) : (m.readBytes off n).length = n := by
  simp [Memory.readBytes]

@[simp] theorem getElem_readBytes (m : Memory) (off n i : Nat) (h : i < (m.readBytes off n).length) :
    (m.readBytes off n)[i] = m.read (off + i) := by
  simp [Memory.readBytes]

/-- Two memories that agree on the bytes of an access give the same bytes. -/
theorem readBytes_congr {m m' : Memory} {off n : Nat} (h : ∀ i < n, m.read (off + i) = m'.read (off + i)) :
    m.readBytes off n = m'.readBytes off n := by
  apply List.ext_getElem (by simp)
  intro i hi _
  simpa using h i (by simpa using hi)

/-- A wide write leaves alone every offset outside the bytes it stores. -/
theorem read_writeBytes_outside (m : Memory) (off : Nat) (bs : List Byte) {x : Nat}
    (h : x < off ∨ off + bs.length ≤ x) : (m.writeBytes off bs).read x = m.read x := by
  induction bs generalizing m off with
  | nil => rfl
  | cons b bs ih =>
    simp only [List.length_cons] at h
    rw [Memory.writeBytes, ih _ _ (by omega), read_write_other _ _ (by omega)]

/-- Byte i of a wide write reads back at offset `off + i`. -/
theorem read_writeBytes_inside (m : Memory) (off : Nat) (bs : List Byte) {i : Nat} (h : i < bs.length) :
    (m.writeBytes off bs).read (off + i) = bs[i] := by
  induction bs generalizing m off i with
  | nil => simp at h
  | cons b bs ih =>
    cases i with
    | zero =>
      rw [Memory.writeBytes, read_writeBytes_outside _ _ _ (by omega)]
      simp
    | succ i =>
      have h' : i < bs.length := by simpa using h
      rw [Memory.writeBytes, show off + (i + 1) = off + 1 + i by omega, ih _ _ h']
      simp

/-- Reading back the bytes of a wide write gives them. -/
theorem readBytes_writeBytes (m : Memory) (off : Nat) (bs : List Byte) {n : Nat} (hn : bs.length = n) :
    (m.writeBytes off bs).readBytes off n = bs := by
  apply List.ext_getElem (by simp [hn])
  intro i hi hi'
  rw [getElem_readBytes, read_writeBytes_inside]

/-- A wide write leaves the bytes of a disjoint access alone. -/
theorem readBytes_writeBytes_outside (m : Memory) (off : Nat) (bs : List Byte) {o n : Nat}
    (h : o + n ≤ off ∨ off + bs.length ≤ o) :
    (m.writeBytes off bs).readBytes o n = m.readBytes o n :=
  readBytes_congr fun i hi => read_writeBytes_outside _ _ _ (by omega)

theorem writeBytes_append (m : Memory) (off : Nat) (as bs : List Byte) :
    m.writeBytes off (as ++ bs) = (m.writeBytes off as).writeBytes (off + as.length) bs := by
  induction as generalizing m off with
  | nil => rfl
  | cons a as ih =>
    rw [List.cons_append, Memory.writeBytes, Memory.writeBytes, ih, List.length_cons,
      show off + 1 + as.length = off + (as.length + 1) by omega]

/-- A wide read is its first part followed by its second. -/
theorem readBytes_append (m : Memory) (off n k : Nat) :
    m.readBytes off (n + k) = m.readBytes off n ++ m.readBytes (off + n) k := by
  apply List.ext_getElem (by simp)
  intro i hi hi'
  simp only [length_readBytes] at hi
  by_cases h : i < n
  · rw [List.getElem_append_left (by simpa using h)]
    simp
  · rw [List.getElem_append_right (by simpa using h)]
    simp only [getElem_readBytes, length_readBytes]
    congr 1
    omega

/-! ### The canonical form -/

theorem mem_place {m : Memory} {a : Nat} {b : Byte} {c : Host.Cell} :
    c ∈ Memory.place a b m ↔ c = (a, b) ∨ c ∈ m := by
  induction m with
  | nil => simp [Memory.place]
  | cons d m ih =>
    unfold Memory.place
    split
    · simp
    · simp only [List.mem_cons, ih]
      tauto

theorem wf_nil : Memory.wf [] := ⟨List.Pairwise.nil, by simp⟩

theorem wf_place {m : Memory} {a : Nat} {b : Byte} (h : m.wf) (hb : b ≠ Memory.blank)
    (ha : ∀ c ∈ m, c.1 ≠ a) : (Memory.place a b m).wf := by
  refine ⟨?_, fun c hc => ?_⟩
  · obtain ⟨hp, -⟩ := h
    induction m with
    | nil => simp [Memory.place]
    | cons d m ih =>
      have hp' := List.pairwise_cons.1 hp
      unfold Memory.place
      split
      · rename_i had
        refine List.pairwise_cons.2 ⟨fun c hc => ?_, hp⟩
        rcases List.mem_cons.1 hc with rfl | hc
        · exact had
        · exact lt_trans had (hp'.1 c hc)
      · rename_i had
        have hda : d.1 < a := by
          have := ha d (by simp)
          omega
        refine List.pairwise_cons.2 ⟨fun c hc => ?_, ih (fun c hc => ha c (by simp [hc])) hp'.2⟩
        rcases mem_place.1 hc with rfl | hc
        · exact hda
        · exact hp'.1 c hc
  · rcases mem_place.1 hc with rfl | hc
    · exact hb
    · exact h.2 c hc

theorem wf_filter {m : Memory} (p : Host.Cell → Bool) (h : m.wf) : Memory.wf (m.filter p) :=
  ⟨h.1.filter p, fun c hc => h.2 c (List.mem_filter.1 hc).1⟩

/-- A write keeps the canonical form. -/
theorem wf_write {m : Memory} (a : Nat) (b : Byte) (h : m.wf) : (m.write a b).wf := by
  unfold Memory.write
  split
  · exact wf_filter _ h
  · exact wf_place (wf_filter _ h) ‹_› (by simp)

/-- A wide write keeps the canonical form. -/
theorem wf_writeBytes {m : Memory} (off : Nat) (bs : List Byte) (h : m.wf) : (m.writeBytes off bs).wf := by
  induction bs generalizing m off with
  | nil => exact h
  | cons b bs ih => exact ih _ (wf_write _ _ h)

/-- A write lists no offset but its own and those listed before. -/
theorem listed_write {m : Memory} {a : Nat} {b : Byte} {c : Host.Cell} (h : c ∈ m.write a b) :
    c.1 = a ∨ c ∈ m := by
  unfold Memory.write at h
  split at h
  · exact .inr (List.mem_filter.1 h).1
  · rcases mem_place.1 h with rfl | h
    · exact .inl rfl
    · exact .inr (List.mem_filter.1 h).1

/-- A write below a bound keeps every listed offset below it. -/
theorem inside_write {m : Memory} {cap a : Nat} (b : Byte) (h : ∀ c ∈ m, c.1 < cap) (ha : a < cap) :
    ∀ c ∈ m.write a b, c.1 < cap := by
  intro c hc
  rcases listed_write hc with e | hc
  · exact e ▸ ha
  · exact h c hc

/-- A wide write below a bound keeps every listed offset below it. -/
theorem inside_writeBytes {m : Memory} {cap : Nat} (off : Nat) (bs : List Byte) (h : ∀ c ∈ m, c.1 < cap)
    (hb : off + bs.length ≤ cap) : ∀ c ∈ m.writeBytes off bs, c.1 < cap := by
  induction bs generalizing m off with
  | nil => exact h
  | cons b bs ih =>
    simp only [List.length_cons] at hb
    exact ih _ (inside_write _ h (by omega)) (by omega)

theorem read_of_mem {m : Memory} (h : m.wf) {c : Host.Cell} (hc : c ∈ m) : m.read c.1 = c.2 := by
  obtain ⟨hp, -⟩ := h
  induction m with
  | nil => simp at hc
  | cons d m ih =>
    have hp' := List.pairwise_cons.1 hp
    rcases List.mem_cons.1 hc with rfl | hc
    · simp [read_cons]
    · rw [read_cons, if_neg (ne_of_lt (hp'.1 c hc)), ih hc hp'.2]

theorem mem_of_read {m : Memory} {a : Nat} (h : m.read a ≠ Memory.blank) : (a, m.read a) ∈ m := by
  induction m with
  | nil => simp at h
  | cons d m ih =>
    rw [read_cons] at h ⊢
    split
    · rename_i e
      subst e
      simp
    · rename_i e
      rw [if_neg e] at h
      exact List.mem_cons_of_mem _ (ih h)

/-- Canonical memories that read alike are equal data. -/
theorem memory_ext {m m' : Memory} (h : m.wf) (h' : m'.wf) (hr : ∀ a, m.read a = m'.read a) : m = m' := by
  have key : ∀ {m m' : Memory}, m.wf → (∀ a, m.read a = m'.read a) → ∀ c ∈ m, c ∈ m' := by
    intro m m' h hr c hc
    have e := read_of_mem h hc
    have hne : m'.read c.1 ≠ Memory.blank := by
      rw [← hr, e]
      exact h.2 c hc
    have := mem_of_read hne
    rwa [← hr, e] at this
  have nd : ∀ {m : Memory}, m.wf → m.Nodup := fun {m} h => h.1.imp fun hlt e => by
    rw [e] at hlt
    exact lt_irrefl _ hlt
  have hperm : m.Perm m' := (List.perm_ext_iff_of_nodup (nd h) (nd h')).2 fun c =>
    ⟨key h hr c, key h' (fun a => (hr a).symm) c⟩
  exact hperm.eq_of_pairwise (fun a b _ _ hab hba => absurd (lt_trans hab hba) (lt_irrefl _)) h.1 h'.1

end Sys2Proof.Machine
end

