-- ==== Sys2Proof/Laws/State.lean ====
section
/-! SUPPORT. One lemma per field per update of the state, true by rfl, so that no later proof unfolds a record
update. -/

namespace Sys2Proof.Machine

variable (s : State)

@[simp] theorem setRspWord_cfg (v : Word) : (State.setRspWord v s).cfg = s.cfg := rfl
@[simp] theorem setRspWord_reqCw (v : Word) : (State.setRspWord v s).reqCw = s.reqCw := rfl
@[simp] theorem setRspWord_reqOff (v : Word) : (State.setRspWord v s).reqOff = s.reqOff := rfl
@[simp] theorem setRspWord_reqWord (v : Word) : (State.setRspWord v s).reqWord = s.reqWord := rfl
@[simp] theorem setRspWord_reqFval (v : Word) : (State.setRspWord v s).reqFval = s.reqFval := rfl
@[simp] theorem setRspWord_reqMax (v : Word) : (State.setRspWord v s).reqMax = s.reqMax := rfl
@[simp] theorem setRspWord_reqList (v : Word) : (State.setRspWord v s).reqList = s.reqList := rfl
@[simp] theorem setRspWord_rspWord (v : Word) : (State.setRspWord v s).rspWord = v := rfl
@[simp] theorem setRspWord_rspFval (v : Word) : (State.setRspWord v s).rspFval = s.rspFval := rfl
@[simp] theorem setRspWord_rspLen (v : Word) : (State.setRspWord v s).rspLen = s.rspLen := rfl
@[simp] theorem setRspWord_rspList (v : Word) : (State.setRspWord v s).rspList = s.rspList := rfl
@[simp] theorem setRspWord_fault (v : Word) : (State.setRspWord v s).fault = s.fault := rfl
@[simp] theorem setRspWord_faultCw (v : Word) : (State.setRspWord v s).faultCw = s.faultCw := rfl
@[simp] theorem setRspWord_faultInfo (v : Word) : (State.setRspWord v s).faultInfo = s.faultInfo := rfl
@[simp] theorem setRspWord_buf (v : Word) : (State.setRspWord v s).buf = s.buf := rfl
@[simp] theorem setRspWord_host (v : Word) : (State.setRspWord v s).host = s.host := rfl
@[simp] theorem setRspWord_cmdIndex (v : Word) : (State.setRspWord v s).cmdIndex = s.cmdIndex := rfl
@[simp] theorem setRspWord_readData (v : Word) : (State.setRspWord v s).readData = s.readData := rfl
@[simp] theorem setRspWord_drawCount (v : Word) : (State.setRspWord v s).drawCount = s.drawCount := rfl

@[simp] theorem setRspFval_cfg (v : FVal) : (State.setRspFval v s).cfg = s.cfg := rfl
@[simp] theorem setRspFval_reqCw (v : FVal) : (State.setRspFval v s).reqCw = s.reqCw := rfl
@[simp] theorem setRspFval_reqOff (v : FVal) : (State.setRspFval v s).reqOff = s.reqOff := rfl
@[simp] theorem setRspFval_reqWord (v : FVal) : (State.setRspFval v s).reqWord = s.reqWord := rfl
@[simp] theorem setRspFval_reqFval (v : FVal) : (State.setRspFval v s).reqFval = s.reqFval := rfl
@[simp] theorem setRspFval_reqMax (v : FVal) : (State.setRspFval v s).reqMax = s.reqMax := rfl
@[simp] theorem setRspFval_reqList (v : FVal) : (State.setRspFval v s).reqList = s.reqList := rfl
@[simp] theorem setRspFval_rspWord (v : FVal) : (State.setRspFval v s).rspWord = s.rspWord := rfl
@[simp] theorem setRspFval_rspFval (v : FVal) : (State.setRspFval v s).rspFval = v := rfl
@[simp] theorem setRspFval_rspLen (v : FVal) : (State.setRspFval v s).rspLen = s.rspLen := rfl
@[simp] theorem setRspFval_rspList (v : FVal) : (State.setRspFval v s).rspList = s.rspList := rfl
@[simp] theorem setRspFval_fault (v : FVal) : (State.setRspFval v s).fault = s.fault := rfl
@[simp] theorem setRspFval_faultCw (v : FVal) : (State.setRspFval v s).faultCw = s.faultCw := rfl
@[simp] theorem setRspFval_faultInfo (v : FVal) : (State.setRspFval v s).faultInfo = s.faultInfo := rfl
@[simp] theorem setRspFval_buf (v : FVal) : (State.setRspFval v s).buf = s.buf := rfl
@[simp] theorem setRspFval_host (v : FVal) : (State.setRspFval v s).host = s.host := rfl
@[simp] theorem setRspFval_cmdIndex (v : FVal) : (State.setRspFval v s).cmdIndex = s.cmdIndex := rfl
@[simp] theorem setRspFval_readData (v : FVal) : (State.setRspFval v s).readData = s.readData := rfl
@[simp] theorem setRspFval_drawCount (v : FVal) : (State.setRspFval v s).drawCount = s.drawCount := rfl

@[simp] theorem setRspLen_cfg (v : Word) : (State.setRspLen v s).cfg = s.cfg := rfl
@[simp] theorem setRspLen_reqCw (v : Word) : (State.setRspLen v s).reqCw = s.reqCw := rfl
@[simp] theorem setRspLen_reqOff (v : Word) : (State.setRspLen v s).reqOff = s.reqOff := rfl
@[simp] theorem setRspLen_reqWord (v : Word) : (State.setRspLen v s).reqWord = s.reqWord := rfl
@[simp] theorem setRspLen_reqFval (v : Word) : (State.setRspLen v s).reqFval = s.reqFval := rfl
@[simp] theorem setRspLen_reqMax (v : Word) : (State.setRspLen v s).reqMax = s.reqMax := rfl
@[simp] theorem setRspLen_reqList (v : Word) : (State.setRspLen v s).reqList = s.reqList := rfl
@[simp] theorem setRspLen_rspWord (v : Word) : (State.setRspLen v s).rspWord = s.rspWord := rfl
@[simp] theorem setRspLen_rspFval (v : Word) : (State.setRspLen v s).rspFval = s.rspFval := rfl
@[simp] theorem setRspLen_rspLen (v : Word) : (State.setRspLen v s).rspLen = v := rfl
@[simp] theorem setRspLen_rspList (v : Word) : (State.setRspLen v s).rspList = s.rspList := rfl
@[simp] theorem setRspLen_fault (v : Word) : (State.setRspLen v s).fault = s.fault := rfl
@[simp] theorem setRspLen_faultCw (v : Word) : (State.setRspLen v s).faultCw = s.faultCw := rfl
@[simp] theorem setRspLen_faultInfo (v : Word) : (State.setRspLen v s).faultInfo = s.faultInfo := rfl
@[simp] theorem setRspLen_buf (v : Word) : (State.setRspLen v s).buf = s.buf := rfl
@[simp] theorem setRspLen_host (v : Word) : (State.setRspLen v s).host = s.host := rfl
@[simp] theorem setRspLen_cmdIndex (v : Word) : (State.setRspLen v s).cmdIndex = s.cmdIndex := rfl
@[simp] theorem setRspLen_readData (v : Word) : (State.setRspLen v s).readData = s.readData := rfl
@[simp] theorem setRspLen_drawCount (v : Word) : (State.setRspLen v s).drawCount = s.drawCount := rfl

@[simp] theorem setRspList_cfg (v : List Item) : (State.setRspList v s).cfg = s.cfg := rfl
@[simp] theorem setRspList_reqCw (v : List Item) : (State.setRspList v s).reqCw = s.reqCw := rfl
@[simp] theorem setRspList_reqOff (v : List Item) : (State.setRspList v s).reqOff = s.reqOff := rfl
@[simp] theorem setRspList_reqWord (v : List Item) : (State.setRspList v s).reqWord = s.reqWord := rfl
@[simp] theorem setRspList_reqFval (v : List Item) : (State.setRspList v s).reqFval = s.reqFval := rfl
@[simp] theorem setRspList_reqMax (v : List Item) : (State.setRspList v s).reqMax = s.reqMax := rfl
@[simp] theorem setRspList_reqList (v : List Item) : (State.setRspList v s).reqList = s.reqList := rfl
@[simp] theorem setRspList_rspWord (v : List Item) : (State.setRspList v s).rspWord = s.rspWord := rfl
@[simp] theorem setRspList_rspFval (v : List Item) : (State.setRspList v s).rspFval = s.rspFval := rfl
@[simp] theorem setRspList_rspLen (v : List Item) : (State.setRspList v s).rspLen = s.rspLen := rfl
@[simp] theorem setRspList_rspList (v : List Item) : (State.setRspList v s).rspList = v := rfl
@[simp] theorem setRspList_fault (v : List Item) : (State.setRspList v s).fault = s.fault := rfl
@[simp] theorem setRspList_faultCw (v : List Item) : (State.setRspList v s).faultCw = s.faultCw := rfl
@[simp] theorem setRspList_faultInfo (v : List Item) : (State.setRspList v s).faultInfo = s.faultInfo := rfl
@[simp] theorem setRspList_buf (v : List Item) : (State.setRspList v s).buf = s.buf := rfl
@[simp] theorem setRspList_host (v : List Item) : (State.setRspList v s).host = s.host := rfl
@[simp] theorem setRspList_cmdIndex (v : List Item) : (State.setRspList v s).cmdIndex = s.cmdIndex := rfl
@[simp] theorem setRspList_readData (v : List Item) : (State.setRspList v s).readData = s.readData := rfl
@[simp] theorem setRspList_drawCount (v : List Item) : (State.setRspList v s).drawCount = s.drawCount := rfl

@[simp] theorem setBuf_cfg (v : Memory) : (State.setBuf v s).cfg = s.cfg := rfl
@[simp] theorem setBuf_reqCw (v : Memory) : (State.setBuf v s).reqCw = s.reqCw := rfl
@[simp] theorem setBuf_reqOff (v : Memory) : (State.setBuf v s).reqOff = s.reqOff := rfl
@[simp] theorem setBuf_reqWord (v : Memory) : (State.setBuf v s).reqWord = s.reqWord := rfl
@[simp] theorem setBuf_reqFval (v : Memory) : (State.setBuf v s).reqFval = s.reqFval := rfl
@[simp] theorem setBuf_reqMax (v : Memory) : (State.setBuf v s).reqMax = s.reqMax := rfl
@[simp] theorem setBuf_reqList (v : Memory) : (State.setBuf v s).reqList = s.reqList := rfl
@[simp] theorem setBuf_rspWord (v : Memory) : (State.setBuf v s).rspWord = s.rspWord := rfl
@[simp] theorem setBuf_rspFval (v : Memory) : (State.setBuf v s).rspFval = s.rspFval := rfl
@[simp] theorem setBuf_rspLen (v : Memory) : (State.setBuf v s).rspLen = s.rspLen := rfl
@[simp] theorem setBuf_rspList (v : Memory) : (State.setBuf v s).rspList = s.rspList := rfl
@[simp] theorem setBuf_fault (v : Memory) : (State.setBuf v s).fault = s.fault := rfl
@[simp] theorem setBuf_faultCw (v : Memory) : (State.setBuf v s).faultCw = s.faultCw := rfl
@[simp] theorem setBuf_faultInfo (v : Memory) : (State.setBuf v s).faultInfo = s.faultInfo := rfl
@[simp] theorem setBuf_buf (v : Memory) : (State.setBuf v s).buf = v := rfl
@[simp] theorem setBuf_host (v : Memory) : (State.setBuf v s).host = s.host := rfl
@[simp] theorem setBuf_cmdIndex (v : Memory) : (State.setBuf v s).cmdIndex = s.cmdIndex := rfl
@[simp] theorem setBuf_readData (v : Memory) : (State.setBuf v s).readData = s.readData := rfl
@[simp] theorem setBuf_drawCount (v : Memory) : (State.setBuf v s).drawCount = s.drawCount := rfl

@[simp] theorem setDrawCount_cfg (v : Nat) : (State.setDrawCount v s).cfg = s.cfg := rfl
@[simp] theorem setDrawCount_reqCw (v : Nat) : (State.setDrawCount v s).reqCw = s.reqCw := rfl
@[simp] theorem setDrawCount_reqOff (v : Nat) : (State.setDrawCount v s).reqOff = s.reqOff := rfl
@[simp] theorem setDrawCount_reqWord (v : Nat) : (State.setDrawCount v s).reqWord = s.reqWord := rfl
@[simp] theorem setDrawCount_reqFval (v : Nat) : (State.setDrawCount v s).reqFval = s.reqFval := rfl
@[simp] theorem setDrawCount_reqMax (v : Nat) : (State.setDrawCount v s).reqMax = s.reqMax := rfl
@[simp] theorem setDrawCount_reqList (v : Nat) : (State.setDrawCount v s).reqList = s.reqList := rfl
@[simp] theorem setDrawCount_rspWord (v : Nat) : (State.setDrawCount v s).rspWord = s.rspWord := rfl
@[simp] theorem setDrawCount_rspFval (v : Nat) : (State.setDrawCount v s).rspFval = s.rspFval := rfl
@[simp] theorem setDrawCount_rspLen (v : Nat) : (State.setDrawCount v s).rspLen = s.rspLen := rfl
@[simp] theorem setDrawCount_rspList (v : Nat) : (State.setDrawCount v s).rspList = s.rspList := rfl
@[simp] theorem setDrawCount_fault (v : Nat) : (State.setDrawCount v s).fault = s.fault := rfl
@[simp] theorem setDrawCount_faultCw (v : Nat) : (State.setDrawCount v s).faultCw = s.faultCw := rfl
@[simp] theorem setDrawCount_faultInfo (v : Nat) : (State.setDrawCount v s).faultInfo = s.faultInfo := rfl
@[simp] theorem setDrawCount_buf (v : Nat) : (State.setDrawCount v s).buf = s.buf := rfl
@[simp] theorem setDrawCount_host (v : Nat) : (State.setDrawCount v s).host = s.host := rfl
@[simp] theorem setDrawCount_cmdIndex (v : Nat) : (State.setDrawCount v s).cmdIndex = s.cmdIndex := rfl
@[simp] theorem setDrawCount_readData (v : Nat) : (State.setDrawCount v s).readData = s.readData := rfl
@[simp] theorem setDrawCount_drawCount (v : Nat) : (State.setDrawCount v s).drawCount = v := rfl

@[simp] theorem setReqOff_cfg (v : Word) : (State.setReqOff v s).cfg = s.cfg := rfl
@[simp] theorem setReqOff_reqCw (v : Word) : (State.setReqOff v s).reqCw = s.reqCw := rfl
@[simp] theorem setReqOff_reqOff (v : Word) : (State.setReqOff v s).reqOff = v := rfl
@[simp] theorem setReqOff_reqWord (v : Word) : (State.setReqOff v s).reqWord = s.reqWord := rfl
@[simp] theorem setReqOff_reqFval (v : Word) : (State.setReqOff v s).reqFval = s.reqFval := rfl
@[simp] theorem setReqOff_reqMax (v : Word) : (State.setReqOff v s).reqMax = s.reqMax := rfl
@[simp] theorem setReqOff_reqList (v : Word) : (State.setReqOff v s).reqList = s.reqList := rfl
@[simp] theorem setReqOff_rspWord (v : Word) : (State.setReqOff v s).rspWord = s.rspWord := rfl
@[simp] theorem setReqOff_rspFval (v : Word) : (State.setReqOff v s).rspFval = s.rspFval := rfl
@[simp] theorem setReqOff_rspLen (v : Word) : (State.setReqOff v s).rspLen = s.rspLen := rfl
@[simp] theorem setReqOff_rspList (v : Word) : (State.setReqOff v s).rspList = s.rspList := rfl
@[simp] theorem setReqOff_fault (v : Word) : (State.setReqOff v s).fault = s.fault := rfl
@[simp] theorem setReqOff_faultCw (v : Word) : (State.setReqOff v s).faultCw = s.faultCw := rfl
@[simp] theorem setReqOff_faultInfo (v : Word) : (State.setReqOff v s).faultInfo = s.faultInfo := rfl
@[simp] theorem setReqOff_buf (v : Word) : (State.setReqOff v s).buf = s.buf := rfl
@[simp] theorem setReqOff_host (v : Word) : (State.setReqOff v s).host = s.host := rfl
@[simp] theorem setReqOff_cmdIndex (v : Word) : (State.setReqOff v s).cmdIndex = s.cmdIndex := rfl
@[simp] theorem setReqOff_readData (v : Word) : (State.setReqOff v s).readData = s.readData := rfl
@[simp] theorem setReqOff_drawCount (v : Word) : (State.setReqOff v s).drawCount = s.drawCount := rfl

@[simp] theorem setReqWord_cfg (v : Word) : (State.setReqWord v s).cfg = s.cfg := rfl
@[simp] theorem setReqWord_reqCw (v : Word) : (State.setReqWord v s).reqCw = s.reqCw := rfl
@[simp] theorem setReqWord_reqOff (v : Word) : (State.setReqWord v s).reqOff = s.reqOff := rfl
@[simp] theorem setReqWord_reqWord (v : Word) : (State.setReqWord v s).reqWord = v := rfl
@[simp] theorem setReqWord_reqFval (v : Word) : (State.setReqWord v s).reqFval = s.reqFval := rfl
@[simp] theorem setReqWord_reqMax (v : Word) : (State.setReqWord v s).reqMax = s.reqMax := rfl
@[simp] theorem setReqWord_reqList (v : Word) : (State.setReqWord v s).reqList = s.reqList := rfl
@[simp] theorem setReqWord_rspWord (v : Word) : (State.setReqWord v s).rspWord = s.rspWord := rfl
@[simp] theorem setReqWord_rspFval (v : Word) : (State.setReqWord v s).rspFval = s.rspFval := rfl
@[simp] theorem setReqWord_rspLen (v : Word) : (State.setReqWord v s).rspLen = s.rspLen := rfl
@[simp] theorem setReqWord_rspList (v : Word) : (State.setReqWord v s).rspList = s.rspList := rfl
@[simp] theorem setReqWord_fault (v : Word) : (State.setReqWord v s).fault = s.fault := rfl
@[simp] theorem setReqWord_faultCw (v : Word) : (State.setReqWord v s).faultCw = s.faultCw := rfl
@[simp] theorem setReqWord_faultInfo (v : Word) : (State.setReqWord v s).faultInfo = s.faultInfo := rfl
@[simp] theorem setReqWord_buf (v : Word) : (State.setReqWord v s).buf = s.buf := rfl
@[simp] theorem setReqWord_host (v : Word) : (State.setReqWord v s).host = s.host := rfl
@[simp] theorem setReqWord_cmdIndex (v : Word) : (State.setReqWord v s).cmdIndex = s.cmdIndex := rfl
@[simp] theorem setReqWord_readData (v : Word) : (State.setReqWord v s).readData = s.readData := rfl
@[simp] theorem setReqWord_drawCount (v : Word) : (State.setReqWord v s).drawCount = s.drawCount := rfl

@[simp] theorem setReqFval_cfg (v : FVal) : (State.setReqFval v s).cfg = s.cfg := rfl
@[simp] theorem setReqFval_reqCw (v : FVal) : (State.setReqFval v s).reqCw = s.reqCw := rfl
@[simp] theorem setReqFval_reqOff (v : FVal) : (State.setReqFval v s).reqOff = s.reqOff := rfl
@[simp] theorem setReqFval_reqWord (v : FVal) : (State.setReqFval v s).reqWord = s.reqWord := rfl
@[simp] theorem setReqFval_reqFval (v : FVal) : (State.setReqFval v s).reqFval = v := rfl
@[simp] theorem setReqFval_reqMax (v : FVal) : (State.setReqFval v s).reqMax = s.reqMax := rfl
@[simp] theorem setReqFval_reqList (v : FVal) : (State.setReqFval v s).reqList = s.reqList := rfl
@[simp] theorem setReqFval_rspWord (v : FVal) : (State.setReqFval v s).rspWord = s.rspWord := rfl
@[simp] theorem setReqFval_rspFval (v : FVal) : (State.setReqFval v s).rspFval = s.rspFval := rfl
@[simp] theorem setReqFval_rspLen (v : FVal) : (State.setReqFval v s).rspLen = s.rspLen := rfl
@[simp] theorem setReqFval_rspList (v : FVal) : (State.setReqFval v s).rspList = s.rspList := rfl
@[simp] theorem setReqFval_fault (v : FVal) : (State.setReqFval v s).fault = s.fault := rfl
@[simp] theorem setReqFval_faultCw (v : FVal) : (State.setReqFval v s).faultCw = s.faultCw := rfl
@[simp] theorem setReqFval_faultInfo (v : FVal) : (State.setReqFval v s).faultInfo = s.faultInfo := rfl
@[simp] theorem setReqFval_buf (v : FVal) : (State.setReqFval v s).buf = s.buf := rfl
@[simp] theorem setReqFval_host (v : FVal) : (State.setReqFval v s).host = s.host := rfl
@[simp] theorem setReqFval_cmdIndex (v : FVal) : (State.setReqFval v s).cmdIndex = s.cmdIndex := rfl
@[simp] theorem setReqFval_readData (v : FVal) : (State.setReqFval v s).readData = s.readData := rfl
@[simp] theorem setReqFval_drawCount (v : FVal) : (State.setReqFval v s).drawCount = s.drawCount := rfl

@[simp] theorem setReqMax_cfg (v : Word) : (State.setReqMax v s).cfg = s.cfg := rfl
@[simp] theorem setReqMax_reqCw (v : Word) : (State.setReqMax v s).reqCw = s.reqCw := rfl
@[simp] theorem setReqMax_reqOff (v : Word) : (State.setReqMax v s).reqOff = s.reqOff := rfl
@[simp] theorem setReqMax_reqWord (v : Word) : (State.setReqMax v s).reqWord = s.reqWord := rfl
@[simp] theorem setReqMax_reqFval (v : Word) : (State.setReqMax v s).reqFval = s.reqFval := rfl
@[simp] theorem setReqMax_reqMax (v : Word) : (State.setReqMax v s).reqMax = v := rfl
@[simp] theorem setReqMax_reqList (v : Word) : (State.setReqMax v s).reqList = s.reqList := rfl
@[simp] theorem setReqMax_rspWord (v : Word) : (State.setReqMax v s).rspWord = s.rspWord := rfl
@[simp] theorem setReqMax_rspFval (v : Word) : (State.setReqMax v s).rspFval = s.rspFval := rfl
@[simp] theorem setReqMax_rspLen (v : Word) : (State.setReqMax v s).rspLen = s.rspLen := rfl
@[simp] theorem setReqMax_rspList (v : Word) : (State.setReqMax v s).rspList = s.rspList := rfl
@[simp] theorem setReqMax_fault (v : Word) : (State.setReqMax v s).fault = s.fault := rfl
@[simp] theorem setReqMax_faultCw (v : Word) : (State.setReqMax v s).faultCw = s.faultCw := rfl
@[simp] theorem setReqMax_faultInfo (v : Word) : (State.setReqMax v s).faultInfo = s.faultInfo := rfl
@[simp] theorem setReqMax_buf (v : Word) : (State.setReqMax v s).buf = s.buf := rfl
@[simp] theorem setReqMax_host (v : Word) : (State.setReqMax v s).host = s.host := rfl
@[simp] theorem setReqMax_cmdIndex (v : Word) : (State.setReqMax v s).cmdIndex = s.cmdIndex := rfl
@[simp] theorem setReqMax_readData (v : Word) : (State.setReqMax v s).readData = s.readData := rfl
@[simp] theorem setReqMax_drawCount (v : Word) : (State.setReqMax v s).drawCount = s.drawCount := rfl

@[simp] theorem setReqList_cfg (v : List Item) : (State.setReqList v s).cfg = s.cfg := rfl
@[simp] theorem setReqList_reqCw (v : List Item) : (State.setReqList v s).reqCw = s.reqCw := rfl
@[simp] theorem setReqList_reqOff (v : List Item) : (State.setReqList v s).reqOff = s.reqOff := rfl
@[simp] theorem setReqList_reqWord (v : List Item) : (State.setReqList v s).reqWord = s.reqWord := rfl
@[simp] theorem setReqList_reqFval (v : List Item) : (State.setReqList v s).reqFval = s.reqFval := rfl
@[simp] theorem setReqList_reqMax (v : List Item) : (State.setReqList v s).reqMax = s.reqMax := rfl
@[simp] theorem setReqList_reqList (v : List Item) : (State.setReqList v s).reqList = v := rfl
@[simp] theorem setReqList_rspWord (v : List Item) : (State.setReqList v s).rspWord = s.rspWord := rfl
@[simp] theorem setReqList_rspFval (v : List Item) : (State.setReqList v s).rspFval = s.rspFval := rfl
@[simp] theorem setReqList_rspLen (v : List Item) : (State.setReqList v s).rspLen = s.rspLen := rfl
@[simp] theorem setReqList_rspList (v : List Item) : (State.setReqList v s).rspList = s.rspList := rfl
@[simp] theorem setReqList_fault (v : List Item) : (State.setReqList v s).fault = s.fault := rfl
@[simp] theorem setReqList_faultCw (v : List Item) : (State.setReqList v s).faultCw = s.faultCw := rfl
@[simp] theorem setReqList_faultInfo (v : List Item) : (State.setReqList v s).faultInfo = s.faultInfo := rfl
@[simp] theorem setReqList_buf (v : List Item) : (State.setReqList v s).buf = s.buf := rfl
@[simp] theorem setReqList_host (v : List Item) : (State.setReqList v s).host = s.host := rfl
@[simp] theorem setReqList_cmdIndex (v : List Item) : (State.setReqList v s).cmdIndex = s.cmdIndex := rfl
@[simp] theorem setReqList_readData (v : List Item) : (State.setReqList v s).readData = s.readData := rfl
@[simp] theorem setReqList_drawCount (v : List Item) : (State.setReqList v s).drawCount = s.drawCount := rfl

@[simp] theorem setHost_cfg (v : List HostOp) : (State.setHost v s).cfg = s.cfg := rfl
@[simp] theorem setHost_reqCw (v : List HostOp) : (State.setHost v s).reqCw = s.reqCw := rfl
@[simp] theorem setHost_reqOff (v : List HostOp) : (State.setHost v s).reqOff = s.reqOff := rfl
@[simp] theorem setHost_reqWord (v : List HostOp) : (State.setHost v s).reqWord = s.reqWord := rfl
@[simp] theorem setHost_reqFval (v : List HostOp) : (State.setHost v s).reqFval = s.reqFval := rfl
@[simp] theorem setHost_reqMax (v : List HostOp) : (State.setHost v s).reqMax = s.reqMax := rfl
@[simp] theorem setHost_reqList (v : List HostOp) : (State.setHost v s).reqList = s.reqList := rfl
@[simp] theorem setHost_rspWord (v : List HostOp) : (State.setHost v s).rspWord = s.rspWord := rfl
@[simp] theorem setHost_rspFval (v : List HostOp) : (State.setHost v s).rspFval = s.rspFval := rfl
@[simp] theorem setHost_rspLen (v : List HostOp) : (State.setHost v s).rspLen = s.rspLen := rfl
@[simp] theorem setHost_rspList (v : List HostOp) : (State.setHost v s).rspList = s.rspList := rfl
@[simp] theorem setHost_fault (v : List HostOp) : (State.setHost v s).fault = s.fault := rfl
@[simp] theorem setHost_faultCw (v : List HostOp) : (State.setHost v s).faultCw = s.faultCw := rfl
@[simp] theorem setHost_faultInfo (v : List HostOp) : (State.setHost v s).faultInfo = s.faultInfo := rfl
@[simp] theorem setHost_buf (v : List HostOp) : (State.setHost v s).buf = s.buf := rfl
@[simp] theorem setHost_host (v : List HostOp) : (State.setHost v s).host = v := rfl
@[simp] theorem setHost_cmdIndex (v : List HostOp) : (State.setHost v s).cmdIndex = s.cmdIndex := rfl
@[simp] theorem setHost_readData (v : List HostOp) : (State.setHost v s).readData = s.readData := rfl
@[simp] theorem setHost_drawCount (v : List HostOp) : (State.setHost v s).drawCount = s.drawCount := rfl

@[simp] theorem setReadData_cfg (v : HostVal) : (State.setReadData v s).cfg = s.cfg := rfl
@[simp] theorem setReadData_reqCw (v : HostVal) : (State.setReadData v s).reqCw = s.reqCw := rfl
@[simp] theorem setReadData_reqOff (v : HostVal) : (State.setReadData v s).reqOff = s.reqOff := rfl
@[simp] theorem setReadData_reqWord (v : HostVal) : (State.setReadData v s).reqWord = s.reqWord := rfl
@[simp] theorem setReadData_reqFval (v : HostVal) : (State.setReadData v s).reqFval = s.reqFval := rfl
@[simp] theorem setReadData_reqMax (v : HostVal) : (State.setReadData v s).reqMax = s.reqMax := rfl
@[simp] theorem setReadData_reqList (v : HostVal) : (State.setReadData v s).reqList = s.reqList := rfl
@[simp] theorem setReadData_rspWord (v : HostVal) : (State.setReadData v s).rspWord = s.rspWord := rfl
@[simp] theorem setReadData_rspFval (v : HostVal) : (State.setReadData v s).rspFval = s.rspFval := rfl
@[simp] theorem setReadData_rspLen (v : HostVal) : (State.setReadData v s).rspLen = s.rspLen := rfl
@[simp] theorem setReadData_rspList (v : HostVal) : (State.setReadData v s).rspList = s.rspList := rfl
@[simp] theorem setReadData_fault (v : HostVal) : (State.setReadData v s).fault = s.fault := rfl
@[simp] theorem setReadData_faultCw (v : HostVal) : (State.setReadData v s).faultCw = s.faultCw := rfl
@[simp] theorem setReadData_faultInfo (v : HostVal) : (State.setReadData v s).faultInfo = s.faultInfo := rfl
@[simp] theorem setReadData_buf (v : HostVal) : (State.setReadData v s).buf = s.buf := rfl
@[simp] theorem setReadData_host (v : HostVal) : (State.setReadData v s).host = s.host := rfl
@[simp] theorem setReadData_cmdIndex (v : HostVal) : (State.setReadData v s).cmdIndex = s.cmdIndex := rfl
@[simp] theorem setReadData_readData (v : HostVal) : (State.setReadData v s).readData = some v := rfl
@[simp] theorem setReadData_drawCount (v : HostVal) : (State.setReadData v s).drawCount = s.drawCount := rfl

@[simp] theorem acceptCommand_cfg (v : CommandWord) : (State.acceptCommand v s).cfg = s.cfg := rfl
@[simp] theorem acceptCommand_reqCw (v : CommandWord) : (State.acceptCommand v s).reqCw = v := rfl
@[simp] theorem acceptCommand_reqOff (v : CommandWord) : (State.acceptCommand v s).reqOff = s.reqOff := rfl
@[simp] theorem acceptCommand_reqWord (v : CommandWord) : (State.acceptCommand v s).reqWord = s.reqWord := rfl
@[simp] theorem acceptCommand_reqFval (v : CommandWord) : (State.acceptCommand v s).reqFval = s.reqFval := rfl
@[simp] theorem acceptCommand_reqMax (v : CommandWord) : (State.acceptCommand v s).reqMax = s.reqMax := rfl
@[simp] theorem acceptCommand_reqList (v : CommandWord) : (State.acceptCommand v s).reqList = s.reqList := rfl
@[simp] theorem acceptCommand_rspWord (v : CommandWord) : (State.acceptCommand v s).rspWord = s.rspWord := rfl
@[simp] theorem acceptCommand_rspFval (v : CommandWord) : (State.acceptCommand v s).rspFval = s.rspFval := rfl
@[simp] theorem acceptCommand_rspLen (v : CommandWord) : (State.acceptCommand v s).rspLen = s.rspLen := rfl
@[simp] theorem acceptCommand_rspList (v : CommandWord) : (State.acceptCommand v s).rspList = s.rspList := rfl
@[simp] theorem acceptCommand_fault (v : CommandWord) : (State.acceptCommand v s).fault = s.fault := rfl
@[simp] theorem acceptCommand_faultCw (v : CommandWord) : (State.acceptCommand v s).faultCw = s.faultCw := rfl
@[simp] theorem acceptCommand_faultInfo (v : CommandWord) : (State.acceptCommand v s).faultInfo = s.faultInfo := rfl
@[simp] theorem acceptCommand_buf (v : CommandWord) : (State.acceptCommand v s).buf = s.buf := rfl
@[simp] theorem acceptCommand_host (v : CommandWord) : (State.acceptCommand v s).host = s.host := rfl
@[simp] theorem acceptCommand_cmdIndex (v : CommandWord) : (State.acceptCommand v s).cmdIndex = s.cmdIndex + 1 := rfl
@[simp] theorem acceptCommand_readData (v : CommandWord) : (State.acceptCommand v s).readData = s.readData := rfl
@[simp] theorem acceptCommand_drawCount (v : CommandWord) : (State.acceptCommand v s).drawCount = s.drawCount := rfl

@[simp] theorem recordFault_cfg (v : Raise) : (State.recordFault v s).cfg = s.cfg := rfl
@[simp] theorem recordFault_reqCw (v : Raise) : (State.recordFault v s).reqCw = s.reqCw := rfl
@[simp] theorem recordFault_reqOff (v : Raise) : (State.recordFault v s).reqOff = s.reqOff := rfl
@[simp] theorem recordFault_reqWord (v : Raise) : (State.recordFault v s).reqWord = s.reqWord := rfl
@[simp] theorem recordFault_reqFval (v : Raise) : (State.recordFault v s).reqFval = s.reqFval := rfl
@[simp] theorem recordFault_reqMax (v : Raise) : (State.recordFault v s).reqMax = s.reqMax := rfl
@[simp] theorem recordFault_reqList (v : Raise) : (State.recordFault v s).reqList = s.reqList := rfl
@[simp] theorem recordFault_rspWord (v : Raise) : (State.recordFault v s).rspWord = s.rspWord := rfl
@[simp] theorem recordFault_rspFval (v : Raise) : (State.recordFault v s).rspFval = s.rspFval := rfl
@[simp] theorem recordFault_rspLen (v : Raise) : (State.recordFault v s).rspLen = s.rspLen := rfl
@[simp] theorem recordFault_rspList (v : Raise) : (State.recordFault v s).rspList = s.rspList := rfl
@[simp] theorem recordFault_fault (v : Raise) : (State.recordFault v s).fault = faultWord v.cause := rfl
@[simp] theorem recordFault_faultCw (v : Raise) : (State.recordFault v s).faultCw = s.reqCw := rfl
@[simp] theorem recordFault_faultInfo (v : Raise) : (State.recordFault v s).faultInfo = saturate64 v.info := rfl
@[simp] theorem recordFault_buf (v : Raise) : (State.recordFault v s).buf = s.buf := rfl
@[simp] theorem recordFault_host (v : Raise) : (State.recordFault v s).host = s.host := rfl
@[simp] theorem recordFault_cmdIndex (v : Raise) : (State.recordFault v s).cmdIndex = s.cmdIndex := rfl
@[simp] theorem recordFault_readData (v : Raise) : (State.recordFault v s).readData = s.readData := rfl
@[simp] theorem recordFault_drawCount (v : Raise) : (State.recordFault v s).drawCount = s.drawCount := rfl

@[simp] theorem resetRegisters_cfg : (State.resetRegisters s).cfg = s.cfg := rfl
@[simp] theorem resetRegisters_reqCw : (State.resetRegisters s).reqCw = 0 := rfl
@[simp] theorem resetRegisters_reqOff : (State.resetRegisters s).reqOff = 0 := rfl
@[simp] theorem resetRegisters_reqWord : (State.resetRegisters s).reqWord = 0 := rfl
@[simp] theorem resetRegisters_reqFval : (State.resetRegisters s).reqFval = .fin 0 := rfl
@[simp] theorem resetRegisters_reqMax : (State.resetRegisters s).reqMax = 0 := rfl
@[simp] theorem resetRegisters_reqList : (State.resetRegisters s).reqList = [] := rfl
@[simp] theorem resetRegisters_rspWord : (State.resetRegisters s).rspWord = 0 := rfl
@[simp] theorem resetRegisters_rspFval : (State.resetRegisters s).rspFval = .fin 0 := rfl
@[simp] theorem resetRegisters_rspLen : (State.resetRegisters s).rspLen = 0 := rfl
@[simp] theorem resetRegisters_rspList : (State.resetRegisters s).rspList = [] := rfl
@[simp] theorem resetRegisters_fault : (State.resetRegisters s).fault = 0 := rfl
@[simp] theorem resetRegisters_faultCw : (State.resetRegisters s).faultCw = 0 := rfl
@[simp] theorem resetRegisters_faultInfo : (State.resetRegisters s).faultInfo = 0 := rfl
@[simp] theorem resetRegisters_buf : (State.resetRegisters s).buf = s.buf := rfl
@[simp] theorem resetRegisters_host : (State.resetRegisters s).host = s.host := rfl
@[simp] theorem resetRegisters_cmdIndex : (State.resetRegisters s).cmdIndex = s.cmdIndex := rfl
@[simp] theorem resetRegisters_readData : (State.resetRegisters s).readData = s.readData := rfl
@[simp] theorem resetRegisters_drawCount : (State.resetRegisters s).drawCount = s.drawCount := rfl

@[simp] theorem stored_cfg (n : Nat) (e : Encoded) : (State.stored n e s).cfg = s.cfg := rfl
@[simp] theorem stored_reqCw (n : Nat) (e : Encoded) : (State.stored n e s).reqCw = s.reqCw := rfl
@[simp] theorem stored_reqOff (n : Nat) (e : Encoded) : (State.stored n e s).reqOff = s.reqOff := rfl
@[simp] theorem stored_reqWord (n : Nat) (e : Encoded) : (State.stored n e s).reqWord = s.reqWord := rfl
@[simp] theorem stored_reqFval (n : Nat) (e : Encoded) : (State.stored n e s).reqFval = s.reqFval := rfl
@[simp] theorem stored_reqMax (n : Nat) (e : Encoded) : (State.stored n e s).reqMax = s.reqMax := rfl
@[simp] theorem stored_reqList (n : Nat) (e : Encoded) : (State.stored n e s).reqList = s.reqList := rfl
@[simp] theorem stored_rspWord (n : Nat) (e : Encoded) : (State.stored n e s).rspWord = s.rspWord := rfl
@[simp] theorem stored_rspFval (n : Nat) (e : Encoded) : (State.stored n e s).rspFval = s.rspFval := rfl
@[simp] theorem stored_rspLen (n : Nat) (e : Encoded) : (State.stored n e s).rspLen = BitVec.ofNat 64 n := rfl
@[simp] theorem stored_rspList (n : Nat) (e : Encoded) : (State.stored n e s).rspList = s.rspList := rfl
@[simp] theorem stored_fault (n : Nat) (e : Encoded) : (State.stored n e s).fault = s.fault := rfl
@[simp] theorem stored_faultCw (n : Nat) (e : Encoded) : (State.stored n e s).faultCw = s.faultCw := rfl
@[simp] theorem stored_faultInfo (n : Nat) (e : Encoded) : (State.stored n e s).faultInfo = s.faultInfo := rfl
@[simp] theorem stored_buf (n : Nat) (e : Encoded) : (State.stored n e s).buf = s.buf.writeBytes s.reqOff.toNat e.bytes := rfl
@[simp] theorem stored_host (n : Nat) (e : Encoded) : (State.stored n e s).host = s.host := rfl
@[simp] theorem stored_cmdIndex (n : Nat) (e : Encoded) : (State.stored n e s).cmdIndex = s.cmdIndex := rfl
@[simp] theorem stored_readData (n : Nat) (e : Encoded) : (State.stored n e s).readData = s.readData := rfl
@[simp] theorem stored_drawCount (n : Nat) (e : Encoded) : (State.stored n e s).drawCount = e.draws := rfl

end Sys2Proof.Machine
end

