-- ==== Sys2Proof/Laws/Operands.lean ====
section
/-! SUPPORT. What each shared operation of the commands can do, said once: the element encoder and decoder, the list
operations, the capacity check and the store. -/

namespace Sys2Proof

theorem Kind.size_pos (k : Kind) : 1 ≤ k.size := by cases k <;> decide

theorem Kind.size_le (k : Kind) : k.size ≤ 8 := by cases k <;> decide

theorem CountKind.size_pos (k : CountKind) : 1 ≤ k.size := by cases k <;> decide

theorem CountKind.size_le (k : CountKind) : k.size ≤ 8 := by cases k <;> decide

/-- A kind's code names the kind. -/
@[simp] theorem Kind.ofCode_code (k : Kind) : Kind.ofCode k.code = some k := by cases k <;> decide

/-- A code that names a kind is that kind's code. -/
theorem Kind.code_of_ofCode {c : BitVec 4} {k : Kind} (h : Kind.ofCode c = some k) : c = k.code := by
  revert c k
  decide

/-- The codes that name no kind are 10 to 15 (30_encoding R73). -/
theorem Kind.ofCode_eq_none (c : BitVec 4) : Kind.ofCode c = none ↔ 10 ≤ c.toNat := by
  revert c
  decide

theorem Kind.isFloat_eq_false {k : Kind} : k.isFloat = false ↔ k.format = none := by
  cases k <;> decide

/-- A float kind's bytes hold its format exactly (30_encoding R73). -/
theorem Kind.format_size {k : Kind} {bits expb : Nat} (h : k.format = some (bits, expb)) : bits = 8 * k.size := by
  cases k <;> simp [Kind.format] at h <;> simp [Kind.size, ← h.1]

end Sys2Proof

namespace Sys2Proof.Machine

/-! ### Draws and patterns -/

/-- A draw of N bits is below 2^N (00_scope R10). -/
theorem drawBits_lt (n k : Nat) : drawBits n k < 2 ^ n := Nat.mod_lt _ (Nat.two_pow_pos n)

/-- What `packOrDraw` can do: pack's pattern with no draw made, or one draw. -/
theorem packOrDraw_cases (z : Quantize) (q : Rat) (bits expb k : Nat) :
    (∃ p, pack z q bits expb = .ok p ∧ packOrDraw z q bits expb k = ⟨p, k⟩) ∨
      (pack z q bits expb = .undef ∧ packOrDraw z q bits expb k = ⟨drawBits bits k, k + 1⟩) := by
  unfold packOrDraw
  split
  · exact .inl ⟨_, by assumption, rfl⟩
  · exact .inr ⟨by assumption, rfl⟩

/-- The finite values are `Fin q` and `NegZero` (10_state R24). -/
theorem finiteValue_eq_none (x : FVal) : finiteValue x = none ↔ x = .posInf ∨ x = .negInf ∨ x = .nan := by
  cases x <;> simp [finiteValue]

/-! ### The element encoder and decoder -/

/-- `enc_bytes` on an integer kind (42_fixed_width_codec R131). -/
theorem encBytes_integer {k : Kind} (c : Params) (ord : ByteOrder) (it : Item) (idx d : Nat)
    (h : k.isFloat = false) :
    encBytes c k ord it idx d = .ok ⟨bytesIn ord it.word.toNat k.size, d⟩ := by
  unfold encBytes
  rw [Kind.isFloat_eq_false.1 h]
  simp only [bytesIn_mod]

/-- `enc_bytes` on a finite float item (42_fixed_width_codec R131). -/
theorem encBytes_float {k : Kind} {bits expb : Nat} {it : Item} {q : Rat} (c : Params) (ord : ByteOrder)
    (idx d : Nat) (h : k.format = some (bits, expb)) (hq : finiteValue it.real = some q) :
    encBytes c k ord it idx d =
      .ok ⟨bytesIn c.hostOrder (packOrDraw c.quantize q bits expb d).value k.size,
        (packOrDraw c.quantize q bits expb d).draws⟩ := by
  unfold encBytes
  rw [h]
  simp only [hq]

/-- `enc_bytes` on a non-finite float item (41_ieee754_packer R115). -/
theorem encBytes_nonfinite {k : Kind} {it : Item} (c : Params) (ord : ByteOrder) (idx d : Nat)
    (h : k.isFloat = true) (hq : finiteValue it.real = none) :
    encBytes c k ord it idx d = .error ⟨.nonfiniteOperand, idx⟩ := by
  unfold encBytes
  cases hf : k.format with
  | none => simp [Kind.isFloat, hf] at h
  | some f => simp only [hq]

/-- What `enc_bytes` can do: exactly `size(k)` bytes, or NONFINITE_OPERAND with the item's index. -/
theorem encBytes_cases (c : Params) (k : Kind) (ord : ByteOrder) (it : Item) (idx d : Nat) :
    (∃ e, encBytes c k ord it idx d = .ok e ∧ e.bytes.length = k.size ∧ d ≤ e.draws) ∨
      (encBytes c k ord it idx d = .error ⟨.nonfiniteOperand, idx⟩ ∧ k.isFloat = true ∧
        finiteValue it.real = none) := by
  cases hf : k.isFloat with
  | false => exact .inl ⟨_, encBytes_integer c ord it idx d hf, by simp, le_rfl⟩
  | true =>
    obtain ⟨⟨bits, expb⟩, hfmt⟩ := Option.isSome_iff_exists.1 hf
    cases hq : finiteValue it.real with
    | none => exact .inr ⟨encBytes_nonfinite c ord idx d hf hq, rfl, rfl⟩
    | some q =>
      refine .inl ⟨_, encBytes_float c ord idx d hfmt hq, by simp, ?_⟩
      rcases packOrDraw_cases c.quantize q bits expb d with ⟨p, -, e⟩ | ⟨-, e⟩ <;> simp [e]

/-- `dec_item` on an integer kind (42_fixed_width_codec R132). -/
theorem decItem_integer {k : Kind} (c : Params) (ord : ByteOrder) (bs : List Byte) (h : k.isFloat = false) :
    decItem c k ord bs =
      ⟨k.code, if k.signed then sext (8 * k.size) (valIn ord bs) else zext (valIn ord bs), .fin 0⟩ := by
  unfold decItem
  rw [Kind.isFloat_eq_false.1 h]

/-- `dec_item` on a float kind (42_fixed_width_codec R132). -/
theorem decItem_float {k : Kind} {bits expb : Nat} (c : Params) (ord : ByteOrder) (bs : List Byte)
    (h : k.format = some (bits, expb)) :
    decItem c k ord bs = ⟨k.code, 0, .fin (unpack (valIn c.hostOrder bs) bits expb)⟩ := by
  unfold decItem
  rw [h]

@[simp] theorem decItem_kind (c : Params) (k : Kind) (ord : ByteOrder) (bs : List Byte) :
    (decItem c k ord bs).kind = k.code := by
  unfold decItem
  split <;> rfl

/-- The real field of a decoded item is always `Fin q` (41_ieee754_packer R116). -/
theorem decItem_real (c : Params) (k : Kind) (ord : ByteOrder) (bs : List Byte) :
    ∃ q, (decItem c k ord bs).real = .fin q := by
  unfold decItem
  split <;> exact ⟨_, rfl⟩

/-! ### Lists of items -/

/-- What `taggedItems` can do: every item with the kind its code names, or ILLEGAL_COMMAND for the lowest reserved
kind (43_variadic_codec R164). -/
theorem taggedItems_ok {idx : Nat} {l : List Item} {t : List (Kind × Item)} (h : taggedItems idx l = .ok t) :
    t.map Prod.snd = l ∧ (∀ p ∈ t, p.2.kind = p.1.code) ∧ t.length = l.length := by
  induction l generalizing idx t with
  | nil =>
    cases h
    simp
  | cons it l ih =>
    unfold taggedItems at h
    split at h
    · cases h
    · rename_i k hk
      split at h
      · cases h
      · rename_i rest hr
        cases h
        obtain ⟨h1, h2, h3⟩ := ih hr
        refine ⟨by simp [h1], ?_, by simp [h3]⟩
        rintro p hp
        rcases List.mem_cons.1 hp with rfl | hp
        · exact Kind.code_of_ofCode hk
        · exact h2 p hp

/-- `taggedItems` succeeds on items whose kinds are legal. -/
theorem taggedItems_of_tagged (idx : Nat) (t : List (Kind × Item)) (h : ∀ p ∈ t, p.2.kind = p.1.code) :
    taggedItems idx (t.map Prod.snd) = .ok t := by
  induction t generalizing idx with
  | nil => rfl
  | cons p t ih =>
    rw [List.map_cons, taggedItems, h p (by simp), Kind.ofCode_code,
      ih (idx + 1) fun q hq => h q (by simp [hq])]

/-- `taggedItems` fails exactly at the lowest index whose kind is reserved (43_variadic_codec R164). -/
theorem taggedItems_error {idx : Nat} {l : List Item} {r : Raise} (h : taggedItems idx l = .error r) :
    ∃ i, ∃ hi : i < l.length, r = ⟨.illegalCommand, idx + i + 1⟩ ∧ 10 ≤ (l[i]).kind.toNat ∧
      ∀ j, ∀ hj : j < i, (l[j]'(by omega)).kind.toNat ≤ 9 := by
  induction l generalizing idx with
  | nil => cases h
  | cons it l ih =>
    unfold taggedItems at h
    split at h
    · rename_i hk
      cases h
      exact ⟨0, by simp, rfl, (Kind.ofCode_eq_none _).1 hk, fun j hj => by omega⟩
    · rename_i k hk
      have hlt : it.kind.toNat ≤ 9 := by
        by_contra hc
        rw [(Kind.ofCode_eq_none _).2 (by omega)] at hk
        cases hk
      split at h
      · rename_i r' hr
        cases h
        obtain ⟨i, hi, h1, h2, h3⟩ := ih hr
        refine ⟨i + 1, by simpa using hi, by rw [h1]; congr 1; omega, by simpa using h2, fun j hj => ?_⟩
        cases j with
        | zero => simpa using hlt
        | succ j => simpa using h3 j (by omega)
      · cases h

@[simp] theorem totalSize_nil : totalSize [] = 0 := rfl

@[simp] theorem totalSize_cons (k : Kind) (ks : List Kind) : totalSize (k :: ks) = k.size + totalSize ks := by
  simp [totalSize]

@[simp] theorem totalSize_append (as bs : List Kind) : totalSize (as ++ bs) = totalSize as + totalSize bs := by
  simp [totalSize]

@[simp] theorem totalSize_replicate (n : Nat) (k : Kind) : totalSize (List.replicate n k) = n * k.size := by
  simp [totalSize]

/-- `encItems` gives the bytes of every item, as many as the kinds' widths sum to (43_variadic_codec R161). -/
theorem encItems_ok {c : Params} {ord : ByteOrder} {idx d : Nat} {l : List (Kind × Item)} {e : Encoded}
    (h : encItems c ord idx d l = .ok e) : e.bytes.length = totalSize (l.map Prod.fst) ∧ d ≤ e.draws := by
  induction l generalizing idx d e with
  | nil =>
    cases h
    simp
  | cons p l ih =>
    obtain ⟨k, it⟩ := p
    unfold encItems at h
    rcases encBytes_cases c k ord it idx d with ⟨e1, he, hl, hd⟩ | ⟨he, -, -⟩
    · rw [he] at h
      dsimp only at h
      split at h
      · cases h
      · rename_i rest hr
        cases h
        obtain ⟨h1, h2⟩ := ih hr
        exact ⟨by simp [hl, h1], le_trans hd h2⟩
    · rw [he] at h
      cases h

/-- `encItems` fails exactly at the lowest index whose float item is not finite (41_ieee754_packer R115). -/
theorem encItems_error {c : Params} {ord : ByteOrder} {idx d : Nat} {l : List (Kind × Item)} {r : Raise}
    (h : encItems c ord idx d l = .error r) :
    ∃ i, ∃ hi : i < l.length, r = ⟨.nonfiniteOperand, idx + i⟩ ∧ (l[i]).1.isFloat = true ∧
      finiteValue (l[i]).2.real = none ∧
      ∀ j, ∀ hj : j < i, (l[j]'(by omega)).1.isFloat = true → finiteValue (l[j]'(by omega)).2.real ≠ none := by
  induction l generalizing idx d with
  | nil => cases h
  | cons p l ih =>
    obtain ⟨k, it⟩ := p
    unfold encItems at h
    rcases encBytes_cases c k ord it idx d with ⟨e1, he, -, -⟩ | ⟨he, hf, hq⟩
    · rw [he] at h
      dsimp only at h
      split at h
      · rename_i r' hr
        cases h
        obtain ⟨i, hi, h1, h2, h3, h4⟩ := ih hr
        refine ⟨i + 1, by simpa using hi, by rw [h1]; congr 1; omega, by simpa using h2, by simpa using h3,
          fun j hj => ?_⟩
        cases j with
        | zero =>
          intro hf hn
          rw [encBytes_nonfinite c ord idx d (by simpa using hf) (by simpa using hn)] at he
          cases he
        | succ j => simpa using h4 j (by omega)
      · cases h
    · rw [he] at h
      cases h
      exact ⟨0, by simp, rfl, hf, hq, fun j hj => by omega⟩

/-- The bytes of two lists in a row are the bytes of the first, then those of the second. -/
theorem encItems_append {c : Params} {ord : ByteOrder} {idx d : Nat} {as bs : List (Kind × Item)} {e f : Encoded}
    (ha : encItems c ord idx d as = .ok e) (hb : encItems c ord (idx + as.length) e.draws bs = .ok f) :
    encItems c ord idx d (as ++ bs) = .ok ⟨e.bytes ++ f.bytes, f.draws⟩ := by
  induction as generalizing idx d e with
  | nil =>
    cases ha
    simpa using hb
  | cons p as ih =>
    obtain ⟨k, it⟩ := p
    unfold encItems at ha
    rcases encBytes_cases c k ord it idx d with ⟨e1, he, -, -⟩ | ⟨he, -, -⟩
    · rw [he] at ha
      dsimp only at ha
      split at ha
      · cases ha
      · rename_i rest hr
        cases ha
        have := ih hr (by rw [show idx + 1 + as.length = idx + (as.length + 1) by omega]; exact hb)
        rw [List.cons_append, encItems, he]
        dsimp only
        rw [this]
        simp
    · rw [he] at ha
      cases ha

@[simp] theorem length_decItems (c : Params) (ord : ByteOrder) (m : Memory) (off : Nat) (ks : List Kind) :
    (decItems c ord m off ks).length = ks.length := by
  induction ks generalizing off with
  | nil => rfl
  | cons k ks ih => simp [decItems, ih]

/-- Item i is read at the sum of the widths before it (43_variadic_codec R161). -/
theorem getElem_decItems (c : Params) (ord : ByteOrder) (m : Memory) (off : Nat) (ks : List Kind) (i : Nat)
    (h : i < ks.length) :
    (decItems c ord m off ks)[i]'(by simpa using h) =
      decItem c ks[i] ord (m.readBytes (off + totalSize (ks.take i)) ks[i].size) := by
  induction ks generalizing off i with
  | nil => simp at h
  | cons k ks ih =>
    cases i with
    | zero => simp [decItems]
    | succ i => simp [decItems, ih _ _ (by simpa using h), Nat.add_assoc]

/-- Items are read from the bytes of their own region only. -/
theorem decItems_congr {c : Params} {ord : ByteOrder} {m m' : Memory} {off : Nat} {ks : List Kind}
    (h : ∀ i < totalSize ks, m.read (off + i) = m'.read (off + i)) :
    decItems c ord m off ks = decItems c ord m' off ks := by
  induction ks generalizing off with
  | nil => rfl
  | cons k ks ih =>
    rw [totalSize_cons] at h
    rw [decItems, decItems, readBytes_congr fun i hi => h i (by omega), ih fun i hi => ?_]
    have := h (k.size + i) (by omega)
    rwa [← Nat.add_assoc] at this

/-! ### Capacity, store and fault -/

/-- What the capacity check can do: the rest of the command runs, or CAPACITY is raised with the end offset
(20_memory R53). -/
theorem guardCapacity_cases (off n : Nat) (s : State) (go : Result) :
    (off + n ≤ s.cfg.bufCap ∧ guardCapacity off n s go = go) ∨
      (s.cfg.bufCap < off + n ∧ guardCapacity off n s go = raiseFault ⟨.capacity, off + n⟩ s) := by
  unfold guardCapacity
  split
  · exact .inl ⟨‹_›, rfl⟩
  · exact .inr ⟨not_le.1 ‹_›, rfl⟩

theorem guardCapacity_ok {off n : Nat} {s : State} (go : Result) (h : off + n ≤ s.cfg.bufCap) :
    guardCapacity off n s go = go := if_pos h

theorem guardCapacity_fault {off n : Nat} {s : State} (go : Result) (h : s.cfg.bufCap < off + n) :
    guardCapacity off n s go = raiseFault ⟨.capacity, off + n⟩ s := if_neg (not_le.2 h)

theorem storeRecord_ok {total : Nat} {e : Encoded} {s : State} (h : s.reqOff.toNat + total ≤ s.cfg.bufCap) :
    storeRecord total e s = .next (s.stored total e) := guardCapacity_ok _ h

theorem storeRecord_fault {total : Nat} {e : Encoded} {s : State} (h : s.cfg.bufCap < s.reqOff.toNat + total) :
    storeRecord total e s = raiseFault ⟨.capacity, s.reqOff.toNat + total⟩ s := guardCapacity_fault _ h

end Sys2Proof.Machine
end

