-- ==== Sys2Proof/Laws/Commands.lean ====
section
/-! SUPPORT. What each command can do, said once: its faults, in the order the spec checks them, and the one state it
leaves otherwise. Later proofs cite these and unfold no command. -/

namespace Sys2Proof.Machine

/-- Every `ENC.<k>` is the ENC template at k (42_fixed_width_codec R133). -/
@[simp] theorem exec_enc (k : Kind) (ord : ByteOrder) (s : State) :
    exec (Instr.enc k ord) s = encCommand k ord s := by
  cases k <;> rfl

/-- Every `DEC.<k>` is the DEC template at k (42_fixed_width_codec R134). -/
@[simp] theorem exec_dec (k : Kind) (ord : ByteOrder) (s : State) :
    exec (Instr.dec k ord) s = decCommand k ord s := by
  cases k <;> rfl

/-- What FPACK can do. -/
theorem execFpack_cases (bits expb : BitVec 7) (s : State) :
    (finiteValue s.reqFval = none ∧ execFpack bits expb s = .next (s.recordFault ⟨.nonfiniteOperand, 0⟩)) ∨
      ∃ q, finiteValue s.reqFval = some q ∧
        execFpack bits expb s =
          .next ((s.setRspWord (BitVec.ofNat 64
            (packOrDraw s.cfg.quantize q bits.toNat expb.toNat s.drawCount).value)).setDrawCount
            (packOrDraw s.cfg.quantize q bits.toNat expb.toNat s.drawCount).draws) := by
  unfold execFpack
  split
  · exact .inl ⟨by assumption, rfl⟩
  · exact .inr ⟨_, by assumption, rfl⟩

/-- What an ENC command can do: NONFINITE_OPERAND, then CAPACITY, or the store. -/
theorem encCommand_cases (k : Kind) (ord : ByteOrder) (s : State) :
    (k.isFloat = true ∧ finiteValue s.reqFval = none ∧
        encCommand k ord s = .next (s.recordFault ⟨.nonfiniteOperand, 0⟩)) ∨
      ∃ e, encBytes s.cfg k ord ⟨k.code, s.reqWord, s.reqFval⟩ 0 s.drawCount = .ok e ∧
        e.bytes.length = k.size ∧
        ((s.cfg.bufCap < s.reqOff.toNat + k.size ∧
            encCommand k ord s = .next (s.recordFault ⟨.capacity, s.reqOff.toNat + k.size⟩)) ∨
          (s.reqOff.toNat + k.size ≤ s.cfg.bufCap ∧ encCommand k ord s = .next (s.stored k.size e))) := by
  rcases encBytes_cases s.cfg k ord ⟨k.code, s.reqWord, s.reqFval⟩ 0 s.drawCount with
    ⟨e, he, hl, -⟩ | ⟨he, hf, hq⟩
  · refine .inr ⟨e, he, hl, ?_⟩
    unfold encCommand
    rw [he]
    rcases Nat.lt_or_ge s.cfg.bufCap (s.reqOff.toNat + k.size) with h | h
    · exact .inl ⟨h, storeRecord_fault h⟩
    · exact .inr ⟨h, storeRecord_ok h⟩
  · refine .inl ⟨hf, hq, ?_⟩
    unfold encCommand
    rw [he]
    rfl

/-- The state a DEC command leaves (42_fixed_width_codec R134). -/
theorem decCommand_ok {k : Kind} (ord : ByteOrder) {s : State} (h : s.reqOff.toNat + k.size ≤ s.cfg.bufCap) :
    decCommand k ord s =
      .next (State.setRspLen (BitVec.ofNat 64 k.size)
        (if k.isFloat then s.setRspFval (decItem s.cfg k ord (s.buf.readBytes s.reqOff.toNat k.size)).real
          else s.setRspWord (decItem s.cfg k ord (s.buf.readBytes s.reqOff.toNat k.size)).word)) :=
  guardCapacity_ok _ h

/-- DEC beyond the capacity (20_memory R53). -/
theorem decCommand_fault {k : Kind} (ord : ByteOrder) {s : State} (h : s.cfg.bufCap < s.reqOff.toNat + k.size) :
    decCommand k ord s = .next (s.recordFault ⟨.capacity, s.reqOff.toNat + k.size⟩) :=
  guardCapacity_fault _ h

/-- What VENC can do: ILLEGAL_COMMAND, then NONFINITE_OPERAND, then CAPACITY, or the store. -/
theorem execVenc_cases (ord : ByteOrder) (s : State) :
    (∃ r, taggedItems 0 s.reqList = .error r ∧ execVenc ord s = .next (s.recordFault r)) ∨
      ∃ l, taggedItems 0 s.reqList = .ok l ∧
        ((∃ r, encItems s.cfg ord 0 s.drawCount l = .error r ∧ execVenc ord s = .next (s.recordFault r)) ∨
          ∃ e, encItems s.cfg ord 0 s.drawCount l = .ok e ∧
            ((s.cfg.bufCap < s.reqOff.toNat + e.bytes.length ∧
                execVenc ord s = .next (s.recordFault ⟨.capacity, s.reqOff.toNat + e.bytes.length⟩)) ∨
              (s.reqOff.toNat + e.bytes.length ≤ s.cfg.bufCap ∧
                execVenc ord s = .next (s.stored e.bytes.length e)))) := by
  unfold execVenc
  cases ht : taggedItems 0 s.reqList with
  | error r => exact .inl ⟨r, rfl, rfl⟩
  | ok l =>
    refine .inr ⟨l, rfl, ?_⟩
    dsimp only
    cases he : encItems s.cfg ord 0 s.drawCount l with
    | error r => exact .inl ⟨r, rfl, rfl⟩
    | ok e =>
      refine .inr ⟨e, rfl, ?_⟩
      rcases Nat.lt_or_ge s.cfg.bufCap (s.reqOff.toNat + e.bytes.length) with h | h
      · exact .inl ⟨h, storeRecord_fault h⟩
      · exact .inr ⟨h, storeRecord_ok h⟩

/-- What VDEC can do: ILLEGAL_COMMAND, then CAPACITY, or the decoded list. -/
theorem execVdec_cases (ord : ByteOrder) (s : State) :
    (∃ r, taggedItems 0 s.reqList = .error r ∧ execVdec ord s = .next (s.recordFault r)) ∨
      ∃ l, taggedItems 0 s.reqList = .ok l ∧
        ((s.cfg.bufCap < s.reqOff.toNat + totalSize (l.map Prod.fst) ∧
            execVdec ord s =
              .next (s.recordFault ⟨.capacity, s.reqOff.toNat + totalSize (l.map Prod.fst)⟩)) ∨
          (s.reqOff.toNat + totalSize (l.map Prod.fst) ≤ s.cfg.bufCap ∧
            execVdec ord s =
              .next ((s.setRspList (decItems s.cfg ord s.buf s.reqOff.toNat (l.map Prod.fst))).setRspLen
                (BitVec.ofNat 64 (totalSize (l.map Prod.fst)))))) := by
  unfold execVdec
  cases ht : taggedItems 0 s.reqList with
  | error r => exact .inl ⟨r, rfl, rfl⟩
  | ok l =>
    refine .inr ⟨l, rfl, ?_⟩
    rcases Nat.lt_or_ge s.cfg.bufCap (s.reqOff.toNat + totalSize (l.map Prod.fst)) with h | h
    · exact .inl ⟨h, guardCapacity_fault _ h⟩
    · exact .inr ⟨h, guardCapacity_ok _ h⟩

/-- What LPENC can do: COUNT_RANGE, then NONFINITE_OPERAND, then CAPACITY, or the store. -/
theorem execLpenc_cases (ord : ByteOrder) (ek : Kind) (ck : CountKind) (s : State) :
    (2 ^ (8 * ck.size) - 1 < s.reqList.length ∧
        execLpenc ord ek ck s = .next (s.recordFault ⟨.countRange, s.reqList.length⟩)) ∨
      (s.reqList.length ≤ 2 ^ (8 * ck.size) - 1 ∧
        ((∃ r, encItems s.cfg ord 0 s.drawCount (s.reqList.map fun it => (ek, it)) = .error r ∧
            execLpenc ord ek ck s = .next (s.recordFault r)) ∨
          ∃ e, encItems s.cfg ord 0 s.drawCount (s.reqList.map fun it => (ek, it)) = .ok e ∧
            e.bytes.length = s.reqList.length * ek.size ∧
            ((s.cfg.bufCap < s.reqOff.toNat + (ck.size + s.reqList.length * ek.size) ∧
                execLpenc ord ek ck s =
                  .next (s.recordFault
                    ⟨.capacity, s.reqOff.toNat + (ck.size + s.reqList.length * ek.size)⟩)) ∨
              (s.reqOff.toNat + (ck.size + s.reqList.length * ek.size) ≤ s.cfg.bufCap ∧
                execLpenc ord ek ck s =
                  .next (s.stored (ck.size + s.reqList.length * ek.size)
                    ⟨bytesIn ord s.reqList.length ck.size ++ e.bytes, e.draws⟩))))) := by
  unfold execLpenc
  dsimp only
  by_cases hn : 2 ^ (8 * ck.size) - 1 < s.reqList.length
  · exact .inl ⟨hn, if_pos hn⟩
  · refine .inr ⟨not_lt.1 hn, ?_⟩
    rw [if_neg hn]
    cases he : encItems s.cfg ord 0 s.drawCount (s.reqList.map fun it => (ek, it)) with
    | error r => exact .inl ⟨r, rfl, rfl⟩
    | ok e =>
      have hlen : e.bytes.length = s.reqList.length * ek.size := by
        rw [(encItems_ok he).1, List.map_map]
        simp [totalSize, Function.comp_def]
      refine .inr ⟨e, rfl, hlen, ?_⟩
      rcases Nat.lt_or_ge s.cfg.bufCap (s.reqOff.toNat + (ck.size + s.reqList.length * ek.size)) with h | h
      · exact .inl ⟨h, storeRecord_fault h⟩
      · exact .inr ⟨h, storeRecord_ok h⟩

/-- The count field LPDEC reads (44_length_prefixed_codec R187). -/
abbrev countField (ord : ByteOrder) (ck : CountKind) (s : State) : Nat :=
  valIn ord (s.buf.readBytes s.reqOff.toNat ck.size)

/-- What LPDEC can do: CAPACITY for the count, the sentinel, LIST_RANGE, CAPACITY for the elements, or the decoded
list, in that order. -/
theorem execLpdec_cases (ord : ByteOrder) (ek : Kind) (ck : CountKind) (s : State) :
    (s.cfg.bufCap < s.reqOff.toNat + ck.size ∧
        execLpdec ord ek ck s = .next (s.recordFault ⟨.capacity, s.reqOff.toNat + ck.size⟩)) ∨
      (s.reqOff.toNat + ck.size ≤ s.cfg.bufCap ∧
        ((s.reqMax.toNat < countField ord ck s ∧
            execLpdec ord ek ck s = .next ((s.setRspLen sentinel).setRspList [])) ∨
          (countField ord ck s ≤ s.reqMax.toNat ∧
            ((s.cfg.maxList < countField ord ck s ∧
                execLpdec ord ek ck s = .next (s.recordFault ⟨.listRange, countField ord ck s⟩)) ∨
              (countField ord ck s ≤ s.cfg.maxList ∧
                ((s.cfg.bufCap < s.reqOff.toNat + (ck.size + countField ord ck s * ek.size) ∧
                    execLpdec ord ek ck s =
                      .next (s.recordFault
                        ⟨.capacity, s.reqOff.toNat + (ck.size + countField ord ck s * ek.size)⟩)) ∨
                  (s.reqOff.toNat + (ck.size + countField ord ck s * ek.size) ≤ s.cfg.bufCap ∧
                    execLpdec ord ek ck s =
                      .next ((s.setRspList (decItems s.cfg ord s.buf (s.reqOff.toNat + ck.size)
                        (List.replicate (countField ord ck s) ek))).setRspLen
                        (BitVec.ofNat 64 (ck.size + countField ord ck s * ek.size)))))))))) := by
  unfold execLpdec
  dsimp only
  rcases Nat.lt_or_ge s.cfg.bufCap (s.reqOff.toNat + ck.size) with h | h
  · exact .inl ⟨h, guardCapacity_fault _ h⟩
  · refine .inr ⟨h, ?_⟩
    rw [guardCapacity_ok _ h]
    by_cases hg : s.reqMax.toNat < countField ord ck s
    · exact .inl ⟨hg, if_pos hg⟩
    · refine .inr ⟨not_lt.1 hg, ?_⟩
      rw [if_neg hg]
      by_cases hm : s.cfg.maxList < countField ord ck s
      · exact .inl ⟨hm, if_pos hm⟩
      · refine .inr ⟨not_lt.1 hm, ?_⟩
        rw [if_neg hm]
        rcases Nat.lt_or_ge s.cfg.bufCap (s.reqOff.toNat + (ck.size + countField ord ck s * ek.size)) with hc | hc
        · exact .inl ⟨hc, guardCapacity_fault _ hc⟩
        · exact .inr ⟨hc, guardCapacity_ok _ hc⟩

/-! ### The step -/

/-- With no access pending the block holds its state. -/
theorem step_idle {s : State} (h : s.host = []) : step s = .next s := by
  unfold step
  rw [h]

/-- With an access pending, the step makes it. -/
theorem step_access {s : State} {op : HostOp} {rest : List HostOp} (h : s.host = op :: rest) :
    step s = hostAccess op (s.setHost rest) := by
  unfold step
  rw [h]

/-- What issuing a command can do (10_state R40). -/
theorem issue_cases (w : CommandWord) (s : State) :
    (faultValid s = true ∧ issue w s = .next (s.acceptCommand w)) ∨
      (faultValid s = false ∧
        ((∃ i, decode w = .command i ∧ issue w s = exec i (s.acceptCommand w)) ∨
          ∃ why, decode w = .illegal why ∧
            issue w s = .next ((s.acceptCommand w).recordFault ⟨.illegalCommand, 0⟩))) := by
  unfold issue
  cases hf : faultValid s with
  | true => exact .inl ⟨rfl, rfl⟩
  | false =>
    refine .inr ⟨rfl, ?_⟩
    cases hd : decode w with
    | command i => exact .inl ⟨i, rfl, rfl⟩
    | illegal why => exact .inr ⟨why, rfl, rfl⟩

@[simp] theorem withFetchWord_host (s : State) (nbits w : Nat) :
    (s.withFetchWord nbits w).host = issueAccess (w % 2 ^ nbits) :: s.host := rfl

/-- A word placed for the fetch is issued by the very next step. -/
theorem step_withFetchWord (s : State) (nbits w : Nat) :
    step (s.withFetchWord nbits w) = issue (BitVec.ofNat 32 (w % 2 ^ nbits)) s := rfl

end Sys2Proof.Machine
end

