-- ==== Sys2Proof/Laws/Encoding.lean ====
section
/-! SUPPORT. The laws of the command word: a field of a packed word is the field it was packed from, the parts of a
word pack back to it, and a word matches a row when its fields do. -/

namespace Sys2Proof

variable (opc : BitVec 4) (ord : BitVec 1) (ek : BitVec 4) (ck : BitVec 2) (bits expb : BitVec 7)

/-- A packed word as a number. -/
theorem toNat_packWord : (packWord opc ord ek ck bits expb).toNat =
    opc.toNat + 2 ^ 4 * ord.toNat + 2 ^ 5 * ek.toNat + 2 ^ 9 * ck.toNat + 2 ^ 11 * bits.toNat +
      2 ^ 18 * expb.toNat := by
  have h1 := opc.isLt
  have h2 := ord.isLt
  have h3 := ek.isLt
  have h4 := ck.isLt
  have h5 := bits.isLt
  have h6 := expb.isLt
  rw [packWord, BitVec.toNat_ofNat]
  omega

/-- A field is its bits of the word's number. -/
theorem toNat_extractLsb (w : CommandWord) (lo len : Nat) :
    (w.extractLsb' lo len).toNat = w.toNat / 2 ^ lo % 2 ^ len := by
  rw [BitVec.extractLsb'_toNat, Nat.shiftRight_eq_div_pow]

@[simp] theorem opcOf_packWord : opcOf (packWord opc ord ek ck bits expb) = opc := by
  apply BitVec.eq_of_toNat_eq
  rw [opcOf, toNat_extractLsb, toNat_packWord]
  omega

/-- Bit 4 of a packed word is its ORD bit. -/
theorem getLsbD_packWord : (packWord opc ord ek ck bits expb).getLsbD 4 = decide (ord.toNat = 1) := by
  have h1 := opc.isLt
  have h2 := ord.isLt
  rw [BitVec.getLsbD, toNat_packWord, Nat.testBit_eq_decide_div_mod_eq]
  congr 1
  simp only [eq_iff_iff]
  omega

@[simp] theorem getElem_packWord : (packWord opc ord ek ck bits expb)[4] = decide (ord.toNat = 1) := by
  rw [← getLsbD_packWord opc ord ek ck bits expb]
  rfl

@[simp] theorem ordOf_packWord (o : ByteOrder) : ordOf (packWord opc o.code ek ck bits expb) = o := by
  rw [ordOf, getLsbD_packWord]
  cases o <;> decide

@[simp] theorem ekOf_packWord : ekOf (packWord opc ord ek ck bits expb) = ek := by
  apply BitVec.eq_of_toNat_eq
  rw [ekOf, toNat_extractLsb, toNat_packWord]
  omega

@[simp] theorem ckOf_packWord : ckOf (packWord opc ord ek ck bits expb) = ck := by
  apply BitVec.eq_of_toNat_eq
  rw [ckOf, toNat_extractLsb, toNat_packWord]
  omega

@[simp] theorem bitsOf_packWord : bitsOf (packWord opc ord ek ck bits expb) = bits := by
  apply BitVec.eq_of_toNat_eq
  rw [bitsOf, toNat_extractLsb, toNat_packWord]
  omega

@[simp] theorem expbOf_packWord : expbOf (packWord opc ord ek ck bits expb) = expb := by
  apply BitVec.eq_of_toNat_eq
  rw [expbOf, toNat_extractLsb, toNat_packWord]
  omega

@[simp] theorem resOf_packWord : resOf (packWord opc ord ek ck bits expb) = 0 := by
  apply BitVec.eq_of_toNat_eq
  rw [resOf, toNat_extractLsb, toNat_packWord]
  simp
  omega

/-- A word is its fields. -/
theorem word_eq_fields (w : CommandWord) :
    w.toNat = (opcOf w).toNat + 2 ^ 4 * (ordOf w).code.toNat + 2 ^ 5 * (ekOf w).toNat + 2 ^ 9 * (ckOf w).toNat +
      2 ^ 11 * (bitsOf w).toNat + 2 ^ 18 * (expbOf w).toNat + 2 ^ 25 * (resOf w).toNat := by
  have ho : (ordOf w).code.toNat = w.toNat / 2 ^ 4 % 2 := by
    rw [ordOf, BitVec.getLsbD, Nat.testBit_eq_decide_div_mod_eq]
    by_cases h : w.toNat / 2 ^ 4 % 2 = 1
    · rw [decide_eq_true h, h]
      rfl
    · rw [decide_eq_false h]
      have : w.toNat / 2 ^ 4 % 2 = 0 := by omega
      rw [this]
      rfl
  have hw := w.isLt
  rw [ho, opcOf, ekOf, ckOf, bitsOf, expbOf, resOf]
  simp only [toNat_extractLsb]
  omega

/-- A word with RES = 0 packs back from its fields. -/
theorem packWord_fields {w : CommandWord} (h : resOf w = 0) :
    packWord (opcOf w) (ordOf w).code (ekOf w) (ckOf w) (bitsOf w) (expbOf w) = w := by
  apply BitVec.eq_of_toNat_eq
  rw [toNat_packWord, word_eq_fields w, h]
  simp

/-- Two words with the same fields are equal. -/
theorem word_ext {w v : CommandWord} (h1 : opcOf w = opcOf v) (h2 : w.getLsbD 4 = v.getLsbD 4)
    (h3 : ekOf w = ekOf v) (h4 : ckOf w = ckOf v) (h5 : bitsOf w = bitsOf v) (h6 : expbOf w = expbOf v)
    (h7 : resOf w = resOf v) : w = v := by
  apply BitVec.eq_of_toNat_eq
  rw [word_eq_fields w, word_eq_fields v, ordOf, ordOf, h1, h2, h3, h4, h5, h6, h7]

/-- A word matches a row exactly when each of its fields does (30_encoding R77). -/
theorem hits_iff (r : Row) (w : CommandWord) :
    r.hits w = true ↔
      (opcOf w &&& opcOf r.mask) = opcOf r.value ∧ (w.getLsbD 4 && r.mask.getLsbD 4) = r.value.getLsbD 4 ∧
        (ekOf w &&& ekOf r.mask) = ekOf r.value ∧ (ckOf w &&& ckOf r.mask) = ckOf r.value ∧
        (bitsOf w &&& bitsOf r.mask) = bitsOf r.value ∧ (expbOf w &&& expbOf r.mask) = expbOf r.value ∧
        (resOf w &&& resOf r.mask) = resOf r.value := by
  have e : ∀ lo len : Nat, (w &&& r.mask).extractLsb' lo len =
      (w.extractLsb' lo len &&& r.mask.extractLsb' lo len) := fun lo len => BitVec.extractLsb'_and
  simp only [Row.hits, beq_iff_eq]
  constructor
  · intro h
    rw [← h]
    simp only [opcOf, ekOf, ckOf, bitsOf, expbOf, resOf, e, BitVec.getLsbD_and, and_self]
  · rintro ⟨h1, h2, h3, h4, h5, h6, h7⟩
    apply word_ext
    all_goals first
      | simpa only [opcOf, e] using h1
      | simpa only [BitVec.getLsbD_and] using h2
      | simpa only [ekOf, e] using h3
      | simpa only [ckOf, e] using h4
      | simpa only [bitsOf, e] using h5
      | simpa only [expbOf, e] using h6
      | simpa only [resOf, e] using h7

/-- A row of the packer: BITS and EXPB are free (30_encoding R77). -/
theorem hits_format (m : String) (v : CommandWord) (b : CommandWord → Verdict) (w : CommandWord) :
    Row.hits ⟨m, v, 0xFE0007FF, b⟩ w = true ↔
      opcOf w = opcOf v ∧ w.getLsbD 4 = v.getLsbD 4 ∧ ekOf w = ekOf v ∧ ckOf w = ckOf v ∧
        bitsOf v = 0 ∧ expbOf v = 0 ∧ resOf w = resOf v := by
  rw [hits_iff]
  have h0 : opcOf (0xFE0007FF : CommandWord) = BitVec.allOnes 4 := by decide
  have h1 : (0xFE0007FF : CommandWord).getLsbD 4 = true := by decide
  have h2 : ekOf (0xFE0007FF : CommandWord) = BitVec.allOnes 4 := by decide
  have h3 : ckOf (0xFE0007FF : CommandWord) = BitVec.allOnes 2 := by decide
  have h4 : bitsOf (0xFE0007FF : CommandWord) = 0#7 := by decide
  have h5 : expbOf (0xFE0007FF : CommandWord) = 0#7 := by decide
  have h6 : resOf (0xFE0007FF : CommandWord) = BitVec.allOnes 7 := by decide
  simp only [h0, h1, h2, h3, h4, h5, h6, BitVec.and_allOnes, BitVec.and_zero, Bool.and_true, @eq_comm _ (0#7)]
  rfl

/-- A row of ENC, DEC, VENC or VDEC: ORD is free (30_encoding R77). -/
theorem hits_order (m : String) (v : CommandWord) (b : CommandWord → Verdict) (w : CommandWord) :
    Row.hits ⟨m, v, 0xFFFFFFEF, b⟩ w = true ↔
      opcOf w = opcOf v ∧ v.getLsbD 4 = false ∧ ekOf w = ekOf v ∧ ckOf w = ckOf v ∧
        bitsOf w = bitsOf v ∧ expbOf w = expbOf v ∧ resOf w = resOf v := by
  rw [hits_iff]
  have h0 : opcOf (0xFFFFFFEF : CommandWord) = BitVec.allOnes 4 := by decide
  have h1 : (0xFFFFFFEF : CommandWord).getLsbD 4 = false := by decide
  have h2 : ekOf (0xFFFFFFEF : CommandWord) = BitVec.allOnes 4 := by decide
  have h3 : ckOf (0xFFFFFFEF : CommandWord) = BitVec.allOnes 2 := by decide
  have h4 : bitsOf (0xFFFFFFEF : CommandWord) = BitVec.allOnes 7 := by decide
  have h5 : expbOf (0xFFFFFFEF : CommandWord) = BitVec.allOnes 7 := by decide
  have h6 : resOf (0xFFFFFFEF : CommandWord) = BitVec.allOnes 7 := by decide
  simp only [h0, h1, h2, h3, h4, h5, h6, BitVec.and_allOnes, Bool.and_false, @eq_comm _ false]

/-- A row of LPENC or LPDEC: ORD, EK and CK are free (30_encoding R77). -/
theorem hits_frame (m : String) (v : CommandWord) (b : CommandWord → Verdict) (w : CommandWord) :
    Row.hits ⟨m, v, 0xFFFFF80F, b⟩ w = true ↔
      opcOf w = opcOf v ∧ v.getLsbD 4 = false ∧ ekOf v = 0 ∧ ckOf v = 0 ∧
        bitsOf w = bitsOf v ∧ expbOf w = expbOf v ∧ resOf w = resOf v := by
  rw [hits_iff]
  have h0 : opcOf (0xFFFFF80F : CommandWord) = BitVec.allOnes 4 := by decide
  have h1 : (0xFFFFF80F : CommandWord).getLsbD 4 = false := by decide
  have h2 : ekOf (0xFFFFF80F : CommandWord) = 0#4 := by decide
  have h3 : ckOf (0xFFFFF80F : CommandWord) = 0#2 := by decide
  have h4 : bitsOf (0xFFFFF80F : CommandWord) = BitVec.allOnes 7 := by decide
  have h5 : expbOf (0xFFFFF80F : CommandWord) = BitVec.allOnes 7 := by decide
  have h6 : resOf (0xFFFFF80F : CommandWord) = BitVec.allOnes 7 := by decide
  simp only [h0, h1, h2, h3, h4, h5, h6, BitVec.and_allOnes, BitVec.and_zero, Bool.and_false, @eq_comm _ (0#4),
    @eq_comm _ (0#2), @eq_comm _ false]
  rfl

end Sys2Proof
end

