-- ==== Sys2Proof/Laws/Faults.lean ====
section
/-! SUPPORT. The record of a fault, the shapes of a command, and what every command can do, said once for all
commands. -/

namespace Sys2Proof.Machine

/-- The word a fault writes is `(1 << 8) | cause` as a sum (60_exceptions R212). -/
theorem faultWord_eq (c : Cause) : faultWord c = BitVec.ofNat 32 (2 ^ 8 + c.code.toNat) := by
  cases c <;> decide

theorem faultWord_injective {c d : Cause} (h : faultWord c = faultWord d) : c = d := by
  cases c <;> cases d <;> first | rfl | exact absurd h (by decide)

/-- The record of a fault in the words of 60_exceptions R212 is the model's. -/
theorem faulted_eq_recordFault (s : State) (c : Cause) (n : Nat) : s.faulted c n = s.recordFault ⟨c, n⟩ := by
  rw [State.faulted, ← faultWord_eq]
  rfl

theorem faultWord_valid (c : Cause) : (faultWord c).getLsbD 8 = true := by
  cases c <;> decide

/-- After a fault FAULT.FV = 1 (60_exceptions R212). -/
@[simp] theorem faultValid_recordFault (s : State) (r : Raise) : faultValid (s.recordFault r) = true :=
  faultWord_valid r.cause

theorem faultValid_congr {s t : State} (h : t.fault = s.fault) : faultValid t = faultValid s := by
  rw [faultValid, faultValid, h]

/-- A command that ends with FAULT.FV = 0 recorded no fault. -/
theorem ne_recordFault {s t : State} (h : faultValid t = false) (r : Raise) :
    (Host.Outcome.next (s.recordFault r) : Result) ≠ .next t := by
  intro e
  cases e
  simp at h

/-- Every command is of one of the eight shapes. -/
theorem instr_shapes (i : Instr) :
    (∃ b e, i = .fpack b e) ∨ (∃ b e, i = .funpack b e) ∨ (∃ k o, i = Instr.enc k o) ∨
      (∃ k o, i = Instr.dec k o) ∨ (∃ o, i = .venc o) ∨ (∃ o, i = .vdec o) ∨
      (∃ o ek ck, i = .lpenc o ek ck) ∨ ∃ o ek ck, i = .lpdec o ek ck := by
  cases i with
  | fpack b e => exact .inl ⟨b, e, rfl⟩
  | funpack b e => exact .inr (.inl ⟨b, e, rfl⟩)
  | encU8 o => exact .inr (.inr (.inl ⟨.u8, o, rfl⟩))
  | encI8 o => exact .inr (.inr (.inl ⟨.i8, o, rfl⟩))
  | encU16 o => exact .inr (.inr (.inl ⟨.u16, o, rfl⟩))
  | encI16 o => exact .inr (.inr (.inl ⟨.i16, o, rfl⟩))
  | encU32 o => exact .inr (.inr (.inl ⟨.u32, o, rfl⟩))
  | encI32 o => exact .inr (.inr (.inl ⟨.i32, o, rfl⟩))
  | encU64 o => exact .inr (.inr (.inl ⟨.u64, o, rfl⟩))
  | encI64 o => exact .inr (.inr (.inl ⟨.i64, o, rfl⟩))
  | encF32 o => exact .inr (.inr (.inl ⟨.f32, o, rfl⟩))
  | encF64 o => exact .inr (.inr (.inl ⟨.f64, o, rfl⟩))
  | decU8 o => exact .inr (.inr (.inr (.inl ⟨.u8, o, rfl⟩)))
  | decI8 o => exact .inr (.inr (.inr (.inl ⟨.i8, o, rfl⟩)))
  | decU16 o => exact .inr (.inr (.inr (.inl ⟨.u16, o, rfl⟩)))
  | decI16 o => exact .inr (.inr (.inr (.inl ⟨.i16, o, rfl⟩)))
  | decU32 o => exact .inr (.inr (.inr (.inl ⟨.u32, o, rfl⟩)))
  | decI32 o => exact .inr (.inr (.inr (.inl ⟨.i32, o, rfl⟩)))
  | decU64 o => exact .inr (.inr (.inr (.inl ⟨.u64, o, rfl⟩)))
  | decI64 o => exact .inr (.inr (.inr (.inl ⟨.i64, o, rfl⟩)))
  | decF32 o => exact .inr (.inr (.inr (.inl ⟨.f32, o, rfl⟩)))
  | decF64 o => exact .inr (.inr (.inr (.inl ⟨.f64, o, rfl⟩)))
  | venc o => exact .inr (.inr (.inr (.inr (.inl ⟨o, rfl⟩))))
  | vdec o => exact .inr (.inr (.inr (.inr (.inr (.inl ⟨o, rfl⟩)))))
  | lpenc o ek ck => exact .inr (.inr (.inr (.inr (.inr (.inr (.inl ⟨o, ek, ck, rfl⟩))))))
  | lpdec o ek ck => exact .inr (.inr (.inr (.inr (.inr (.inr (.inr ⟨o, ek, ck, rfl⟩))))))

/-- What every command can do: record a fault, or change only response registers, BUF and the count of draws, within
the bounds of its writes. -/
theorem exec_cases (i : Instr) (s : State) :
    (∃ r, exec i s = .next (s.recordFault r)) ∨
      (∃ w d, exec i s = .next ((s.setRspWord w).setDrawCount d)) ∨
      (∃ q, exec i s = .next (s.setRspFval (.fin q))) ∨
      (∃ n e, e.bytes.length = n ∧ s.reqOff.toNat + n ≤ s.cfg.bufCap ∧ exec i s = .next (s.stored n e)) ∨
      (∃ w n, s.reqOff.toNat + n ≤ s.cfg.bufCap ∧
        exec i s = .next ((s.setRspWord w).setRspLen (BitVec.ofNat 64 n))) ∨
      (∃ q n, s.reqOff.toNat + n ≤ s.cfg.bufCap ∧
        exec i s = .next ((s.setRspFval (.fin q)).setRspLen (BitVec.ofNat 64 n))) ∨
      (∃ ord off ks n, ks.length ≤ max s.cfg.maxList s.reqList.length ∧ s.reqOff.toNat + n ≤ s.cfg.bufCap ∧
        exec i s = .next ((s.setRspList (decItems s.cfg ord s.buf off ks)).setRspLen (BitVec.ofNat 64 n))) ∨
      (exec i s = .next ((s.setRspLen sentinel).setRspList []) ∧ ∃ ord ek ck, i = .lpdec ord ek ck ∧
        s.reqMax.toNat < countField ord ck s) := by
  rcases instr_shapes i with ⟨b, e, rfl⟩ | ⟨b, e, rfl⟩ | ⟨k, o, rfl⟩ | ⟨k, o, rfl⟩ | ⟨o, rfl⟩ | ⟨o, rfl⟩ |
    ⟨o, ek, ck, rfl⟩ | ⟨o, ek, ck, rfl⟩
  · rcases execFpack_cases b e s with ⟨-, h⟩ | ⟨q, -, h⟩
    · exact .inl ⟨_, h⟩
    · exact .inr (.inl ⟨_, _, h⟩)
  · exact .inr (.inr (.inl ⟨_, rfl⟩))
  · rw [exec_enc]
    rcases encCommand_cases k o s with ⟨-, -, h⟩ | ⟨e, -, hl, ⟨-, h⟩ | ⟨hc, h⟩⟩
    · exact .inl ⟨_, h⟩
    · exact .inl ⟨_, h⟩
    · exact .inr (.inr (.inr (.inl ⟨_, e, hl, hc, h⟩)))
  · rw [exec_dec]
    rcases Nat.lt_or_ge s.cfg.bufCap (s.reqOff.toNat + k.size) with hc | hc
    · exact .inl ⟨_, decCommand_fault o hc⟩
    · rw [decCommand_ok o hc]
      cases k.isFloat with
      | false => exact .inr (.inr (.inr (.inr (.inl ⟨_, _, hc, rfl⟩))))
      | true =>
        obtain ⟨q, hq⟩ := decItem_real s.cfg k o (s.buf.readBytes s.reqOff.toNat k.size)
        rw [hq]
        exact .inr (.inr (.inr (.inr (.inr (.inl ⟨_, _, hc, rfl⟩)))))
  · rcases execVenc_cases o s with ⟨r, -, h⟩ | ⟨l, -, ⟨r, -, h⟩ | ⟨e, -, ⟨-, h⟩ | ⟨hc, h⟩⟩⟩
    · exact .inl ⟨_, h⟩
    · exact .inl ⟨_, h⟩
    · exact .inl ⟨_, h⟩
    · exact .inr (.inr (.inr (.inl ⟨_, e, rfl, hc, h⟩)))
  · rcases execVdec_cases o s with ⟨r, -, h⟩ | ⟨l, ht, ⟨-, h⟩ | ⟨hc, h⟩⟩
    · exact .inl ⟨_, h⟩
    · exact .inl ⟨_, h⟩
    · refine .inr (.inr (.inr (.inr (.inr (.inr (.inl ⟨o, _, _, _, ?_, hc, h⟩))))))
      rw [List.length_map, (taggedItems_ok ht).2.2]
      exact le_max_right _ _
  · rcases execLpenc_cases o ek ck s with ⟨-, h⟩ | ⟨-, ⟨r, -, h⟩ | ⟨e, -, hl, ⟨-, h⟩ | ⟨hc, h⟩⟩⟩
    · exact .inl ⟨_, h⟩
    · exact .inl ⟨_, h⟩
    · exact .inl ⟨_, h⟩
    · exact .inr (.inr (.inr (.inl ⟨_, _, by simp [hl], hc, h⟩)))
  · rcases execLpdec_cases o ek ck s with ⟨-, h⟩ | ⟨-, ⟨hg, h⟩ | ⟨-, ⟨-, h⟩ | ⟨hm, ⟨-, h⟩ | ⟨hc, h⟩⟩⟩⟩
    · exact .inl ⟨_, h⟩
    · exact .inr (.inr (.inr (.inr (.inr (.inr (.inr ⟨h, o, ek, ck, rfl, hg⟩))))))
    · exact .inl ⟨_, h⟩
    · exact .inl ⟨_, h⟩
    · refine .inr (.inr (.inr (.inr (.inr (.inr (.inl ⟨o, _, _, _, ?_, hc, h⟩))))))
      rw [List.length_replicate]
      exact le_trans hm (le_max_left _ _)

end Sys2Proof.Machine
end

