-- ==== Sys2Proof/Laws/PerInstr.lean ====
section
/-! SUPPORT. The per-instruction family EncodesToItsRow: the word of every command matches the row of the opcode map
that bears its mnemonic (spec/30_encoding.md rule R77). -/

namespace Sys2Proof.Laws

/-- The mnemonic of a command, as spec/opcode_table.json has it. -/
def mnemonic : Instr → String
  | .fpack _ _ => "FPACK"
  | .funpack _ _ => "FUNPACK"
  | .encU8 _ => "ENC.U8"
  | .encI8 _ => "ENC.I8"
  | .encU16 _ => "ENC.U16"
  | .encI16 _ => "ENC.I16"
  | .encU32 _ => "ENC.U32"
  | .encI32 _ => "ENC.I32"
  | .encU64 _ => "ENC.U64"
  | .encI64 _ => "ENC.I64"
  | .encF32 _ => "ENC.F32"
  | .encF64 _ => "ENC.F64"
  | .decU8 _ => "DEC.U8"
  | .decI8 _ => "DEC.I8"
  | .decU16 _ => "DEC.U16"
  | .decI16 _ => "DEC.I16"
  | .decU32 _ => "DEC.U32"
  | .decI32 _ => "DEC.I32"
  | .decU64 _ => "DEC.U64"
  | .decI64 _ => "DEC.I64"
  | .decF32 _ => "DEC.F32"
  | .decF64 _ => "DEC.F64"
  | .venc _ => "VENC"
  | .vdec _ => "VDEC"
  | .lpenc _ _ _ => "LPENC"
  | .lpdec _ _ _ => "LPDEC"

namespace EncodesToItsRow

/-- Some row of the map has the command's mnemonic and matches the command's word. -/
def Statement (i : Instr) : Prop := ∃ r ∈ rows, r.mnemonic = mnemonic i ∧ r.hits (encode i) = true

theorem fpack (bits expb : BitVec 7) : Statement (.fpack bits expb) :=
  ⟨packerRows[0], by simp [rows, packerRows], rfl, by
    rw [hits_iff]
    have hb : bitsOf 0xFE0007FF#32 = 0 := by decide
    have he : expbOf 0xFE0007FF#32 = 0 := by decide
    simp [encode, packerRows, hb, he]
    decide⟩

theorem funpack (bits expb : BitVec 7) : Statement (.funpack bits expb) :=
  ⟨packerRows[1], by simp [rows, packerRows], rfl, by
    rw [hits_iff]
    have hb : bitsOf 0xFE0007FF#32 = 0 := by decide
    have he : expbOf 0xFE0007FF#32 = 0 := by decide
    simp [encode, packerRows, hb, he]
    decide⟩

theorem encU8 (ord : ByteOrder) : Statement (.encU8 ord) :=
  ⟨encRows[0], by simp [rows, encRows], rfl, by cases ord <;> decide⟩

theorem encI8 (ord : ByteOrder) : Statement (.encI8 ord) :=
  ⟨encRows[1], by simp [rows, encRows], rfl, by cases ord <;> decide⟩

theorem encU16 (ord : ByteOrder) : Statement (.encU16 ord) :=
  ⟨encRows[2], by simp [rows, encRows], rfl, by cases ord <;> decide⟩

theorem encI16 (ord : ByteOrder) : Statement (.encI16 ord) :=
  ⟨encRows[3], by simp [rows, encRows], rfl, by cases ord <;> decide⟩

theorem encU32 (ord : ByteOrder) : Statement (.encU32 ord) :=
  ⟨encRows[4], by simp [rows, encRows], rfl, by cases ord <;> decide⟩

theorem encI32 (ord : ByteOrder) : Statement (.encI32 ord) :=
  ⟨encRows[5], by simp [rows, encRows], rfl, by cases ord <;> decide⟩

theorem encU64 (ord : ByteOrder) : Statement (.encU64 ord) :=
  ⟨encRows[6], by simp [rows, encRows], rfl, by cases ord <;> decide⟩

theorem encI64 (ord : ByteOrder) : Statement (.encI64 ord) :=
  ⟨encRows[7], by simp [rows, encRows], rfl, by cases ord <;> decide⟩

theorem encF32 (ord : ByteOrder) : Statement (.encF32 ord) :=
  ⟨encRows[8], by simp [rows, encRows], rfl, by cases ord <;> decide⟩

theorem encF64 (ord : ByteOrder) : Statement (.encF64 ord) :=
  ⟨encRows[9], by simp [rows, encRows], rfl, by cases ord <;> decide⟩

theorem decU8 (ord : ByteOrder) : Statement (.decU8 ord) :=
  ⟨decRows[0], by simp [rows, decRows], rfl, by cases ord <;> decide⟩

theorem decI8 (ord : ByteOrder) : Statement (.decI8 ord) :=
  ⟨decRows[1], by simp [rows, decRows], rfl, by cases ord <;> decide⟩

theorem decU16 (ord : ByteOrder) : Statement (.decU16 ord) :=
  ⟨decRows[2], by simp [rows, decRows], rfl, by cases ord <;> decide⟩

theorem decI16 (ord : ByteOrder) : Statement (.decI16 ord) :=
  ⟨decRows[3], by simp [rows, decRows], rfl, by cases ord <;> decide⟩

theorem decU32 (ord : ByteOrder) : Statement (.decU32 ord) :=
  ⟨decRows[4], by simp [rows, decRows], rfl, by cases ord <;> decide⟩

theorem decI32 (ord : ByteOrder) : Statement (.decI32 ord) :=
  ⟨decRows[5], by simp [rows, decRows], rfl, by cases ord <;> decide⟩

theorem decU64 (ord : ByteOrder) : Statement (.decU64 ord) :=
  ⟨decRows[6], by simp [rows, decRows], rfl, by cases ord <;> decide⟩

theorem decI64 (ord : ByteOrder) : Statement (.decI64 ord) :=
  ⟨decRows[7], by simp [rows, decRows], rfl, by cases ord <;> decide⟩

theorem decF32 (ord : ByteOrder) : Statement (.decF32 ord) :=
  ⟨decRows[8], by simp [rows, decRows], rfl, by cases ord <;> decide⟩

theorem decF64 (ord : ByteOrder) : Statement (.decF64 ord) :=
  ⟨decRows[9], by simp [rows, decRows], rfl, by cases ord <;> decide⟩

theorem venc (ord : ByteOrder) : Statement (.venc ord) :=
  ⟨listRows[0], by simp [rows, listRows], rfl, by cases ord <;> decide⟩

theorem vdec (ord : ByteOrder) : Statement (.vdec ord) :=
  ⟨listRows[1], by simp [rows, listRows], rfl, by cases ord <;> decide⟩

theorem lpenc (ord : ByteOrder) (ek : Kind) (ck : CountKind) : Statement (.lpenc ord ek ck) :=
  ⟨listRows[2], by simp [rows, listRows], rfl, by cases ord <;> cases ek <;> cases ck <;> decide⟩

theorem lpdec (ord : ByteOrder) (ek : Kind) (ck : CountKind) : Statement (.lpdec ord ek ck) :=
  ⟨listRows[3], by simp [rows, listRows], rfl, by cases ord <;> cases ek <;> cases ck <;> decide⟩

end EncodesToItsRow

end Sys2Proof.Laws
end

