-- ==== Sys2Proof/Laws/Records.lean ====
section
/-! SUPPORT. The laws of stored records: the bytes of a value one by one, the items of a record at their places, and
which lists of items encode. -/

namespace Sys2Proof.Machine

/-! ### Bytes one by one -/

/-- Byte i of a value in a byte order (00_scope R10). -/
theorem getElem_bytesIn (o : ByteOrder) (v n i : Nat) (h : i < (bytesIn o v n).length) :
    (bytesIn o v n)[i] = BitVec.ofNat 8 (v >>> byteShift o n i) := by
  cases o with
  | little => exact getElem_bytesLe v n i (by simpa using h)
  | big => exact getElem_bytesBe v n i (by simpa using h)

/-- The value of the bytes read is the sum of the bytes at their weights (00_scope R10). -/
theorem valIn_readBytes (ord : ByteOrder) (m : Memory) (off n : Nat) :
    valIn ord (m.readBytes off n) =
      ∑ i ∈ Finset.range n, (m.read (off + i)).toNat * 2 ^ byteShift ord n i := by
  cases ord with
  | little =>
    change valLe _ = _
    induction n with
    | zero => rfl
    | succ n ih =>
      have e : valLe (m.readBytes off (n + 1)) =
          valLe (m.readBytes off n) + 2 ^ (8 * n) * valLe (m.readBytes (off + n) 1) := by
        rw [readBytes_append, valLe_append]
        simp
      rw [Finset.sum_range_succ, e, ih]
      simp only [byteShift, Memory.readBytes, List.range_one, List.map_cons, List.map_nil, valLe]
      simp
      ring
  | big =>
    change valBe _ = _
    induction n generalizing off with
    | zero => rfl
    | succ n ih =>
      have e : m.readBytes off (n + 1) = m.read off :: m.readBytes (off + 1) n := by
        rw [Nat.add_comm, readBytes_append]
        rfl
      rw [Finset.sum_range_succ', e, valBe, ih (off + 1)]
      simp only [length_readBytes, byteShift]
      rw [add_comm]
      congr 1
      apply Finset.sum_congr rfl
      intro i _
      rw [show off + 1 + i = off + (i + 1) by omega, show n + 1 - 1 - (i + 1) = n - 1 - i by omega]

/-- An offset moved within the address space of 64-bit offsets. -/
theorem toNat_add_ofNat {x : Word} {n : Nat} (h : x.toNat + n < 2 ^ 64) :
    (x + BitVec.ofNat 64 n).toNat = x.toNat + n := by
  rw [BitVec.toNat_add, BitVec.toNat_ofNat]
  omega

/-- A store leaves alone every byte outside its own. -/
theorem read_stored_outside (s : State) {n : Nat} {e : Encoded} (hl : e.bytes.length = n) {a : Nat}
    (ha : a < s.reqOff.toNat ∨ s.reqOff.toNat + n ≤ a) : (s.stored n e).buf.read a = s.buf.read a := by
  rw [stored_buf]
  exact read_writeBytes_outside _ _ _ (by rw [hl]; exact ha)

/-- The count field of a stored frame reads back as its bytes. -/
theorem readBytes_writeBytes_prefix {m : Memory} {off n : Nat} {as bs : List Byte} (h : as.length = n) :
    (m.writeBytes off (as ++ bs)).readBytes off n = as := by
  rw [writeBytes_append, readBytes_writeBytes_outside _ _ _ (by omega), readBytes_writeBytes _ _ _ h]

/-! ### Which lists of items encode -/

/-- A list whose float items are finite encodes. -/
theorem encItems_of_finite {c : Params} {ord : ByteOrder} {l : List (Kind × Item)} (idx d : Nat)
    (h : ∀ p ∈ l, p.1.isFloat = true → finiteValue p.2.real ≠ none) :
    ∃ e, encItems c ord idx d l = .ok e := by
  cases he : encItems c ord idx d l with
  | error r =>
    obtain ⟨i, hi, -, h2, h3, -⟩ := encItems_error he
    exact absurd h3 (h _ (List.getElem_mem hi) h2)
  | ok e => exact ⟨e, rfl⟩

/-- In a list that encodes, every float item is finite. -/
theorem finite_of_encItems {c : Params} {ord : ByteOrder} {l : List (Kind × Item)} {idx d : Nat} {e : Encoded}
    (h : encItems c ord idx d l = .ok e) : ∀ p ∈ l, p.1.isFloat = true → finiteValue p.2.real ≠ none := by
  induction l generalizing idx d e with
  | nil =>
    intro p hp
    cases hp
  | cons q l ih =>
    intro p hp hf hn
    unfold encItems at h
    split at h
    · cases h
    · rename_i e1 he
      split at h
      · cases h
      · rename_i r hr
        rcases List.mem_cons.1 hp with rfl | hp
        · rw [encBytes_nonfinite _ _ _ _ hf hn] at he
          cases he
        · exact ih hr p hp hf hn

/-- The kinds `taggedItems` finds are those the codes of the items name. -/
theorem kinds_of_taggedItems {l : List Item} {t : List (Kind × Item)} (h : taggedItems 0 l = .ok t) :
    t.map Prod.fst = l.filterMap fun it => Kind.ofCode it.kind := by
  obtain ⟨h1, h2, -⟩ := taggedItems_ok h
  subst h1
  clear h
  induction t with
  | nil => rfl
  | cons p l ih =>
    rw [List.map_cons, List.map_cons, List.filterMap_cons, h2 p (by simp), Kind.ofCode_code,
      ih (fun q hq => h2 q (by simp [hq]))]

/-! ### Items at their places -/

/-- Item i of an encoded list lies at the sum of the widths before it (43_variadic_codec R161). -/
theorem readBytes_encItems {c : Params} {ord : ByteOrder} {l : List (Kind × Item)} {idx d : Nat} {e : Encoded}
    (h : encItems c ord idx d l = .ok e) (m : Memory) (off i : Nat) (hi : i < l.length) :
    ∃ d' e', encBytes c l[i].1 ord l[i].2 (idx + i) d' = .ok e' ∧
      (m.writeBytes off e.bytes).readBytes (off + totalSize ((l.map Prod.fst).take i)) l[i].1.size =
        e'.bytes := by
  induction l generalizing idx d e m off i with
  | nil => cases hi
  | cons p l ih =>
    obtain ⟨k, it⟩ := p
    unfold encItems at h
    rcases encBytes_cases c k ord it idx d with ⟨e1, he, hlen, -⟩ | ⟨he, -, -⟩
    · rw [he] at h
      dsimp only at h
      split at h
      · cases h
      · rename_i rest hr
        cases h
        cases i with
        | zero =>
          refine ⟨d, e1, he, ?_⟩
          dsimp only
          rw [writeBytes_append, readBytes_writeBytes_outside]
          · simpa using readBytes_writeBytes m off e1.bytes hlen
          · left
            simp [hlen]
        | succ i =>
          obtain ⟨d', e', x1, x2⟩ :=
            ih hr (m.writeBytes off e1.bytes) (off + e1.bytes.length) i (by simpa using hi)
          refine ⟨d', e', ?_, ?_⟩
          · simpa [Nat.add_assoc, Nat.add_comm 1] using x1
          · dsimp only
            rw [writeBytes_append]
            simpa [hlen, Nat.add_assoc] using x2
    · rw [he] at h
      cases h

/-- The widths before element i of a frame (44_length_prefixed_codec R182). -/
theorem totalSize_take_elements (ek : Kind) (l : List Item) {i : Nat} (hi : i ≤ l.length) :
    totalSize (((l.map fun it => (ek, it)).map Prod.fst).take i) = i * ek.size := by
  rw [List.map_map, show (Prod.fst ∘ fun it : Item => (ek, it)) = fun _ => ek from rfl, List.map_const',
    List.take_replicate, totalSize_replicate, min_eq_left hi]

/-- A decode of the bytes of an integer gives its value modulo 2^(8n), widened (42_fixed_width_codec R155). -/
theorem decItem_bytesIn {k : Kind} (c : Params) (ord : ByteOrder) (v : Nat) (hk : k.isFloat = false) :
    (decItem c k ord (bytesIn ord v k.size)).word = BitVec.ofInt 64 (presented k v) := by
  rw [decItem_integer _ _ _ hk, valIn_bytesIn]
  unfold presented
  cases hs : k.signed with
  | false =>
    simp only [Bool.false_eq_true, if_false, false_and, zext]
    rw [← BitVec.ofInt_natCast]
  | true =>
    simp only [if_true, true_and, sext]
    split
    · push_cast
      rfl
    · rw [← BitVec.ofInt_natCast]

/-- The formats of the float kinds are legal (41_ieee754_packer R101). -/
theorem format_legal {k : Kind} {bits expb : Nat} (h : k.format = some (bits, expb)) :
    2 ≤ bits ∧ 1 ≤ expb ∧ expb ≤ bits - 1 ∧ bits = 8 * k.size ∧ k.isFloat = true := by
  refine ⟨?_, ?_, ?_, Kind.format_size h, by rw [Kind.isFloat, h]; rfl⟩ <;>
    cases k <;> simp [Kind.format] at h <;> omega

end Sys2Proof.Machine
end

