-- ==== Sys2Proof/Laws/Run.lean ====
section
/-! SUPPORT. The laws of a run: an access uses up one entry of the host's sequence and reads no other, and the steps
of a run stop where no command is left. -/

namespace Sys2Proof.Machine

variable {s t : State}

/-- The observed registers and BUF do not depend on the host's sequence. -/
@[simp] theorem observed_setHost (l : List HostOp) (s : State) : (s.setHost l).observed = s.observed := rfl

@[simp] theorem setHost_setHost (l m : List HostOp) (s : State) : (s.setHost l).setHost m = s.setHost m := rfl

/-- Which accesses issue a command. -/
theorem isCommand_iff {op : HostOp} : op.isCommand = true ↔ ∃ w, op = .write 0x00 (.bits32 w) := by
  cases op with
  | write n v => cases v <;> simp [HostOp.isCommand]
  | read n => simp [HostOp.isCommand]
  | bufWrite a b => simp [HostOp.isCommand]
  | bufRead a => simp [HostOp.isCommand]
  | reset => simp [HostOp.isCommand]

/-- Whether a sequence issues a command. -/
theorem any_isCommand_iff {l : List HostOp} :
    l.any HostOp.isCommand = true ↔ ∃ w, .write 0x00 (.bits32 w) ∈ l := by
  rw [List.any_eq_true]
  constructor
  · rintro ⟨op, h, hc⟩
    obtain ⟨w, rfl⟩ := isCommand_iff.1 hc
    exact ⟨w, h⟩
  · rintro ⟨w, h⟩
    exact ⟨_, h, rfl⟩

/-- A capacity check whose rest commutes with a change of the host's sequence does too. -/
theorem guardCapacity_setHost (off n : Nat) (l : List HostOp) (s : State) {go go' : Result}
    (h : go' = mapNext (State.setHost l) go) :
    guardCapacity off n (s.setHost l) go' = mapNext (State.setHost l) (guardCapacity off n s go) := by
  unfold guardCapacity
  rw [setHost_cfg]
  split
  · exact h
  · rfl

/-- No command reads or writes the host's sequence. -/
theorem exec_setHost (i : Instr) (l : List HostOp) (s : State) :
    exec i (s.setHost l) = mapNext (State.setHost l) (exec i s) := by
  rcases instr_shapes i with ⟨b, e, rfl⟩ | ⟨b, e, rfl⟩ | ⟨k, o, rfl⟩ | ⟨k, o, rfl⟩ | ⟨o, rfl⟩ | ⟨o, rfl⟩ |
    ⟨o, ek, ck, rfl⟩ | ⟨o, ek, ck, rfl⟩
  · simp only [exec, execFpack, setHost_reqFval]; split <;> rfl
  · rfl
  · simp only [exec_enc, encCommand, setHost_cfg, setHost_reqWord, setHost_reqFval, setHost_drawCount]
    split
    · rfl
    · exact guardCapacity_setHost _ _ l s rfl
  · rw [exec_dec, exec_dec]
    refine guardCapacity_setHost _ _ l s ?_
    cases k.isFloat <;> rfl
  · simp only [exec, execVenc, setHost_reqList, setHost_cfg, setHost_drawCount]
    split
    · rfl
    · split
      · rfl
      · exact guardCapacity_setHost _ _ l s rfl
  · simp only [exec, execVdec, setHost_reqList]
    split
    · rfl
    · exact guardCapacity_setHost _ _ l s rfl
  · simp only [exec, execLpenc, setHost_reqList, setHost_cfg, setHost_drawCount]
    by_cases hn : 2 ^ (8 * ck.size) - 1 < s.reqList.length
    · refine (if_pos hn).trans ?_; rw [if_pos hn]; rfl
    · refine (if_neg hn).trans ?_; rw [if_neg hn]
      split
      · rfl
      · exact guardCapacity_setHost _ _ l s rfl
  · refine guardCapacity_setHost _ _ l s ?_
    simp only [setHost_reqOff, setHost_buf, setHost_reqMax, setHost_cfg]
    by_cases hg : s.reqMax.toNat < valIn o (s.buf.readBytes s.reqOff.toNat ck.size)
    · refine (if_pos hg).trans ?_; rw [if_pos hg]; rfl
    · refine (if_neg hg).trans ?_; rw [if_neg hg]
      by_cases hm : s.cfg.maxList < valIn o (s.buf.readBytes s.reqOff.toNat ck.size)
      · refine (if_pos hm).trans ?_; rw [if_pos hm]; rfl
      · refine (if_neg hm).trans ?_; rw [if_neg hm]
        exact guardCapacity_setHost _ _ l s rfl

/-- No access reads or writes the host's later accesses. -/
theorem hostAccess_setHost (op : HostOp) (l : List HostOp) (s : State) :
    hostAccess op (s.setHost l) = mapNext (State.setHost l) (hostAccess op s) := by
  cases op with
  | write n v =>
    simp only [hostAccess, hostWrite]
    split
    · rename_i r _
      cases r <;> cases v <;> simp only [writeReg] <;> try rfl
      · rename_i w
        simp only [issue, show faultValid (s.setHost l) = faultValid s from rfl]
        split
        · rfl
        · cases decode w with
          | command i => exact exec_setHost i l (s.acceptCommand w)
          | illegal why => rfl
      · split
        · rename_i h; rw [if_pos (by simpa using h)]; rfl
        · rename_i h; rw [if_neg (by simpa using h)]; rfl
    · rfl
  | read n =>
    simp only [hostAccess, hostRead]
    split
    · rename_i r _; cases r <;> rfl
    · rfl
  | bufWrite a b =>
    by_cases h : a < s.cfg.bufCap
    · refine (if_pos h).trans ?_; rw [hostAccess, if_pos h]; rfl
    · refine (if_neg h).trans ?_; rw [hostAccess, if_neg h]; rfl
  | bufRead a =>
    by_cases h : a < s.cfg.bufCap
    · refine (if_pos h).trans ?_; rw [hostAccess, if_pos h]; rfl
    · refine (if_neg h).trans ?_; rw [hostAccess, if_neg h]; rfl
  | reset => rfl

/-- A step with an access pending takes it off the host's sequence. -/
theorem step_host {op : HostOp} {rest : List HostOp} (h : s.host = op :: rest) (ht : step s = .next t) :
    t.host = rest := by
  rw [step_access h, hostAccess_setHost] at ht
  cases hr : hostAccess op s with
  | next u => rw [hr] at ht; cases ht; rfl
  | fault r => rw [hr] at ht; cases ht
  | refused r => rw [hr] at ht; cases ht

/-- With no command left the run has ended. -/
theorem runFor_ended (n : Nat) (h : s.host.any HostOp.isCommand = false) : runFor n s = .next s := by
  cases n with
  | zero => rfl
  | succ n => rw [runFor, if_neg (by simp [h])]

/-- What the steps of a run do, one step on. -/
theorem runEnd_cons {op : HostOp} {rest : List HostOp} (h : s.host = op :: rest)
    (hc : s.host.any HostOp.isCommand = true) (ht : step s = .next t) : s.runEnd = t.runEnd := by
  rw [State.runEnd, h, List.length_cons, runFor, if_pos hc, ht, State.runEnd, step_host h ht]

end Sys2Proof.Machine
end

