-- ==== Sys2Proof/Tests/Slice0.lean ====
section
/-! SUPPORT. The tests of the model, each with the rule or the vector of spec/ its expected result comes from, and for
every statement that has hypotheses a witness that meets them together. -/

namespace Sys2Proof.Tests

open Sys2Proof Sys2Proof.Machine

/-- After power-up with a capacity and BUF's first bytes. -/
def start (cap : Nat) (bs : List Byte) : State :=
  State.powerUp { Params.vectors with bufCap := cap } (Memory.writeBytes [] 0 bs)

/-- The state after power-up with 8 bytes of BUF, all 0. -/
def fresh : State := start 8 []

/-- What a projection of the next state is, if there is one. -/
def after {α : Type} (f : State → α) (r : Result) : Option α :=
  match r with
  | .next t => some (f t)
  | .fault _ => none
  | .refused _ => none

/-- BUF's first n bytes and RSP_LEN. -/
def stored (n : Nat) (t : State) : List Byte × Word := (t.buf.readBytes 0 n, t.rspLen)

/-- FAULT, FAULT_INFO, RSP_LEN and BUF's first 8 bytes. -/
def record (t : State) : BitVec 32 × Word × Word × List Byte :=
  (t.fault, t.faultInfo, t.rspLen, t.buf.readBytes 0 8)

/-- An item of an integer kind. -/
def int (k : Kind) (w : Word) : Item := ⟨k.code, w, .fin 0⟩

/-- An item of a float kind. -/
def flt (k : Kind) (x : FVal) : Item := ⟨k.code, 0, x⟩

/-! ### Well-formedness: each check refuses (41_ieee754_packer R101) -/

theorem test_wf_refuses_bits_below_2 : (Instr.fpack 1 1).wf = false := by decide
theorem test_wf_refuses_bits_above_64 : (Instr.fpack 65 11).wf = false := by decide
theorem test_wf_refuses_expbits_0 : (Instr.fpack 32 0).wf = false := by decide
theorem test_wf_refuses_expbits_above_bits : (Instr.fpack 32 32).wf = false := by decide
theorem test_wf_refuses_funpack_formats :
    (Instr.funpack 1 1).wf = false ∧ (Instr.funpack 65 11).wf = false ∧ (Instr.funpack 32 0).wf = false ∧
      (Instr.funpack 2 2).wf = false := by decide
theorem test_wf_accepts_smallest_and_largest :
    (Instr.fpack 2 1).wf = true ∧ (Instr.fpack 64 63).wf = true ∧ (Instr.funpack 2 1).wf = true ∧
      (Instr.funpack 64 63).wf = true := by decide

/-! ### Decoding: words written out as RES, EXPB, BITS, CK, EK, ORD, OPC (30_encoding R71, R73, R75, R76) -/

theorem test_decode_packer :
    decode 0b0000000_0001000_0100000_00_0000_0_0001 = .command (.fpack 32 8) ∧
      decode 0b0000000_0001011_1000000_00_0000_0_0010 = .command (.funpack 64 11) := by decide

theorem test_decode_enc :
    decode 0b0000000_0000000_0000000_00_0000_0_0011 = .command (.encU8 .little) ∧
      decode 0b0000000_0000000_0000000_00_0001_1_0011 = .command (.encI8 .big) ∧
      decode 0b0000000_0000000_0000000_00_0010_0_0011 = .command (.encU16 .little) ∧
      decode 0b0000000_0000000_0000000_00_0011_1_0011 = .command (.encI16 .big) ∧
      decode 0b0000000_0000000_0000000_00_0100_0_0011 = .command (.encU32 .little) ∧
      decode 0b0000000_0000000_0000000_00_0101_1_0011 = .command (.encI32 .big) ∧
      decode 0b0000000_0000000_0000000_00_0110_0_0011 = .command (.encU64 .little) ∧
      decode 0b0000000_0000000_0000000_00_0111_1_0011 = .command (.encI64 .big) ∧
      decode 0b0000000_0000000_0000000_00_1000_0_0011 = .command (.encF32 .little) ∧
      decode 0b0000000_0000000_0000000_00_1001_1_0011 = .command (.encF64 .big) := by decide

theorem test_decode_dec :
    decode 0b0000000_0000000_0000000_00_0000_1_0100 = .command (.decU8 .big) ∧
      decode 0b0000000_0000000_0000000_00_0001_0_0100 = .command (.decI8 .little) ∧
      decode 0b0000000_0000000_0000000_00_0010_1_0100 = .command (.decU16 .big) ∧
      decode 0b0000000_0000000_0000000_00_0011_0_0100 = .command (.decI16 .little) ∧
      decode 0b0000000_0000000_0000000_00_0100_1_0100 = .command (.decU32 .big) ∧
      decode 0b0000000_0000000_0000000_00_0101_0_0100 = .command (.decI32 .little) ∧
      decode 0b0000000_0000000_0000000_00_0110_1_0100 = .command (.decU64 .big) ∧
      decode 0b0000000_0000000_0000000_00_0111_0_0100 = .command (.decI64 .little) ∧
      decode 0b0000000_0000000_0000000_00_1000_1_0100 = .command (.decF32 .big) ∧
      decode 0b0000000_0000000_0000000_00_1001_0_0100 = .command (.decF64 .little) := by decide

theorem test_decode_lists :
    decode 0b0000000_0000000_0000000_00_0000_1_0101 = .command (.venc .big) ∧
      decode 0b0000000_0000000_0000000_00_0000_0_0110 = .command (.vdec .little) ∧
      decode 0b0000000_0000000_0000000_11_1001_1_0111 = .command (.lpenc .big .f64 .u64) ∧
      decode 0b0000000_0000000_0000000_01_0000_0_1000 = .command (.lpdec .little .u8 .u16) := by decide

/-- 95_test_vectors T-E1 to T-E21: an illegal word for each line of 30_encoding R81. -/
def illegalWords : List CommandWord :=
  [0x00000000, 0x00000009, 0x0000000F, 0x00000143, 0x00000144, 0x000001E3, 0x00000603, 0x00210003, 0x02000003,
    0x80000005, 0x00000025] ++
  [0x00000215, 0x00000011, 0x00000801, 0x00010001, 0x00810001, 0x002E0801, 0x01041001, 0x00000147, 0x00000148,
    0x00000807]

/-- The decoder refuses the word. -/
def isIllegal (w : CommandWord) : Bool :=
  match decode w with
  | .illegal _ => true
  | .command _ => false

theorem test_decode_illegal : illegalWords.all isIllegal = true := by decide

theorem test_decodeTableWord : decodeTableWord 32 0x00000093 = some (.encU32 .big) ∧
    decodeTableWord 32 0x00210001 = some (.fpack 32 8) ∧ decodeTableWord 32 0 = none := by decide

/-- The word placed for the fetch runs as the first command after reset (log entry 3). -/
theorem test_withFetchWord_runs :
    after (fun t => (t.reqCw, t.rspLen, t.cmdIndex)) (step (State.reset.withFetchWord 32 0x00000093)) =
      some (0x00000093, 4, 1) := by decide

/-! ### One step of each command (95_test_vectors) -/

/-- T-P4 and T-P18. -/
theorem test_fpack :
    after (·.rspWord) (exec (.fpack 32 8) { fresh with reqFval := .fin (-5 / 2) }) = some 0xC0200000 ∧
      after (·.rspWord) (exec (.fpack 32 8) { fresh with reqFval := .fin (33554431 * 2 ^ 103) }) =
        some 0x7F800000 := by decide +kernel

/-- T-P10 and T-P36: the two readings of PACK_QUANTIZE. -/
theorem test_fpack_quantize :
    after (·.rspWord) (exec (.fpack 32 8) { fresh with reqFval := .fin (884279719003555 / 2 ^ 48) }) =
        some 0x40490FDB ∧
      after (·.rspWord) (exec (.fpack 32 8) { fresh with
        cfg := { fresh.cfg with quantize := .scalePlusHalf }, reqFval := .fin (884279719003555 / 2 ^ 48) }) =
        some 0x40490FDA ∧
      after (·.rspWord) (exec (.fpack 2 1) { fresh with reqFval := .fin (3 / 2) }) = some 1 := by decide +kernel

/-- T-U4 and T-U10. -/
theorem test_funpack :
    after (·.rspFval) (exec (.funpack 32 8) { fresh with reqWord := 1 }) = some (.fin (8388609 / 2 ^ 150)) ∧
      after (·.rspFval) (exec (.funpack 32 8) { fresh with reqWord := 0xFF800000 }) = some (.fin (-(2 ^ 128))) := by
  decide +kernel

/-- T-U11 and T-U18. -/
theorem test_funpack_high_bits :
    after (·.rspFval) (exec (.funpack 32 8) { fresh with reqWord := 0xFFFFFFFF3F800000 }) = some (.fin 1) ∧
      after (·.rspFval) (exec (.funpack 2 1) { fresh with reqWord := 3 }) = some (.fin (-2)) := by decide +kernel

/-- T-F1. -/
theorem test_encU8 : after (stored 2) (exec (.encU8 .little) { fresh with reqWord := 0x1AB }) =
    some ([0xAB, 0x00], 1) := by decide

/-- T-F2. -/
theorem test_encI8 : after (stored 2) (exec (.encI8 .big) { fresh with reqWord := 0xFFFFFFFFFFFFFF80 }) =
    some ([0x80, 0x00], 1) := by decide

/-- T-F15. -/
theorem test_encU16 : after (stored 3) (exec (.encU16 .little) { fresh with reqWord := 0xABCDEF }) =
    some ([0xEF, 0xCD, 0x00], 2) := by decide

/-- T-F6. -/
theorem test_encI16 : after (stored 3) (exec (.encI16 .big) { fresh with reqWord := 0xFFFFFFFFFFFFFFFE }) =
    some ([0xFF, 0xFE, 0x00], 2) := by decide

/-- T-F8. -/
theorem test_encU32 : after (stored 5) (exec (.encU32 .big) { fresh with reqWord := 0x7FABCDEF }) =
    some ([0x7F, 0xAB, 0xCD, 0xEF, 0x00], 4) := by decide

/-- T-F9. -/
theorem test_encI32 : after (stored 5) (exec (.encI32 .little) { fresh with reqWord := 0xFFFFFFFFFFFE7960 }) =
    some ([0x60, 0x79, 0xFE, 0xFF, 0x00], 4) := by decide

/-- T-F11. -/
theorem test_encU64 : after (stored 8) (exec (.encU64 .little) { fresh with reqWord := 0x123456789ABCDEF }) =
    some ([0xEF, 0xCD, 0xAB, 0x89, 0x67, 0x45, 0x23, 0x01], 8) := by decide

/-- T-F13. -/
theorem test_encI64 : after (stored 8) (exec (.encI64 .big) { fresh with reqWord := 0x8000000000000000 }) =
    some ([0x80, 0x00, 0x00, 0x00, 0x00, 0x00, 0x00, 0x00], 8) := by decide

/-- T-F19 and T-F20: no wrap-around, and FAULT_INFO saturates. -/
theorem test_encU8_capacity :
    after record (exec (.encU8 .little) { fresh with reqOff := 8, reqWord := 0x55 }) =
        some (0x103, 9, 0, [0, 0, 0, 0, 0, 0, 0, 0]) ∧
      after record (exec (.encU8 .little) { fresh with reqOff := 0xFFFFFFFFFFFFFFFF, reqWord := 0x55 }) =
        some (0x103, 0xFFFFFFFFFFFFFFFF, 0, [0, 0, 0, 0, 0, 0, 0, 0]) := by decide

/-- T-F22 on both hosts. -/
theorem test_encF32 :
    after (stored 5) (exec (.encF32 .big) { fresh with reqFval := .fin 1 }) =
        some ([0x00, 0x00, 0x80, 0x3F, 0x00], 4) ∧
      after (stored 5) (exec (.encF32 .big) { fresh with
        cfg := { fresh.cfg with hostOrder := .big }, reqFval := .fin 1 }) =
        some ([0x3F, 0x80, 0x00, 0x00, 0x00], 4) := by decide +kernel

/-- T-F27. -/
theorem test_encF32_nan : after record (exec (.encF32 .little) { fresh with reqFval := .nan }) =
    some (0x102, 0, 0, [0, 0, 0, 0, 0, 0, 0, 0]) := by decide +kernel

/-- T-F24. -/
theorem test_encF64 :
    after (stored 8) (exec (.encF64 .little) { fresh with reqFval := .fin (884279719003555 / 2 ^ 48) }) =
      some ([0x18, 0x2D, 0x44, 0x54, 0xFB, 0x21, 0x09, 0x40], 8) := by decide +kernel

/-- The bytes the DEC vectors read. -/
def decBytes : State := start 8 [0x34, 0x12, 0xFF, 0xFE, 0x80, 0x00, 0x00, 0x00]

/-- RSP_WORD and RSP_LEN. -/
def decoded (t : State) : Word × Word := (t.rspWord, t.rspLen)

/-- T-F33. -/
theorem test_decU8 : after decoded (exec (.decU8 .little) { decBytes with reqOff := 2 }) =
    some (0xFF, 1) := by decide

/-- T-F32. -/
theorem test_decI8 : after decoded (exec (.decI8 .little) { decBytes with reqOff := 2 }) =
    some (0xFFFFFFFFFFFFFFFF, 1) := by decide

/-- T-F30. -/
theorem test_decU16 : after decoded (exec (.decU16 .big) { decBytes with reqOff := 0 }) =
    some (0x3412, 2) := by decide

/-- T-F31. -/
theorem test_decI16 : after decoded (exec (.decI16 .big) { decBytes with reqOff := 2 }) =
    some (0xFFFFFFFFFFFFFFFE, 2) := by decide

/-- T-F38. -/
theorem test_decU32 : after decoded (exec (.decU32 .little) { decBytes with reqOff := 1 }) =
    some (0x80FEFF12, 4) := by decide

/-- T-F34. -/
theorem test_decI32 : after decoded (exec (.decI32 .big) { decBytes with reqOff := 4 }) =
    some (0xFFFFFFFF80000000, 4) := by decide

/-- T-F36. -/
theorem test_decU64 : after decoded (exec (.decU64 .little) { decBytes with reqOff := 0 }) =
    some (0x00000080FEFF1234, 8) := by decide

/-- T-F37. -/
theorem test_decI64 : after decoded (exec (.decI64 .big) { decBytes with reqOff := 0 }) =
    some (0x3412FFFE80000000, 8) := by decide

/-- T-F41. -/
theorem test_decU64_capacity : after record (exec (.decU64 .big) { decBytes with reqOff := 1 }) =
    some (0x103, 9, 0, [0x34, 0x12, 0xFF, 0xFE, 0x80, 0x00, 0x00, 0x00]) := by decide

/-- T-F43 and T-F46. -/
theorem test_decF32 :
    after (fun t => (t.rspFval, t.rspLen)) (exec (.decF32 .big) (start 8 [0x00, 0x00, 0x80, 0x3F])) =
        some (.fin 1, 4) ∧
      after (fun t => (t.rspFval, t.rspLen)) (exec (.decF32 .little) (start 8 [0x00, 0x00, 0x00, 0x80])) =
        some (.fin (-1 / 2 ^ 127), 4) := by decide +kernel

/-- T-F49. -/
theorem test_decF64 :
    after (fun t => (t.rspFval, t.rspLen))
      (exec (.decF64 .big) (start 8 [0x18, 0x2D, 0x44, 0x54, 0xFB, 0x21, 0x09, 0x40])) =
      some (.fin (884279719003555 / 2 ^ 48), 8) := by decide +kernel

/-- T-V5. -/
theorem test_venc :
    after (stored 7) (exec (.venc .big) { fresh with reqList := [int .u16 0x102, flt .f32 (.fin 1)] }) =
      some ([0x01, 0x02, 0x00, 0x00, 0x80, 0x3F, 0x00], 6) := by decide +kernel

/-- T-V13: the reserved kind comes before the NaN. -/
theorem test_venc_priority :
    after record (exec (.venc .little) { fresh with
      reqList := [flt .f32 .nan, int .u8 1, int .u8 2, ⟨13, 0, .fin 0⟩] }) =
      some (0x101, 4, 0, [0, 0, 0, 0, 0, 0, 0, 0]) := by decide +kernel

/-- T-V18. -/
theorem test_vdec :
    after (fun t => (t.rspList, t.rspLen))
      (exec (.vdec .little) { start 8 [0x34, 0x12, 0xFF] with reqList := [int .u16 7, int .i8 7] }) =
      some ([int .u16 0x1234, int .i8 0xFFFFFFFFFFFFFFFF], 3) := by decide +kernel

/-- T-V21. -/
theorem test_vdec_capacity :
    after (fun t => (t.fault, t.faultInfo, t.rspList))
      (exec (.vdec .little) { start 4 [0x34, 0x12, 0xFF, 0xEE] with
        reqOff := 2, reqList := [int .u16 0, int .i8 0] }) = some (0x103, 5, []) := by decide +kernel

/-- T-L3 and T-L14. -/
theorem test_lpenc :
    after (stored 8) (exec (.lpenc .big .u8 .u16) { start 16 [] with
      reqList := [int .u8 0x68, int .u8 0x65, int .u8 0x6C, int .u8 0x6C, int .u8 0x6F] }) =
        some ([0x00, 0x05, 0x68, 0x65, 0x6C, 0x6C, 0x6F, 0x00], 7) ∧
      after (stored 3) (exec (.lpenc .little .u8 .u8) { fresh with reqList := [int .i64 0x1FF] }) =
        some ([0x01, 0xFF, 0x00], 2) := by decide +kernel

/-- T-L10: COUNT_RANGE comes before NONFINITE_OPERAND. -/
theorem test_lpenc_count_range :
    after record (exec (.lpenc .little .f32 .u8) { start 2048 [] with
      reqList := List.replicate 256 (flt .f32 .nan) }) =
      some (0x104, 256, 0, [0, 0, 0, 0, 0, 0, 0, 0]) := by decide +kernel

/-- T-L26: a count equal to REQ_MAX passes. -/
theorem test_lpdec :
    after (fun t => (t.rspList, t.rspLen))
      (exec (.lpdec .little .u8 .u8) { start 8 [5, 1, 2, 3, 4, 5] with reqMax := 5 }) =
      some ([int .u8 1, int .u8 2, int .u8 3, int .u8 4, int .u8 5], 6) := by decide +kernel

/-- T-L21 and T-L18: the sentinel reads no element; the end offset saturates. -/
theorem test_lpdec_guard :
    after (fun t => (t.rspLen, t.rspList, t.fault))
      (exec (.lpdec .big .u8 .u16) { start 3 [0x00, 0xFF, 0x41] with reqMax := 10 }) =
        some (0xFFFFFFFFFFFFFFFF, [], 0) ∧
      after (fun t => (t.rspLen, t.fault, t.faultInfo))
        (exec (.lpdec .big .u64 .u64) { start 8 (List.replicate 8 0xFF) with reqMax := 0xFFFFFFFFFFFFFFFF }) =
        some (0, 0x103, 0xFFFFFFFFFFFFFFFF) := by decide +kernel

/-! ### The host, faults and reset (95_test_vectors T-X) -/

/-- T-X2: stuck; the word is stored and nothing executes. -/
theorem test_stuck :
    after (fun t => (t.reqCw, t.fault, t.rspLen))
      (step { fresh with fault := 0x103, faultCw := 0xC3, host := [.write 0 (.bits32 0x004)] }) =
      some (0x004, 0x103, 0) := by decide

/-- T-X4, T-X9 and T-X10: read-only and reserved numbers. -/
theorem test_ignored_writes :
    after (·.fault) (step { fresh with fault := 0x103, host := [.write 0x20 (.bits32 0)] }) = some 0x103 ∧
      after (·.rspLen) (step { fresh with host := [.write 0x12 (.bits64 5)] }) = some 0 ∧
      after (·.readData) (step { fresh with host := [.read 0x14] }) = some (some (.bits64 0)) := by decide +kernel

/-- T-X5 and T-X12: reset clears FAULT and leaves BUF. -/
theorem test_reset :
    after (fun t => (t.fault, t.faultCw, t.reqCw, t.buf.readBytes 0 2))
      (step { start 8 [0xAA, 0xBB] with fault := 0x103, faultCw := 0xC3, reqCw := 4, host := [.reset] }) =
      some (0, 0, 0, [0xAA, 0xBB]) := by decide

/-- 70 R248: a run ends with its last command's step. A faulting command and then a reset is a faulted run, and the
host's accesses after the last command are no part of the run. -/
theorem test_run_end :
    after (fun t => (faultValid t, t.host))
        { fresh with host := [.write 0 (.bits32 0), .reset] }.runEnd = some (true, [.reset]) ∧
      after (fun t => (faultValid t, t.reqOff, t.rspLen, t.host))
        { fresh with host := [.reset, .write 1 (.bits64 4), .write 0 (.bits32 0x93), .write 1 (.bits64 0)] }.runEnd =
        some (false, 4, 4, [.write 1 (.bits64 0)]) := by decide +kernel

/-- The text of 30_encoding R85 and R86: the operands first, then the word of R87. -/
theorem test_text :
    (Line.command (.encU32 .big) { off := some 0, word := some 0x7FABCDEF }).accesses =
        [.write 1 (.bits64 0), .write 2 (.bits64 0x7FABCDEF), .write 0 (.bits32 0x00000093)] ∧
      (Line.pack754b32 (some (.fin 1))).accesses = [.write 3 (.real (.fin 1)), .write 0 (.bits32 0x00210001)] ∧
      (Line.sdec .u16 .big none (some 1000)).accesses =
        [.write 4 (.bits64 1000), .write 0 (.bits32 0x00000218)] := by decide +kernel

/-- Programs are lines one after another. -/
theorem test_program : (programAccesses [.command (.venc .little) {}, .senc .u8 .little none (some [0x41])]).length =
    3 := by decide +kernel

/-! ### Witnesses: for each statement with hypotheses, states and operands that meet them, clause by clause, at the
ends of their ranges -/

/-- The next state of an outcome; `d` when it has none. -/
def nextOr (r : Result) (d : State) : State :=
  match r with
  | .next t => t
  | .fault _ => d
  | .refused _ => d

/-- The state after a command. -/
abbrev run (i : Instr) (s : State) : State := nextOr (exec i s) s

theorem eq_nextOr {r : Result} {d : State} (h : (after (fun _ => true) r).isSome = true) : r = .next (nextOr r d) := by
  cases r <;> simp_all [after, nextOr]

/-- A configuration whose lists hold at most two items. -/
def twoItems : State := { fresh with cfg := { Params.vectors with bufCap := 8, maxList := 2 } }

/-- A state a run can reach: a byte in BUF, a decoded list and a recorded fault. -/
def used : State :=
  { start 8 [0xAB] with
    rspList := [int .u8 5, flt .f32 (.fin 1)], rspLen := 5, fault := 0x103, faultCw := 0xC3, faultInfo := 9 }

theorem witness_DecodeInvertsEncode :
    (Instr.fpack 2 1).wf = true ∧ (Instr.fpack 64 63).wf = true ∧ (Instr.lpdec .big .f64 .u64).wf = true := by decide

theorem witness_EncodeInvertsDecode :
    decode 0x00FE0001 = .command (.fpack 64 63) ∧ decode 0x00041001 = .command (.fpack 2 1) ∧
      decode 0x00000738 = .command (.lpdec .big .f64 .u64) := by decide

theorem witness_AtMostOneRowMatches :
    ∃ (j : Nat) (h : j < rows.length), (rows[j]).hits 0x00000093 = true ∧ (rows[j]).hits 0x00000083 = true :=
  ⟨6, by decide, by decide⟩

theorem witness_IllegalWordsFault :
    (∃ why, decode 0 = .illegal why) ∧ (∃ why, decode 9 = .illegal why) ∧ (∃ why, decode 0x01041001 = .illegal why) ∧
      faultValid fresh = false ∧
      { fresh with host := [.write 0 (.bits32 0)] }.host = .write 0x00 (.bits32 0) :: [] :=
  ⟨⟨_, rfl⟩, ⟨_, rfl⟩, ⟨_, rfl⟩, by decide, rfl⟩

theorem witness_StepRunsTheDecodedCommand :
    let op := fun w => HostOp.write 0x00 (.bits32 w)
    (faultValid { used with host := [op 0x93] } = true ∧ { used with host := [op 0x93] }.host = op 0x93 :: []) ∧
      (faultValid { fresh with host := [op 0x93, .reset] } = false ∧ decode 0x93 = .command (.encU32 .big)) ∧
      faultValid { fresh with host := [op 0x80000005] } = false ∧ ∃ why, decode 0x80000005 = .illegal why :=
  ⟨by decide, by decide, by decide, _, rfl⟩

theorem witness_StuckUntilReset :
    faultValid { used with host := [.reset] } = true ∧ { used with host := [.reset] }.host = .reset :: [] ∧
      faultValid { used with host := [.write 0x00 (.bits32 0x93)] } = true ∧
      faultValid { used with host := [.write 0x20 (.bits32 0)] } = true ∧
      step { used with host := [.write 0x20 (.bits32 0)] } = .next { used with host := [] } :=
  ⟨by decide, rfl, by decide, by decide, rfl⟩

/-- A faulting command, and the host's reset after it. -/
def faultThenReset : State := { fresh with host := [.write 0x00 (.bits32 0), .reset] }

/-- The clause about a run that ends with a fault recorded. -/
theorem witness_StuckUntilReset_run :
    let s := nextOr (step faultThenReset) fresh
    (faultValid s = true ∧ s.host = .reset :: []) ∧ faultThenReset.runEnd = .next s :=
  ⟨by decide +kernel, rfl⟩

/-- The sequence with a command last, with accesses after the last command, and with no command at all. -/
theorem witness_RunEndsAtTheLastCommand :
    let op := fun w => HostOp.write 0x00 (.bits32 w)
    faultThenReset.runEnd = .next (nextOr (step faultThenReset) fresh) ∧
      fresh.runEnd = .next fresh ∧
      (faultThenReset.host = op 0 :: [.reset] ∧ ∀ v, op v ∉ [HostOp.reset]) ∧
      (let s := { fresh with host := [.reset, op 0x93] }
       s.host = .reset :: [op 0x93] ∧ (∃ w, op w ∈ [op 0x93]) ∧ step s = .next (nextOr (step s) s)) ∧
      ∀ w, op w ∉ [HostOp.reset, .read 0x20, .write 0x01 (.bits64 0)] :=
  ⟨rfl, rfl, ⟨rfl, by simp⟩, ⟨rfl, ⟨0x93, by simp⟩, rfl⟩, by simp⟩

theorem witness_ResetLeavesBufAndClearsTheFault :
    { used with host := [.reset, .write 0x00 (.bits32 0x93)] }.host = .reset :: [.write 0x00 (.bits32 0x93)] ∧
      decode 0x93 = .command (.encU32 .big) := ⟨rfl, by decide⟩

theorem witness_RegisterMap :
    (∀ n ∈ [0x06, 0x0F, 0x14, 0x1F, 0x23, 0x10000], (0x06 ≤ n ∧ n ≤ 0x0F) ∨ (0x14 ≤ n ∧ n ≤ 0x1F) ∨ 0x23 ≤ n) ∧
      [int .u8 1, int .u8 2].length ≤ twoItems.cfg.maxList ∧ ¬[int .u8 1, int .u8 2, int .u8 3].length ≤ twoItems.cfg.maxList ∧
      0x06 ≤ 0x06 := by decide +kernel

theorem witness_HostReachesBufBetweenCommands :
    { fresh with host := [.bufWrite 7 0xAA] }.host = .bufWrite 7 0xAA :: [] ∧ 7 < fresh.cfg.bufCap ∧ 6 ≠ 7 ∧
      { fresh with host := [.bufRead 7] }.host = .bufRead 7 :: [] ∧
      { fresh with host := [.bufWrite 8 0xAA] }.host = .bufWrite 8 0xAA :: [] ∧ fresh.cfg.bufCap ≤ 8 ∧
      { fresh with host := [.bufRead 8] }.host = .bufRead 8 :: [] := ⟨rfl, by decide, by decide, rfl, rfl, by decide, rfl⟩

theorem witness_CommandIndexCountsIssuedCommands :
    step { fresh with host := [.write 0x00 (.bits32 0)] } =
        .next (nextOr (step { fresh with host := [.write 0x00 (.bits32 0)] }) fresh) ∧
      step { fresh with host := [.reset] } = .next (nextOr (step { fresh with host := [.reset] }) fresh) ∧
      ∀ w, HostOp.reset ≠ .write 0x00 (.bits32 w) := ⟨rfl, rfl, by simp⟩

theorem witness_EveryStepKeepsTheInvariant :
    { used with host := [.bufWrite 7 0xCD] }.Inv ∧
      step { used with host := [.bufWrite 7 0xCD] } =
        .next (nextOr (step { used with host := [.bufWrite 7 0xCD] }) used) := by
  refine ⟨⟨by decide, by decide, by decide, .inr ⟨.capacity, by decide⟩, by decide, by decide, ⟨0, rfl⟩, ?_, by decide⟩,
    by rfl⟩
  intro it h
  have h : it ∈ [int .u8 5, flt .f32 (.fin 1)] := h
  simp only [List.mem_cons, List.not_mem_nil, or_false] at h
  obtain rfl | rfl := h
  · exact ⟨.u8, rfl, rfl⟩
  · exact ⟨.f32, rfl, rfl, 1, rfl⟩

theorem witness_ConfigurationIsFixed :
    step { used with host := [.reset] } = .next (nextOr (step { used with host := [.reset] }) used) := rfl

theorem witness_FaultsArePrecise :
    faultValid fresh = false ∧ exec (.encU8 .big) { fresh with reqOff := 7 } = .next (run (.encU8 .big) { fresh with reqOff := 7 }) ∧
      faultValid (run (.encU8 .big) { fresh with reqOff := 7 }) = false ∧
      exec (.encU8 .big) { fresh with reqOff := 8 } = .next (run (.encU8 .big) { fresh with reqOff := 8 }) ∧
      faultValid (run (.encU8 .big) { fresh with reqOff := 8 }) = true :=
  ⟨by decide, eq_nextOr (by decide), by decide, eq_nextOr (by decide), by decide⟩

/-- A list whose last item is not finite, and no item before it. -/
def lateNan : List Item := [⟨Kind.u8.code, 1, .fin 0⟩, flt .f32 .negZero, flt .f64 (.fin 1), flt .f64 .nan]

theorem witness_NonfiniteOperandFaults :
    { fresh with reqFval := .posInf }.reqFval = .posInf ∧ { fresh with reqFval := .negInf }.reqFval = .negInf ∧
      { fresh with reqFval := .nan }.reqFval = .nan ∧
      ∃ hi : 3 < lateNan.length, lateNan[3].real = .nan ∧ (∀ it ∈ lateNan, it.kind.toNat ≤ 9) ∧
        8 ≤ lateNan[3].kind.toNat ∧ lateNan.length ≤ 2 ^ (8 * CountKind.u8.size) - 1 ∧
        ∀ j, ∀ hj : j < 3, (lateNan[j]'(by omega)).real = .negZero ∨ ∃ q, (lateNan[j]'(by omega)).real = .fin q := by
  refine ⟨rfl, rfl, rfl, by decide, rfl, by decide, by decide, by decide, fun j hj => ?_⟩
  interval_cases j
  · exact .inr ⟨0, rfl⟩
  · exact .inl rfl
  · exact .inr ⟨1, rfl⟩

/-- An integer item and a float item, with their kinds: 6 bytes. -/
def pairList : List (Kind × Item) := [(.i16, int .i16 0xFFFFFFFFFFFFFFFE), (.f32, flt .f32 (.fin 1))]

/-- The list in REQ_LIST, at an offset. -/
def withPair (off : Word) : State := { fresh with reqOff := off, reqList := pairList.map Prod.snd }

theorem witness_CapacityFaults :
    (Kind.u8.isFloat = false ∧ fresh.cfg.bufCap < (8 : Word).toNat + Kind.u8.size) ∧
      (finiteValue (.fin 1) ≠ none ∧ fresh.cfg.bufCap < (1 : Word).toNat + Kind.f64.size) ∧
      fresh.cfg.bufCap < (0xFFFFFFFFFFFFFFFF : Word).toNat + Kind.u8.size ∧
      ((∀ p ∈ pairList, p.2.kind = p.1.code) ∧ (∀ p ∈ pairList, p.1.isFloat = true → finiteValue p.2.real ≠ none) ∧
        (withPair 3).cfg.bufCap < (withPair 3).reqOff.toNat + totalSize (pairList.map Prod.fst)) ∧
      ([flt .f32 (.fin 1)].length ≤ 2 ^ (8 * CountKind.u64.size) - 1 ∧
        (∀ it ∈ [flt .f32 (.fin 1)], finiteValue it.real ≠ none) ∧
        fresh.cfg.bufCap < fresh.reqOff.toNat + (CountKind.u64.size + 1 * Kind.f32.size)) ∧
      fresh.cfg.bufCap < (8 : Word).toNat + CountKind.u8.size ∧
      (let s := { start 8 [0x02] with reqMax := 2 }
       s.reqOff.toNat + CountKind.u8.size ≤ s.cfg.bufCap ∧
         2 = valIn .big (s.buf.readBytes s.reqOff.toNat CountKind.u8.size) ∧ 2 ≤ s.reqMax.toNat ∧
         2 ≤ s.cfg.maxList ∧ s.cfg.bufCap < s.reqOff.toNat + (CountKind.u8.size + 2 * Kind.u32.size)) := by
  decide +kernel

theorem witness_ZeroPacksToTheZeroPattern :
    finiteValue (.fin 0) = some 0 ∧ finiteValue .negZero = some 0 ∧ (Instr.fpack 2 1).wf = true ∧
      { fresh with reqFval := .negZero }.reqFval = .negZero ∧ fresh.reqFval = .fin 0 := by decide +kernel

/-- Biased exponents 0, 127 and 254 of the format (32, 8). -/
theorem witness_FpackComposesSignExponentAndFraction :
    (Instr.fpack 32 8).wf = true ∧
      ((2 : Rat) ^ (-127 : Int) ≤ |-(2 : Rat) ^ (-127 : Int)| ∧ |-(2 : Rat) ^ (-127 : Int)| < (2 : Rat) ^ (-127 + 1 : Int) ∧
        ((0 : Nat) : Int) = -127 + (2 ^ ((8 : BitVec 7).toNat - 1) - 1)) ∧
      ((2 : Rat) ^ (0 : Int) ≤ |(3 / 2 : Rat)| ∧ |(3 / 2 : Rat)| < (2 : Rat) ^ (0 + 1 : Int) ∧
        ((127 : Nat) : Int) = 0 + (2 ^ ((8 : BitVec 7).toNat - 1) - 1)) ∧
      ((2 : Rat) ^ (127 : Int) ≤ |(2 : Rat) ^ (127 : Int)| ∧ |(2 : Rat) ^ (127 : Int)| < (2 : Rat) ^ (127 + 1 : Int) ∧
        ((254 : Nat) : Int) = 127 + (2 ^ ((8 : BitVec 7).toNat - 1) - 1) ∧ 254 ≤ 2 ^ (8 : BitVec 7).toNat - 2) := by
  refine ⟨by decide, ⟨?_, ?_, by decide⟩, ⟨?_, ?_, by decide⟩, ?_, ?_, by decide, by decide⟩ <;> norm_num [abs_of_pos]

theorem witness_FpackOutOfRangeWritesADraw :
    (Instr.fpack 32 8).wf = true ∧ (Instr.fpack 2 1).wf = true ∧ (1 / 2 ^ 128 : Rat) ≠ 0 ∧
      pack .addHalfUlp (1 / 2 ^ 128) 32 8 = .undef ∧ pack .addHalfUlp (2 ^ 128) 32 8 = .undef ∧
      pack .scalePlusHalf (-2) 2 1 = .undef ∧ pack .scalePlusHalf (1 / 2) 2 1 = .undef := by decide +kernel

theorem witness_QuantizeIsTheSpecifiedRounding :
    (0 : Rat) ≤ 0 ∧ (0 : Rat) < 1 ∧ (0 : Rat) ≤ 1 / 2 ∧ (1 / 2 : Rat) < 1 ∧ (0 : Rat) ≤ 255 / 256 ∧
      (255 / 256 : Rat) < 1 ∧ (1 / 2 : Rat) * 2 ^ 0 = (0 : Nat) + 1 / 2 ∧ (3 / 4 : Rat) * 2 ^ 1 = (1 : Nat) + 1 / 2 := by
  norm_num

theorem witness_RoundingCarryIsOred :
    2 ≤ 32 ∧ 32 ≤ 64 ∧ 1 ≤ 8 ∧ 8 ≤ 32 - 1 ∧ 1 ≤ 1 ∧ (0 ≤ 2 ^ 8 - 2 ∧ 0 % 2 = 0) ∧ (1 ≤ 2 ^ 8 - 2 ∧ 1 % 2 = 1) ∧
      (254 ≤ 2 ^ 8 - 2 ∧ 254 % 2 = 0 ∧ 254 = 2 ^ 8 - 2) ∧ (2 ≤ 2 ∧ 1 ≤ 2 - 1 ∧ 0 = 2 ^ 1 - 2) := by decide

theorem witness_FunpackGivesTheValueOfTheFields :
    (Instr.funpack 32 8).wf = true ∧
      ((0xFFFFFFFFBF800001 : Word).toNat % 2 ^ (32 : BitVec 7).toNat ≠ 0 ∧
        (0xFFFFFFFFBF800001 : Word).toNat % 2 ^ (32 : BitVec 7).toNat = 1 * 2 ^ 31 + 127 * 2 ^ 23 + 1) ∧
      ((0xFFFFFFFFFFFFFFFF : Word).toNat % 2 ^ (32 : BitVec 7).toNat = 1 * 2 ^ 31 + 255 * 2 ^ 23 + (2 ^ 23 - 1)) ∧
      (0xFFFFFFFF00000000 : Word).toNat % 2 ^ (32 : BitVec 7).toNat = 0 * 2 ^ 31 + 0 * 2 ^ 23 + 0 := by decide

theorem witness_OnlyTheZeroWordUnpacksToZero :
    (2 ≤ 2 ∧ 2 ≤ 64 ∧ 1 ≤ 1 ∧ 1 ≤ 2 - 1) ∧ (1 < 2 ^ 2 ∧ 1 ≠ 0) ∧ 64 ≤ 64 ∧ 63 ≤ 64 - 1 ∧ 2 ^ 64 - 1 < 2 ^ 64 := by decide

theorem witness_SignOnlyWordIsNotZero :
    (2 ≤ 2 ∧ 1 ≤ 1 ∧ 1 ≤ 2 - 1) ∧
      exec (.funpack 32 8) { fresh with reqWord := 0x80000000 } =
        .next (run (.funpack 32 8) { fresh with reqWord := 0x80000000 }) := ⟨by decide, eq_nextOr (by decide +kernel)⟩

theorem witness_AllOnesExponentIsFinite :
    (2 ≤ 32 ∧ 8 ≤ 32 - 1 ∧ 1 ≤ 1 ∧ 2 ^ 23 - 1 < 2 ^ sigBits 32 8) ∧ 0 < 2 ^ sigBits 2 1 ∧
      (∃ q, fresh.rspFval = .fin q) ∧
      exec (.funpack 32 8) { fresh with reqWord := 0x7FC00000 } =
        .next (run (.funpack 32 8) { fresh with reqWord := 0x7FC00000 }) :=
  ⟨by decide, by decide, ⟨0, rfl⟩, eq_nextOr (by decide +kernel)⟩

theorem witness_LeastMagnitudePacksToZero :
    (2 ≤ 2 ∧ 1 ≤ 1 ∧ 1 ≤ 2 - 1 ∧ (1 : Rat) = (2 : Rat) ^ (-((2 : Int) ^ (1 - 1) - 1))) ∧
      (8 ≤ 32 - 1 ∧ (1 / 2 ^ 127 : Rat) = (2 : Rat) ^ (-((2 : Int) ^ (8 - 1) - 1))) := by norm_num

/-- Biased exponents 0, 127 and 254, with 2, 2 and 24 significant bits. -/
theorem witness_PackThenUnpackIsExact :
    (3 < 2 ^ (sigBits 32 8 + 1) ∧ (2 : Rat) ^ (-127 : Int) ≤ |3 * (2 : Rat) ^ (-128 : Int)| ∧
        |3 * (2 : Rat) ^ (-128 : Int)| < (2 : Rat) ^ (-127 + 1 : Int) ∧ (0 : Int) ≤ -127 + (2 ^ (8 - 1) - 1) ∧
        3 * (2 : Rat) ^ (-128 : Int) ≠ (2 : Rat) ^ (-((2 : Int) ^ (8 - 1) - 1))) ∧
      ((2 : Rat) ^ (0 : Int) ≤ |-(3 * (2 : Rat) ^ (-1 : Int))| ∧ |-(3 * (2 : Rat) ^ (-1 : Int))| < (2 : Rat) ^ (0 + 1 : Int)) ∧
      (2 ^ 24 - 1 < 2 ^ (sigBits 32 8 + 1) ∧ (2 : Rat) ^ (127 : Int) ≤ |(2 ^ 24 - 1) * (2 : Rat) ^ (104 : Int)| ∧
        |(2 ^ 24 - 1) * (2 : Rat) ^ (104 : Int)| < (2 : Rat) ^ (127 + 1 : Int) ∧ (127 : Int) + (2 ^ (8 - 1) - 1) ≤ 2 ^ 8 - 2) := by
  norm_num [sigBits, abs_of_pos]

theorem witness_EncIntegerStoresTheLowBytes :
    (Kind.i8.isFloat = false ∧ (7 : Word).toNat + Kind.i8.size ≤ fresh.cfg.bufCap) ∧
      (Kind.u64.isFloat = false ∧ fresh.reqOff.toNat + Kind.u64.size ≤ fresh.cfg.bufCap) := by decide

theorem witness_EncFloatStoresThePattern :
    ((4 : Word).toNat + Kind.f32.size ≤ fresh.cfg.bufCap ∧ fresh.reqOff.toNat + Kind.f64.size ≤ fresh.cfg.bufCap) ∧
      { fresh with reqFval := .fin 1 }.reqFval = .fin 1 ∧ { fresh with reqFval := .negZero }.reqFval = .negZero ∧
      (∃ p, pack .addHalfUlp 1 64 11 = .ok p) ∧ pack .addHalfUlp (2 ^ 128) 32 8 = .undef :=
  ⟨by decide, rfl, rfl, ⟨0x3FF0000000000000, by decide +kernel⟩, by decide +kernel⟩

theorem witness_DecIntegerReadsTheValue :
    let s := { decBytes with reqOff := 6 }
    let r := { decBytes with reqOff := 2 }
    (Kind.u16.isFloat = false ∧ s.reqOff.toNat + Kind.u16.size ≤ s.cfg.bufCap ∧
        0 = ∑ i ∈ Finset.range Kind.u16.size, (s.buf.read (s.reqOff.toNat + i)).toNat * 2 ^ byteShift .big 2 i) ∧
      (Kind.i16.signed = true ∧
        0xFEFF = ∑ i ∈ Finset.range Kind.i16.size, (r.buf.read (r.reqOff.toNat + i)).toNat * 2 ^ byteShift .little 2 i ∧
        2 ^ (8 * Kind.i16.size - 1) ≤ 0xFEFF) := by decide

theorem witness_DecFloatReadsTheRational :
    (4 : Word).toNat + Kind.f32.size ≤ fresh.cfg.bufCap ∧ (0 : Word).toNat + Kind.f64.size ≤ fresh.cfg.bufCap := by decide

theorem witness_FloatPathIgnoresOrd :
    Kind.f32.format = some (32, 8) ∧ Kind.f64.format = some (64, 11) ∧ (flt .f32 (.fin 1)).real = .fin 1 ∧
      pack fresh.cfg.quantize 1 32 8 = .ok 0x3F800000 := by decide +kernel

theorem witness_IntegerRoundTrip :
    (let s := { fresh with reqOff := 7, reqWord := 0xFF }
     Kind.u8.isFloat = false ∧ s.reqOff.toNat + Kind.u8.size ≤ s.cfg.bufCap ∧ s.reqWord.toNat < 2 ^ (8 * Kind.u8.size)) ∧
      (let s := { fresh with reqWord := 0x8000000000000000 }
       s.reqWord.toInt < 2 ^ (8 * Kind.i64.size - 1) ∧ -(2 : Int) ^ (8 * Kind.i64.size - 1) ≤ s.reqWord.toInt) ∧
      (let s := { fresh with reqWord := 0x7F }
       s.reqWord.toInt < 2 ^ (8 * Kind.i8.size - 1) ∧ -(2 : Int) ^ (8 * Kind.i8.size - 1) ≤ s.reqWord.toInt) := by decide

theorem witness_DecodedBytesEncodeBack :
    Kind.i8.isFloat = false ∧ ([0x80] : List Byte).length = Kind.i8.size ∧
      ([0x80, 0, 0, 0, 0, 0, 0, 0xFF] : List Byte).length = Kind.u64.size := by decide

theorem witness_MixedWidthView :
    let s := { fresh with reqOff := 4, reqWord := 0xFFFFFFFF12345678 }
    s.cfg.WF ∧ s.reqOff.toNat + 4 ≤ s.cfg.bufCap ∧ 0x12345678 = s.reqWord.toNat % 2 ^ 32 ∧
      exec (.encU32 .little) s = .next (run (.encU32 .little) s) := ⟨by decide, by decide, by decide, eq_nextOr (by decide)⟩

/-- Of VencStoresTheRecord and VdecReadsTheRecord; the last line is its clause of a draw. -/
theorem witness_VencStoresTheRecord_VdecReadsTheRecord :
    (withPair 2).reqList = pairList.map Prod.snd ∧ (∀ p ∈ pairList, p.2.kind = p.1.code) ∧
      (∀ p ∈ pairList, p.1.isFloat = true → finiteValue p.2.real ≠ none) ∧
      (withPair 2).reqOff.toNat + totalSize (pairList.map Prod.fst) ≤ (withPair 2).cfg.bufCap ∧
      pack fresh.cfg.quantize 1 32 8 = .ok 0x3F800000 ∧ pack fresh.cfg.quantize (2 ^ 128) 32 8 = .undef := by
  decide +kernel

theorem witness_ReservedItemKindFaults :
    let l : List Item := [flt .f64 .nan, ⟨10, 0, .fin 0⟩, ⟨15, 0, .fin 0⟩]
    ∃ hi : 1 < l.length, 10 ≤ l[1].kind.toNat ∧ ∀ j, ∀ hj : j < 1, (l[j]'(by omega)).kind.toNat ≤ 9 := by
  refine ⟨by decide, by decide, fun j hj => ?_⟩
  obtain rfl : j = 0 := by omega
  rfl

theorem witness_EmptyListIsLegal :
    ({ fresh with reqOff := 8 }.reqList = [] ∧ { fresh with reqOff := 8 }.reqOff.toNat ≤ fresh.cfg.bufCap) ∧
      fresh.cfg.bufCap < { fresh with reqOff := 9 }.reqOff.toNat := by decide +kernel

/-- Of VencIsAChainOfEnc, VdecItemsAreThoseOfDec and VdecAfterVencGivesTheItemsBack, at the end of BUF. -/
theorem witness_VencIsAChainOfEnc_VdecItemsAreThoseOfDec_VdecAfterVencGivesTheItemsBack :
    let s := withPair 2
    let t := run (.venc .big) s
    let m : List (Kind × Item) := [(.i16, int .i16 0), (.f32, flt .f32 .nan)]
    let u := { t with reqList := m.map Prod.snd }
    (s.cfg.WF ∧ (∀ p ∈ pairList, p.2.kind = p.1.code) ∧ faultValid s = false ∧ faultValid t = false ∧
      (∀ p ∈ m, p.2.kind = p.1.code) ∧ m.map Prod.fst = pairList.map Prod.fst ∧ faultValid u = false ∧
      faultValid (run (.vdec .big) u) = false) ∧
      exec (.venc .big) s = .next t ∧ exec (.vdec .big) u = .next (run (.vdec .big) u) :=
  ⟨by decide +kernel, eq_nextOr (by decide +kernel), eq_nextOr (by decide +kernel)⟩

theorem witness_LpencStoresTheFrame :
    (let s := { fresh with reqOff := 1, reqList := [flt .f32 .negZero, flt .f32 (.fin 1)].take 1 }
     1 = s.reqList.length ∧ 1 ≤ 2 ^ (8 * CountKind.u16.size) - 1 ∧ (∀ it ∈ s.reqList, finiteValue it.real ≠ none) ∧
       s.reqOff.toNat + (CountKind.u16.size + 1 * Kind.f32.size) ≤ s.cfg.bufCap) ∧
      (let s := { start 256 [] with reqList := List.replicate 255 (int .u8 1) }
       255 = s.reqList.length ∧ 255 ≤ 2 ^ (8 * CountKind.u8.size) - 1 ∧
         s.reqOff.toNat + (CountKind.u8.size + 255 * Kind.u8.size) ≤ s.cfg.bufCap) ∧
      pack fresh.cfg.quantize 1 32 8 = .ok 0x3F800000 ∧ pack fresh.cfg.quantize (2 ^ 128) 32 8 = .undef := by
  decide +kernel

/-- Of LpdecReadsTheFrame and the two clauses of GuardGivesTheSentinel: the count equal to REQ_MAX, and one above. -/
theorem witness_LpdecReadsTheFrame_GuardGivesTheSentinel :
    (let s := { start 8 [0x00, 0x03] with reqMax := 3 }
     s.reqOff.toNat + CountKind.u16.size ≤ s.cfg.bufCap ∧
       3 = ∑ i ∈ Finset.range CountKind.u16.size, (s.buf.read (s.reqOff.toNat + i)).toNat * 2 ^ byteShift .big 2 i ∧
       3 ≤ s.reqMax.toNat ∧ 3 ≤ s.cfg.maxList ∧
       s.reqOff.toNat + (CountKind.u16.size + 3 * Kind.i16.size) ≤ s.cfg.bufCap) ∧
      (let s := { start 2 [0x00, 0x03] with reqMax := 2 }
       s.reqOff.toNat + CountKind.u16.size ≤ s.cfg.bufCap ∧ s.reqMax.toNat < 3) := by decide

theorem witness_CountRangeFaults :
    2 ^ (8 * CountKind.u8.size) - 1 < { fresh with reqList := List.replicate 256 (int .u8 1) }.reqList.length ∧
      ¬2 ^ (8 * CountKind.u8.size) - 1 < { fresh with reqList := List.replicate 255 (int .u8 1) }.reqList.length ∧
      twoItems.cfg.WF ∧ { twoItems with reqList := [int .u8 1, int .u8 2] }.reqList.length ≤ twoItems.cfg.maxList ∧
      exec (.lpenc .big .u8 .u64) { twoItems with reqList := [int .u8 1, int .u8 2] } =
        .next (run (.lpenc .big .u8 .u64) { twoItems with reqList := [int .u8 1, int .u8 2] }) :=
  ⟨by decide +kernel, by decide +kernel, by decide, by decide, eq_nextOr (by decide +kernel)⟩

theorem witness_ListRangeFaults :
    (let s := { twoItems with reqMax := 3, buf := [(0, 3)] }
     s.reqOff.toNat + CountKind.u8.size ≤ s.cfg.bufCap ∧
       3 = ∑ i ∈ Finset.range CountKind.u8.size, (s.buf.read (s.reqOff.toNat + i)).toNat * 2 ^ byteShift .big 1 i ∧
       3 ≤ s.reqMax.toNat ∧ s.cfg.maxList < 3) ∧
      2 ^ (8 * CountKind.u8.size) - 1 ≤ fresh.cfg.maxList ∧ ({ twoItems with reqMax := 2 }).reqMax.toNat ≤ twoItems.cfg.maxList ∧
      exec (.lpdec .big .u8 .u8) twoItems = .next (run (.lpdec .big .u8 .u8) twoItems) :=
  ⟨by decide, by decide, by decide, eq_nextOr (by decide)⟩

theorem witness_OnlyTheGuardGivesANegativeLength :
    let s := { start 8 [0x02] with reqMax := 1 }
    (s.cfg.WF ∧ faultValid s = false ∧ faultValid (run (.lpdec .big .u8 .u8) s) = false ∧
      faultValid (run (.encU8 .big) s) = false) ∧
      exec (.lpdec .big .u8 .u8) s = .next (run (.lpdec .big .u8 .u8) s) ∧
      exec (.encU8 .big) s = .next (run (.encU8 .big) s) :=
  ⟨by decide, eq_nextOr (by decide), eq_nextOr (by decide)⟩

theorem witness_EmptyFrameIsAZeroCount :
    fresh.reqList = [] ∧ fresh.reqOff.toNat + CountKind.u64.size ≤ fresh.cfg.bufCap ∧
      fresh.cfg.bufCap < { fresh with reqOff := 1 }.reqOff.toNat + CountKind.u64.size := by decide +kernel

/-- The count equal to REQ_MAX, and one above it. -/
theorem witness_FrameRoundTrip :
    let s := { fresh with reqList := [int .u8 0x1FF, int .i64 0x80] }
    let t := run (.lpenc .big .i16 .u32) s
    let u := { t with reqMax := 2 }
    let w := { t with reqMax := 1 }
    (2 = s.reqList.length ∧ faultValid s = false ∧ faultValid t = false ∧ faultValid u = false ∧
      faultValid (run (.lpdec .big .i16 .u32) u) = false ∧ 2 ≤ u.reqMax.toNat ∧
      faultValid (run (.lpdec .big .i16 .u32) w) = false ∧ w.reqMax.toNat < 2) ∧
      exec (.lpenc .big .i16 .u32) s = .next t ∧
      exec (.lpdec .big .i16 .u32) u = .next (run (.lpdec .big .i16 .u32) u) ∧
      exec (.lpdec .big .i16 .u32) w = .next (run (.lpdec .big .i16 .u32) w) :=
  ⟨by decide +kernel, eq_nextOr (by decide +kernel), eq_nextOr (by decide +kernel), eq_nextOr (by decide +kernel)⟩

theorem witness_StringRoundTrip :
    let str : List Byte := [0x68, 0x00, 0xFF, 0x65, 0x6C, 0x6F]
    let s := { fresh with reqList := stringItems str }
    (s.cfg.WF ∧ str.length ≤ 2 ^ (8 * CountKind.u16.size) - 1 ∧ str.length ≤ s.cfg.maxList ∧
      s.reqOff.toNat + (CountKind.u16.size + str.length) ≤ s.cfg.bufCap ∧
      str.length ≤ ({ s with reqMax := 6 }).reqMax.toNat ∧ ({ s with reqMax := 5 }).reqMax.toNat < str.length) ∧
      exec (.lpenc .little .u8 .u16) s = .next (run (.lpenc .little .u8 .u16) s) :=
  ⟨by decide, eq_nextOr (by decide +kernel)⟩

/-- Of PackerFrame, StoringFrame and DecodingFrame: a command of each group answers a next state. -/
theorem witness_PackerFrame_StoringFrame_DecodingFrame :
    exec (.fpack 32 8) fresh = .next (run (.fpack 32 8) fresh) ∧
      exec (.funpack 32 8) fresh = .next (run (.funpack 32 8) fresh) ∧
      exec (.encU64 .big) fresh = .next (run (.encU64 .big) fresh) ∧
      exec (.venc .big) (withPair 2) = .next (run (.venc .big) (withPair 2)) ∧
      exec (.lpenc .big .u8 .u64) fresh = .next (run (.lpenc .big .u8 .u64) fresh) ∧
      exec (.decI16 .big) fresh = .next (run (.decI16 .big) fresh) ∧
      exec (.decF64 .big) fresh = .next (run (.decF64 .big) fresh) ∧
      exec (.vdec .big) (withPair 2) = .next (run (.vdec .big) (withPair 2)) ∧
      exec (.lpdec .big .u8 .u64) fresh = .next (run (.lpdec .big .u8 .u64) fresh) := by
  refine ⟨?_, ?_, ?_, ?_, ?_, ?_, ?_, ?_, ?_⟩ <;> exact eq_nextOr (by decide +kernel)

/-- VDEC's clause: other words and reals with the same kinds. -/
theorem witness_CommandsReadOnlyTheirOperands :
    ([int .u8 1, flt .f32 .nan].map Item.kind = [int .u8 2, flt .f32 (.fin 1)].map Item.kind) ∧
      [int .u8 1, flt .f32 .nan] ≠ [int .u8 2, flt .f32 (.fin 1)] ∧
      (∃ k ord, k.isFloat = false ∧ Instr.encI16 .big = Instr.enc k ord) ∧
      (∃ k ord, k.isFloat = true ∧ Instr.encF64 .little = Instr.enc k ord) :=
  ⟨by decide +kernel, by decide +kernel, ⟨.i16, .big, rfl, rfl⟩, ⟨.f64, .little, rfl, rfl⟩⟩

end Sys2Proof.Tests
end

/-! Every step keeps the invariant `State.Inv` (obligation O15): one rule per update of the state, then what a command,
an access of the host and a step answer. -/

namespace Sys2Proof.Machine

variable {s : State}

/-! ### Updates of fields the invariant does not read -/

theorem State.Inv.setReqOff (h : s.Inv) (v : Word) : (s.setReqOff v).Inv := { h with }

theorem State.Inv.setReqWord (h : s.Inv) (v : Word) : (s.setReqWord v).Inv := { h with }

theorem State.Inv.setReqFval (h : s.Inv) (v : FVal) : (s.setReqFval v).Inv := { h with }

theorem State.Inv.setReqMax (h : s.Inv) (v : Word) : (s.setReqMax v).Inv := { h with }

theorem State.Inv.setHost (h : s.Inv) (l : List HostOp) : (s.setHost l).Inv := { h with }

theorem State.Inv.setReadData (h : s.Inv) (v : HostVal) : (s.setReadData v).Inv := { h with }

theorem State.Inv.acceptCommand (h : s.Inv) (w : CommandWord) : (s.acceptCommand w).Inv := { h with }

theorem State.Inv.setRspWord (h : s.Inv) (v : Word) : (s.setRspWord v).Inv := { h with }

theorem State.Inv.setDrawCount (h : s.Inv) (n : Nat) : (s.setDrawCount n).Inv := { h with }

/-! ### Updates of fields the invariant reads -/

theorem State.Inv.setReqList (h : s.Inv) {l : List Item} (hl : l.length ≤ s.cfg.maxList) : (s.setReqList l).Inv :=
  { h with reqListBound := hl }

theorem State.Inv.setRspFval (h : s.Inv) (q : Rat) : (s.setRspFval (.fin q)).Inv :=
  { h with rspFvalFin := ⟨q, rfl⟩ }

theorem State.Inv.setRspList (h : s.Inv) {l : List Item} (hl : l.length ≤ s.cfg.maxList)
    (hw : ∀ it ∈ l, ItemWritten it) : (s.setRspList l).Inv :=
  { h with rspListBound := hl, rspItems := hw }

theorem State.Inv.setRspLen_sentinel (h : s.Inv) : (s.setRspLen sentinel).Inv :=
  { h with rspLen := .inl rfl }

/-- The width of an access that passed the capacity check is within BUF_CAP. -/
theorem State.Inv.setRspLen (h : s.Inv) {off n : Nat} (hc : off + n ≤ s.cfg.bufCap) :
    (s.setRspLen (BitVec.ofNat 64 n)).Inv :=
  { h with
    rspLen := .inr <| calc
      (BitVec.ofNat 64 n).toNat ≤ n := by rw [BitVec.toNat_ofNat]; exact Nat.mod_le _ _
      _ ≤ s.cfg.bufCap := le_trans (Nat.le_add_left n off) hc }

/-- Bytes stored below BUF_CAP keep BUF canonical and inside. -/
theorem State.Inv.setBuf_writeBytes (h : s.Inv) {off : Nat} {bs : List Byte} (hc : off + bs.length ≤ s.cfg.bufCap) :
    (s.setBuf (s.buf.writeBytes off bs)).Inv :=
  { h with
    bufCanonical := wf_writeBytes off bs h.bufCanonical
    bufInside := inside_writeBytes off bs h.bufInside hc }

theorem State.Inv.setBuf_write (h : s.Inv) {off : Nat} (b : Byte) (ho : off < s.cfg.bufCap) :
    (s.setBuf (s.buf.write off b)).Inv :=
  h.setBuf_writeBytes (bs := [b]) ho

theorem State.Inv.stored (h : s.Inv) {n : Nat} {e : Encoded} (hl : e.bytes.length = n)
    (hc : s.reqOff.toNat + n ≤ s.cfg.bufCap) : (s.stored n e).Inv :=
  ((h.setBuf_writeBytes (hl ▸ hc)).setRspLen hc).setDrawCount e.draws

theorem State.Inv.recordFault (h : s.Inv) (r : Raise) : (s.recordFault r).Inv :=
  { h with faultLegal := .inr ⟨r.cause, rfl⟩ }

theorem State.Inv.resetRegisters (h : s.Inv) : s.resetRegisters.Inv :=
  { h with
    faultLegal := .inl ⟨rfl, rfl, rfl⟩
    reqListBound := Nat.zero_le _
    rspListBound := Nat.zero_le _
    rspFvalFin := ⟨0, rfl⟩
    rspItems := by simp
    rspLen := .inr (Nat.zero_le _) }

/-! ### The items a decode writes -/

/-- A decode leaves the field its kind does not use at 0 (10_state R25). -/
theorem itemWritten_decItem (c : Params) (k : Kind) (ord : ByteOrder) (bs : List Byte) :
    ItemWritten (decItem c k ord bs) := by
  refine ⟨k, decItem_kind c k ord bs, ?_⟩
  cases hf : k.isFloat with
  | false => rw [decItem_integer c ord bs hf]; rfl
  | true =>
    obtain ⟨f, hfmt⟩ := Option.isSome_iff_exists.1 hf
    rw [decItem_float c ord bs hfmt]
    exact ⟨rfl, _, rfl⟩

theorem itemWritten_decItems (c : Params) (ord : ByteOrder) (m : Memory) (off : Nat) (ks : List Kind) :
    ∀ it ∈ decItems c ord m off ks, ItemWritten it := by
  induction ks generalizing off with
  | nil => simp [decItems]
  | cons k ks ih => exact List.forall_mem_cons.2 ⟨itemWritten_decItem c k ord _, ih _⟩

/-- A decoded list within MAX_LIST keeps the invariant, whichever of MAX_LIST and REQ_LIST bounds it (00_scope R11). -/
theorem State.Inv.setRspList_decItems (h : s.Inv) (ord : ByteOrder) (off : Nat) {ks : List Kind}
    (hk : ks.length ≤ max s.cfg.maxList s.reqList.length) :
    (s.setRspList (decItems s.cfg ord s.buf off ks)).Inv := by
  refine h.setRspList ?_ (itemWritten_decItems s.cfg ord s.buf off ks)
  rw [length_decItems]
  exact le_trans hk (max_le le_rfl h.reqListBound)

/-! ### What an answer keeps -/

/-- The state of the answer, if it is a next state, meets the invariant. -/
def NextInv (r : Result) : Prop := ∀ t, r = .next t → t.Inv

theorem nextInv_next (h : s.Inv) : NextInv (.next s) := by
  rintro t ⟨⟩
  exact h

theorem nextInv_fault (r : Fault) : NextInv (.fault r) := nofun

theorem nextInv_refused (r : Refusal) : NextInv (.refused r) := nofun

theorem nextInv_exec (i : Instr) (h : s.Inv) : NextInv (exec i s) := by
  rcases exec_cases i s with ⟨r, he⟩ | ⟨w, d, he⟩ | ⟨q, he⟩ | ⟨n, e, hl, hc, he⟩ | ⟨w, n, hc, he⟩ | ⟨q, n, hc, he⟩ |
    ⟨ord, off, ks, n, hk, hc, he⟩ | ⟨he, -⟩ <;> rw [he] <;> apply nextInv_next
  · exact h.recordFault r
  · exact (h.setRspWord w).setDrawCount d
  · exact h.setRspFval q
  · exact h.stored hl hc
  · exact (h.setRspWord w).setRspLen hc
  · exact (h.setRspFval q).setRspLen hc
  · exact (h.setRspList_decItems ord off hk).setRspLen hc
  · exact h.setRspLen_sentinel.setRspList (Nat.zero_le _) (by simp)

theorem nextInv_issue (w : CommandWord) (h : s.Inv) : NextInv (issue w s) := by
  have ha := h.acceptCommand w
  rcases issue_cases w s with ⟨-, he⟩ | ⟨-, ⟨i, -, he⟩ | ⟨why, -, he⟩⟩ <;> rw [he]
  · exact nextInv_next ha
  · exact nextInv_exec i ha
  · exact nextInv_next (ha.recordFault _)

theorem nextInv_writeReg (n : Nat) (r : Reg) (v : HostVal) (h : s.Inv) : NextInv (writeReg n r v s) := by
  cases r with
  | reqCw => cases v with
    | bits32 w => exact nextInv_issue w h
    | _ => exact nextInv_refused _
  | reqOff => cases v with
    | bits64 x => exact nextInv_next (h.setReqOff x)
    | _ => exact nextInv_refused _
  | reqWord => cases v with
    | bits64 x => exact nextInv_next (h.setReqWord x)
    | _ => exact nextInv_refused _
  | reqFval => cases v with
    | real x => exact nextInv_next (h.setReqFval x)
    | _ => exact nextInv_refused _
  | reqMax => cases v with
    | bits64 x => exact nextInv_next (h.setReqMax x)
    | _ => exact nextInv_refused _
  | reqList => cases v with
    | items l =>
      rw [writeReg]
      split
      · exact nextInv_next (h.setReqList ‹_›)
      · exact nextInv_refused _
    | _ => exact nextInv_refused _
  | _ => exact nextInv_next h

theorem nextInv_hostWrite (n : Nat) (v : HostVal) (h : s.Inv) : NextInv (hostWrite n v s) := by
  unfold hostWrite
  split
  · exact nextInv_writeReg n _ v h
  · exact nextInv_next h

theorem nextInv_hostAccess (op : HostOp) (h : s.Inv) : NextInv (hostAccess op s) := by
  cases op with
  | write n v => exact nextInv_hostWrite n v h
  | read n => exact nextInv_next (h.setReadData _)
  | bufWrite off b =>
    rw [hostAccess]
    split
    · exact nextInv_next (h.setBuf_write b ‹_›)
    · exact nextInv_fault _
  | bufRead off =>
    rw [hostAccess]
    split
    · exact nextInv_next (h.setReadData _)
    · exact nextInv_fault _
  | reset => exact nextInv_next h.resetRegisters

theorem nextInv_step (h : s.Inv) : NextInv (step s) := by
  cases hh : s.host with
  | nil => rw [step_idle hh]; exact nextInv_next h
  | cons op rest => rw [step_access hh]; exact nextInv_hostAccess op (h.setHost rest)

end Sys2Proof.Machine

namespace Sys2Proof

/-- Settles O15, by cases on the host's access and, for a write of REQ_CW, on what the command can do. -/
theorem everyStepKeepsTheInvariant : Obligations.EveryStepKeepsTheInvariant := fun _ t h ht =>
  Machine.nextInv_step h t ht

end Sys2Proof

/-! The registers as the host sees them, and BUF between commands (obligations O11, O12). -/

namespace Sys2Proof.Machine

/-! ### Register numbers -/

/-- The number of a register (10_state R21). -/
def Reg.number : Reg → Nat
  | .reqCw => 0x00
  | .reqOff => 0x01
  | .reqWord => 0x02
  | .reqFval => 0x03
  | .reqMax => 0x04
  | .reqList => 0x05
  | .rspWord => 0x10
  | .rspFval => 0x11
  | .rspLen => 0x12
  | .rspList => 0x13
  | .fault => 0x20
  | .faultCw => 0x21
  | .faultInfo => 0x22

theorem Reg.ofNumber_number (r : Reg) : Reg.ofNumber r.number = some r := by cases r <;> rfl

/-- A number names the register it is the number of, and no other. -/
theorem Reg.number_of_ofNumber {n : Nat} {r : Reg} (h : Reg.ofNumber n = some r) : r.number = n := by
  cases r <;> simp only [Reg.ofNumber, ite_eq_iff, Option.some.injEq, reduceCtorEq, and_false, and_true, false_or,
    or_false] at h <;> simp only [Reg.number, h]

/-- The reserved numbers name no register (10_state R21). -/
theorem Reg.ofNumber_reserved {n : Nat} (h : (0x06 ≤ n ∧ n ≤ 0x0F) ∨ (0x14 ≤ n ∧ n ≤ 0x1F) ∨ 0x23 ≤ n) :
    Reg.ofNumber n = none := by
  cases hr : Reg.ofNumber n with
  | none => rfl
  | some r =>
    have hn := Reg.number_of_ofNumber hr
    cases r <;> simp only [Reg.number] at hn <;> omega

/-! ### Reads and writes by number -/

theorem hostRead_number (r : Reg) (s : State) : hostRead r.number s = readReg r s := by
  rw [hostRead, Reg.ofNumber_number]

theorem hostRead_reserved {n : Nat} (s : State)
    (h : (0x06 ≤ n ∧ n ≤ 0x0F) ∨ (0x14 ≤ n ∧ n ≤ 0x1F) ∨ 0x23 ≤ n) : hostRead n s = .bits64 0 := by
  rw [hostRead, Reg.ofNumber_reserved h]

theorem hostWrite_number (r : Reg) (v : HostVal) (s : State) : hostWrite r.number v s = writeReg r.number r v s := by
  rw [hostWrite, Reg.ofNumber_number]

/-- Every number from 0x06 up is read-only or reserved (10_state R21). -/
theorem hostWrite_ignored {n : Nat} (v : HostVal) (s : State) (h : 0x06 ≤ n) : hostWrite n v s = .next s := by
  unfold hostWrite
  cases hr : Reg.ofNumber n with
  | none => rfl
  | some r =>
    have hn := Reg.number_of_ofNumber hr
    cases r with
    | reqCw | reqOff | reqWord | reqFval | reqMax | reqList => simp only [Reg.number] at hn; omega
    | _ => rfl

/-! ### Steps at BUF accesses -/

variable {s : State} {rest : List HostOp} {off : Nat}

theorem step_bufWrite {b : Byte} (h : s.host = .bufWrite off b :: rest) (ho : off < s.cfg.bufCap) :
    step s = .next ((s.setHost rest).setBuf (s.buf.write off b)) :=
  (step_access h).trans (if_pos ho)

theorem step_bufWrite_absent {b : Byte} (h : s.host = .bufWrite off b :: rest) (ho : s.cfg.bufCap ≤ off) :
    step s = .fault (.noSuchByte off) :=
  (step_access h).trans (if_neg (not_lt.2 ho))

theorem step_bufRead (h : s.host = .bufRead off :: rest) (ho : off < s.cfg.bufCap) :
    step s = .next ((s.setHost rest).setReadData (.byte (s.buf.read off))) :=
  (step_access h).trans (if_pos ho)

theorem step_bufRead_absent (h : s.host = .bufRead off :: rest) (ho : s.cfg.bufCap ≤ off) :
    step s = .fault (.noSuchByte off) :=
  (step_access h).trans (if_neg (not_lt.2 ho))

end Sys2Proof.Machine

namespace Sys2Proof

open Machine

/-- Settles O11: the numbers of the registers one by one, the reserved and the read-only ones by their ranges. -/
theorem registerMap : Obligations.RegisterMap := by
  intro s
  exact ⟨hostRead_number .reqCw s, hostRead_number .reqOff s, hostRead_number .reqWord s, hostRead_number .reqFval s,
    hostRead_number .reqMax s, hostRead_number .reqList s, hostRead_number .rspWord s, hostRead_number .rspFval s,
    hostRead_number .rspLen s, hostRead_number .rspList s, hostRead_number .fault s, hostRead_number .faultCw s,
    hostRead_number .faultInfo s, fun _ => hostRead_reserved s, fun x => hostWrite_number .reqOff (.bits64 x) s,
    fun x => hostWrite_number .reqWord (.bits64 x) s, fun x => hostWrite_number .reqFval (.real x) s,
    fun x => hostWrite_number .reqMax (.bits64 x) s,
    fun l hl => (hostWrite_number .reqList (.items l) s).trans (if_pos hl), fun _ v => hostWrite_ignored v s⟩

/-- Settles O12, by the step at each BUF access and a read after a write. -/
theorem hostReachesBufBetweenCommands : Obligations.HostReachesBufBetweenCommands := by
  intro s rest off
  refine ⟨fun b h ho => ⟨_, step_bufWrite h ho, rfl, ?_, fun a ha => ?_⟩, step_bufRead,
    fun _ => step_bufWrite_absent, step_bufRead_absent⟩
  · exact read_write_same s.buf off b
  · exact read_write_other s.buf b ha

end Sys2Proof

/-! Issuing a command by a write of REQ_CW, and the command index (obligations O7, O13). -/

namespace Sys2Proof.Machine

variable {s t : State} {w : CommandWord}

/-! ### A write of REQ_CW -/

theorem step_write_reqCw {rest : List HostOp} (h : s.host = .write 0x00 (.bits32 w) :: rest) :
    step s = issue w (s.setHost rest) :=
  step_access h

theorem issue_stuck (hf : faultValid s = true) : issue w s = .next (s.acceptCommand w) := if_pos hf

theorem issue_command {i : Instr} (hf : faultValid s = false) (hd : decode w = .command i) :
    issue w s = exec i (s.acceptCommand w) := by
  rw [issue, hf, hd]
  rfl

theorem issue_illegal {why : Illegal} (hf : faultValid s = false) (hd : decode w = .illegal why) :
    issue w s = .next ((s.acceptCommand w).recordFault ⟨.illegalCommand, 0⟩) := by
  rw [issue, hf, hd]
  rfl

/-! ### The command index -/

/-- No command changes the index its issue set. -/
theorem cmdIndex_of_exec {i : Instr} (h : exec i s = .next t) : t.cmdIndex = s.cmdIndex := by
  rcases exec_cases i s with ⟨r, he⟩ | ⟨w, d, he⟩ | ⟨q, he⟩ | ⟨n, e, -, -, he⟩ | ⟨w, n, -, he⟩ | ⟨q, n, -, he⟩ |
    ⟨ord, off, ks, n, -, -, he⟩ | ⟨he, -⟩ <;> rw [he] at h <;> cases h <;> rfl

/-- An issued command is counted, whether it is stuck, executed or illegal (10_state R30). -/
theorem cmdIndex_of_issue (h : issue w s = .next t) : t.cmdIndex = s.cmdIndex + 1 := by
  rcases issue_cases w s with ⟨-, he⟩ | ⟨-, ⟨i, -, he⟩ | ⟨why, -, he⟩⟩ <;> rw [he] at h
  · cases h; rfl
  · exact cmdIndex_of_exec h
  · cases h; rfl

/-- A write to a register issues a command, or changes request registers only. -/
theorem writeReg_cases (n : Nat) (r : Reg) (v : HostVal) (s : State) :
    (∃ w, r = .reqCw ∧ v = .bits32 w ∧ writeReg n r v s = issue w s) ∨
      ∀ t, writeReg n r v s = .next t → t = { s with
        reqOff := t.reqOff, reqWord := t.reqWord, reqFval := t.reqFval, reqMax := t.reqMax
        reqList := t.reqList } := by
  cases r with
  | reqCw => cases v with
    | bits32 w => exact .inl ⟨w, rfl, rfl, rfl⟩
    | _ =>
      right
      rintro t ⟨⟩
  | reqOff | reqWord | reqFval | reqMax =>
    right
    intro t h
    cases v <;> cases h
    rfl
  | reqList =>
    right
    intro t h
    cases v with
    | items l =>
      rw [writeReg] at h
      split at h <;> cases h
      rfl
    | _ => cases h
  | _ =>
    right
    rintro t ⟨⟩
    rfl

/-- Of the writes by number, only that of a word to 0x00 issues a command. -/
theorem hostWrite_frame {n : Nat} {v : HostVal} (hnv : ∀ w, HostOp.write n v ≠ .write 0x00 (.bits32 w))
    (h : hostWrite n v s = .next t) :
    t = { s with
      reqOff := t.reqOff, reqWord := t.reqWord, reqFval := t.reqFval, reqMax := t.reqMax
      reqList := t.reqList } := by
  unfold hostWrite at h
  cases hr : Reg.ofNumber n with
  | none => rw [hr] at h; cases h; rfl
  | some r =>
    rw [hr] at h
    rcases writeReg_cases n r v s with ⟨w, rfl, rfl, -⟩ | hw
    · cases Reg.number_of_ofNumber hr
      exact absurd rfl (hnv w)
    · exact hw t h

/-- No other access is counted. -/
theorem cmdIndex_of_hostAccess {op : HostOp} (hop : ∀ w, op ≠ .write 0x00 (.bits32 w))
    (h : hostAccess op s = .next t) : t.cmdIndex = s.cmdIndex := by
  cases op with
  | write n v =>
    have hw : hostWrite n v s = .next t := h
    rw [hostWrite_frame hop hw]
  | read n => cases h; rfl
  | bufWrite off b =>
    rw [hostAccess] at h
    split at h
    · cases h; rfl
    · cases h
  | bufRead off =>
    rw [hostAccess] at h
    split at h
    · cases h; rfl
    · cases h
  | reset => cases h; rfl

end Sys2Proof.Machine

namespace Sys2Proof

open Machine

/-- Settles O7: FAULT.FV, then the decoder's verdict. -/
theorem stepRunsTheDecodedCommand : Obligations.StepRunsTheDecodedCommand := by
  intro s w rest h
  rw [step_write_reqCw h]
  refine ⟨fun hf => issue_stuck hf, fun hf i => issue_command hf, fun hf why hd => ?_⟩
  rw [faulted_eq_recordFault]
  exact issue_illegal hf hd

/-- Settles O13: an issue counts one, every other access none. -/
theorem commandIndexCountsIssuedCommands : Obligations.CommandIndexCountsIssuedCommands := by
  intro s t op rest h ht
  rw [step_access h] at ht
  constructor
  · rintro ⟨w, rfl⟩
    exact cmdIndex_of_issue (s := s.setHost rest) ht
  · intro hop
    exact cmdIndex_of_hostAccess (s := s.setHost rest) hop ht

end Sys2Proof

/-! What each command leaves unchanged (obligations O56, O57, O58). -/

namespace Sys2Proof.Machine

variable {s t : State} {ord : ByteOrder}

/-! ### The storing commands -/

/-- What a storing command may change: BUF in the `n` bytes at REQ_OFF, RSP_LEN, the count of draws, and the fault
registers. -/
def StoresAtMost (n : Nat) (s t : State) : Prop :=
  t = { s with
    buf := t.buf, rspLen := t.rspLen, drawCount := t.drawCount
    fault := t.fault, faultCw := t.faultCw, faultInfo := t.faultInfo } ∧
  ∀ a, a < s.reqOff.toNat ∨ s.reqOff.toNat + n ≤ a → t.buf.read a = s.buf.read a

theorem storesAtMost_recordFault (n : Nat) (s : State) (r : Raise) : StoresAtMost n s (s.recordFault r) :=
  ⟨rfl, fun _ _ => rfl⟩

theorem storesAtMost_stored {n : Nat} {e : Encoded} (s : State) (total : Nat) (hl : e.bytes.length = n) :
    StoresAtMost n s (s.stored total e) :=
  ⟨rfl, fun _ ha => read_writeBytes_outside s.buf s.reqOff.toNat e.bytes (hl ▸ ha)⟩

theorem storesAtMost_encCommand {k : Kind} (h : encCommand k ord s = .next t) : StoresAtMost k.size s t := by
  rcases encCommand_cases k ord s with ⟨-, -, he⟩ | ⟨e, -, hl, ⟨-, he⟩ | ⟨-, he⟩⟩ <;> rw [he] at h <;> cases h
  · exact storesAtMost_recordFault _ s _
  · exact storesAtMost_recordFault _ s _
  · exact storesAtMost_stored s _ hl

/-- The kinds of a list whose kinds are all legal are those its codes name. -/
theorem filterMap_ofCode_of_taggedItems {idx : Nat} {l : List Item} {p : List (Kind × Item)}
    (h : taggedItems idx l = .ok p) : (l.filterMap fun it => Kind.ofCode it.kind) = p.map Prod.fst := by
  obtain ⟨rfl, hk, -⟩ := taggedItems_ok h
  rw [List.filterMap_map, ← List.filterMap_eq_map]
  refine List.filterMap_congr fun q hq => ?_
  simp [hk q hq]

theorem storesAtMost_execVenc (h : execVenc ord s = .next t) :
    StoresAtMost (totalSize (s.reqList.filterMap fun it => Kind.ofCode it.kind)) s t := by
  rcases execVenc_cases ord s with ⟨r, -, he⟩ | ⟨l, hl, ⟨r, -, he⟩ | ⟨e, hi, ⟨-, he⟩ | ⟨-, he⟩⟩⟩ <;>
    rw [he] at h <;> cases h
  · exact storesAtMost_recordFault _ s _
  · exact storesAtMost_recordFault _ s _
  · exact storesAtMost_recordFault _ s _
  · rw [filterMap_ofCode_of_taggedItems hl]
    exact storesAtMost_stored s _ (encItems_ok hi).1

theorem storesAtMost_execLpenc {ek : Kind} {ck : CountKind} (h : execLpenc ord ek ck s = .next t) :
    StoresAtMost (ck.size + s.reqList.length * ek.size) s t := by
  rcases execLpenc_cases ord ek ck s with ⟨-, he⟩ | ⟨-, ⟨r, -, he⟩ | ⟨e, -, hl, ⟨-, he⟩ | ⟨-, he⟩⟩⟩ <;>
    rw [he] at h <;> cases h
  · exact storesAtMost_recordFault _ s _
  · exact storesAtMost_recordFault _ s _
  · exact storesAtMost_recordFault _ s _
  · exact storesAtMost_stored s _ (by simp [hl])

/-! ### The decoding commands -/

/-- A decode of an integer kind leaves RSP_FVAL alone, a decode of a float kind RSP_WORD. -/
theorem decCommand_frame {k : Kind} (h : decCommand k ord s = .next t) :
    t = { s with
      rspWord := if k.isFloat then s.rspWord else t.rspWord
      rspFval := if k.isFloat then t.rspFval else s.rspFval
      rspLen := t.rspLen, fault := t.fault, faultCw := t.faultCw, faultInfo := t.faultInfo } := by
  rcases Nat.lt_or_ge s.cfg.bufCap (s.reqOff.toNat + k.size) with hc | hc
  · rw [decCommand_fault ord hc] at h
    cases h
    cases k.isFloat <;> rfl
  · rw [decCommand_ok ord hc] at h
    cases h
    cases k.isFloat <;> rfl

theorem execVdec_frame (h : execVdec ord s = .next t) :
    t = { s with
      rspList := t.rspList, rspLen := t.rspLen
      fault := t.fault, faultCw := t.faultCw, faultInfo := t.faultInfo } := by
  rcases execVdec_cases ord s with ⟨r, -, he⟩ | ⟨l, -, ⟨-, he⟩ | ⟨-, he⟩⟩ <;> rw [he] at h <;> cases h <;> rfl

theorem execLpdec_frame {ek : Kind} {ck : CountKind} (h : execLpdec ord ek ck s = .next t) :
    t = { s with
      rspList := t.rspList, rspLen := t.rspLen
      fault := t.fault, faultCw := t.faultCw, faultInfo := t.faultInfo } := by
  rcases execLpdec_cases ord ek ck s with ⟨-, he⟩ | ⟨-, ⟨-, he⟩ | ⟨-, ⟨-, he⟩ | ⟨-, ⟨-, he⟩ | ⟨-, he⟩⟩⟩⟩ <;>
    rw [he] at h <;> cases h <;> rfl

end Sys2Proof.Machine

namespace Sys2Proof

open Machine

/-- Settles O56: FPACK records a fault or writes RSP_WORD and the count of draws, FUNPACK writes RSP_FVAL. -/
theorem packerFrame : Obligations.PackerFrame := by
  intro bits expb s t
  constructor
  · intro (h : execFpack bits expb s = .next t)
    rcases execFpack_cases bits expb s with ⟨-, he⟩ | ⟨q, -, he⟩ <;> rw [he] at h <;> cases h <;> rfl
  · rintro ⟨⟩
    rfl

/-- Settles O57, by the shape of the command; a store leaves alone every byte outside those it stores. -/
theorem storingFrame : Obligations.StoringFrame := by
  rintro i s t n (⟨k, ord, rfl, rfl⟩ | ⟨ord, rfl, rfl⟩ | ⟨ord, ek, ck, rfl, rfl⟩) h
  · exact storesAtMost_encCommand (exec_enc k ord s ▸ h)
  · exact storesAtMost_execVenc h
  · exact storesAtMost_execLpenc h

/-- Settles O58, by what each decoding command can do. -/
theorem decodingFrame : Obligations.DecodingFrame := by
  intro s t ord
  refine ⟨fun k hf h => ?_, fun k hf h => ?_, ?_⟩
  · rw [exec_dec] at h
    simpa only [hf, Bool.false_eq_true, if_false] using decCommand_frame h
  · rw [exec_dec] at h
    simpa only [hf, if_true] using decCommand_frame h
  · rintro i (rfl | ⟨ek, ck, rfl⟩) h
    · exact execVdec_frame h
    · exact execLpdec_frame h

end Sys2Proof

/-! BUF as the commands see it (obligations O20, O39): what an access past BUF_CAP raises, and the bytes of one width
read back at another. -/

namespace Sys2Proof.Machine

variable {s : State} {ord : ByteOrder}

/-! ### Past the capacity

The record of the fault is the whole of what changes, so no byte of the command is written. -/

theorem encCommand_fault {k : Kind} (hfin : k.isFloat = false ∨ finiteValue s.reqFval ≠ none)
    (hc : s.cfg.bufCap < s.reqOff.toNat + k.size) :
    encCommand k ord s = .next (s.recordFault ⟨.capacity, s.reqOff.toNat + k.size⟩) := by
  rcases encCommand_cases k ord s with ⟨hf, hn, -⟩ | ⟨e, -, -, ⟨-, he⟩ | ⟨hle, -⟩⟩
  · simp [hf, hn] at hfin
  · exact he
  · omega

theorem execVdec_fault {l : List (Kind × Item)} (ht : taggedItems 0 s.reqList = .ok l)
    (hc : s.cfg.bufCap < s.reqOff.toNat + totalSize (l.map Prod.fst)) :
    execVdec ord s = .next (s.recordFault ⟨.capacity, s.reqOff.toNat + totalSize (l.map Prod.fst)⟩) := by
  rcases execVdec_cases ord s with ⟨r, hr, -⟩ | ⟨l', hl, h⟩
  · rw [ht] at hr
    cases hr
  · obtain rfl : l = l' := Except.ok.inj (ht.symm.trans hl)
    rcases h with ⟨-, he⟩ | ⟨hle, -⟩
    · exact he
    · omega

theorem execVenc_fault {l : List (Kind × Item)} (ht : taggedItems 0 s.reqList = .ok l)
    (hfin : ∀ p ∈ l, p.1.isFloat = true → finiteValue p.2.real ≠ none)
    (hc : s.cfg.bufCap < s.reqOff.toNat + totalSize (l.map Prod.fst)) :
    execVenc ord s = .next (s.recordFault ⟨.capacity, s.reqOff.toNat + totalSize (l.map Prod.fst)⟩) := by
  rcases execVenc_cases ord s with ⟨r, hr, -⟩ | ⟨l', hl, h⟩
  · rw [ht] at hr
    cases hr
  · obtain rfl : l = l' := Except.ok.inj (ht.symm.trans hl)
    rcases h with ⟨r, hr, -⟩ | ⟨e, he, h⟩
    · obtain ⟨e, he⟩ := encItems_of_finite (c := s.cfg) (ord := ord) 0 s.drawCount hfin
      rw [he] at hr
      cases hr
    · obtain ⟨hlen, -⟩ := encItems_ok he
      rw [hlen] at h
      rcases h with ⟨-, hx⟩ | ⟨hle, -⟩
      · exact hx
      · omega

theorem execLpenc_fault {ek : Kind} {ck : CountKind} (hn : s.reqList.length ≤ 2 ^ (8 * ck.size) - 1)
    (hfin : ek.isFloat = true → ∀ it ∈ s.reqList, finiteValue it.real ≠ none)
    (hc : s.cfg.bufCap < s.reqOff.toNat + (ck.size + s.reqList.length * ek.size)) :
    execLpenc ord ek ck s =
      .next (s.recordFault ⟨.capacity, s.reqOff.toNat + (ck.size + s.reqList.length * ek.size)⟩) := by
  obtain ⟨e, he⟩ : ∃ e, encItems s.cfg ord 0 s.drawCount (s.reqList.map fun it => (ek, it)) = .ok e :=
    encItems_of_finite 0 s.drawCount (List.forall_mem_map.2 fun it hit hf => hfin hf it hit)
  rcases execLpenc_cases ord ek ck s with ⟨hlt, -⟩ | ⟨-, ⟨r, hr, -⟩ | ⟨-, -, -, ⟨-, hx⟩ | ⟨hle, -⟩⟩⟩
  · omega
  · rw [he] at hr
    cases hr
  · exact hx
  · omega

theorem execLpdec_fault_count {ek : Kind} {ck : CountKind} (hc : s.cfg.bufCap < s.reqOff.toNat + ck.size) :
    execLpdec ord ek ck s = .next (s.recordFault ⟨.capacity, s.reqOff.toNat + ck.size⟩) :=
  guardCapacity_fault _ hc

theorem execLpdec_fault_elements {ek : Kind} {ck : CountKind} (hu : s.reqOff.toNat + ck.size ≤ s.cfg.bufCap)
    (hg : countField ord ck s ≤ s.reqMax.toNat) (hm : countField ord ck s ≤ s.cfg.maxList)
    (hc : s.cfg.bufCap < s.reqOff.toNat + (ck.size + countField ord ck s * ek.size)) :
    execLpdec ord ek ck s =
      .next (s.recordFault ⟨.capacity, s.reqOff.toNat + (ck.size + countField ord ck s * ek.size)⟩) := by
  rcases execLpdec_cases ord ek ck s with
    ⟨hlt, -⟩ | ⟨-, ⟨hlt, -⟩ | ⟨-, ⟨hlt, -⟩ | ⟨-, ⟨-, he⟩ | ⟨hle, -⟩⟩⟩⟩
  · omega
  · omega
  · omega
  · exact he
  · omega

/-! ### One width written, another read -/

/-- The state an ENC of an integer kind leaves (42_fixed_width_codec R131, R133). -/
theorem encCommand_integer {k : Kind} (hk : k.isFloat = false) (hc : s.reqOff.toNat + k.size ≤ s.cfg.bufCap) :
    encCommand k ord s = .next (s.stored k.size ⟨bytesIn ord s.reqWord.toNat k.size, s.drawCount⟩) := by
  rcases encCommand_cases k ord s with ⟨hf, -, -⟩ | ⟨e, he, -, ⟨hlt, -⟩ | ⟨-, hx⟩⟩
  · simp [hk] at hf
  · omega
  · rw [encBytes_integer _ _ _ _ _ hk] at he
    cases he
    exact hx

/-- A DEC of an unsigned kind puts the value of the bytes at REQ_OFF into RSP_WORD (42_fixed_width_codec R132, R134). -/
theorem decCommand_unsigned {k : Kind} {off : Nat} (hk : k.isFloat = false) (hs : k.signed = false)
    (hoff : s.reqOff.toNat = off) (hc : off + k.size ≤ s.cfg.bufCap) :
    ∃ t, decCommand k ord s = .next t ∧ t.rspWord.toNat = valIn ord (s.buf.readBytes off k.size) := by
  subst hoff
  refine ⟨_, decCommand_ok ord hc, ?_⟩
  have hlt : valIn ord (s.buf.readBytes s.reqOff.toNat k.size) < 2 ^ 64 := calc
    _ < 2 ^ (8 * (s.buf.readBytes s.reqOff.toNat k.size).length) := valIn_lt ord _
    _ ≤ 2 ^ 64 := by
      rw [length_readBytes]
      exact Nat.pow_le_pow_right two_pos (Nat.mul_le_mul_left 8 k.size_le)
  simp [hk, hs, decItem_integer, toNat_zext hlt]

/-- One byte has the same value in either order: byte i of a little-endian value reads back as `(v >> 8i) & 0xFF`. -/
theorem valIn_readBytes_one_writeBytes_bytesLe (ord : ByteOrder) (m : Memory) (off v : Nat) {n i : Nat} (hi : i < n) :
    valIn ord ((m.writeBytes off (bytesLe v n)).readBytes (off + i) 1) = v / 2 ^ (8 * i) % 2 ^ 8 := calc
  _ = ((m.writeBytes off (bytesLe v n)).read (off + i)).toNat := by cases ord <;> simp [valIn_readBytes, byteShift]
  _ = (BitVec.ofNat 8 (v >>> (8 * i))).toNat := by
    rw [read_writeBytes_inside m off _ (by simpa using hi), getElem_bytesLe]
  _ = v / 2 ^ (8 * i) % 2 ^ 8 := by rw [BitVec.toNat_ofNat, Nat.shiftRight_eq_div_pow]

/-- The four bytes of a little-endian value, read as a big-endian one, are the value with its bytes reversed. -/
theorem valBe_bytesLe_four (v : Nat) :
    valBe (bytesLe v 4) = v % 2 ^ 8 * 2 ^ 24 + v / 2 ^ 8 % 2 ^ 8 * 2 ^ 16 + v / 2 ^ 16 % 2 ^ 8 * 2 ^ 8 +
      v / 2 ^ 24 % 2 ^ 8 := by
  simp [bytesLe_succ, bytesLe_zero, valBe, Nat.div_div_eq_div_mul, Nat.add_assoc]

end Sys2Proof.Machine

namespace Sys2Proof

open Machine

/-- Settles O20, command by command: the checks that come first pass, and the capacity check fails. -/
theorem capacityFaults : Obligations.CapacityFaults := by
  intro s ord
  simp only [faulted_eq_recordFault, exec_enc, exec_dec]
  refine ⟨fun k => encCommand_fault, fun k => decCommand_fault ord, fun l hl hk hc => ?_, fun ek ck => execLpenc_fault,
    fun ek ck => ⟨execLpdec_fault_count, ?_⟩⟩
  · have ht : taggedItems 0 s.reqList = .ok l := hl ▸ taggedItems_of_tagged 0 l hk
    exact ⟨execVdec_fault ht hc, fun hfin => execVenc_fault ht hfin hc⟩
  · rintro hu _ rfl
    exact execLpdec_fault_elements hu

/-- Settles O39: the store leaves the little-endian bytes of v at REQ_OFF; a DEC.U8 reads one of them, a big-endian
DEC.U32 all four at the opposite weights. -/
theorem mixedWidthView : Obligations.MixedWidthView := by
  rintro s t ord v ⟨hcap, -, -⟩ hc hv h
  have hmod : bytesLe v 4 = bytesLe s.reqWord.toNat 4 := hv ▸ bytesIn_mod .little s.reqWord.toNat 4
  obtain rfl : s.stored 4 ⟨bytesLe v 4, s.drawCount⟩ = t := by
    have he := (encCommand_integer (k := .u32) (ord := .little) rfl hc).symm.trans h
    cases he
    rw [hmod]
    rfl
  constructor
  · intro i hi
    have hoff : (s.reqOff + BitVec.ofNat 64 i).toNat = s.reqOff.toNat + i := toNat_add_ofNat (by omega)
    have hci : s.reqOff.toNat + i + Kind.u8.size ≤ s.cfg.bufCap := by
      rw [Kind.size]
      omega
    obtain ⟨u, hu, hw⟩ := decCommand_unsigned (k := .u8) (ord := ord)
      (s := { s.stored 4 ⟨bytesLe v 4, s.drawCount⟩ with reqOff := s.reqOff + BitVec.ofNat 64 i }) rfl rfl hoff hci
    exact ⟨u, hu, hw.trans (valIn_readBytes_one_writeBytes_bytesLe ord s.buf _ v hi)⟩
  · obtain ⟨u, hu, hw⟩ := decCommand_unsigned (k := .u32) (ord := .big)
      (s := s.stored 4 ⟨bytesLe v 4, s.drawCount⟩) rfl rfl rfl hc
    have hread := readBytes_writeBytes s.buf s.reqOff.toNat (bytesLe v 4) (length_bytesLe v 4)
    exact ⟨u, hu, hw.trans ((congrArg valBe hread).trans (valBe_bytesLe_four v))⟩

end Sys2Proof

/-! The command word: the decoder and the encoder invert each other, no word matches two rows, and the illegal words
(obligations O1 to O6). The rows are taken by shape: which fields of the word are free. -/

namespace Sys2Proof

variable {w : CommandWord} {i : Instr}

/-! ### The words of the ten kinds -/

theorem encode_enc (k : Kind) (ord : ByteOrder) : encode (Instr.enc k ord) = packWord 3 ord.code k.code 0 0 0 := by
  cases k <;> rfl

theorem encode_dec (k : Kind) (ord : ByteOrder) : encode (Instr.dec k ord) = packWord 4 ord.code k.code 0 0 0 := by
  cases k <;> rfl

theorem wf_enc (k : Kind) (ord : ByteOrder) : (Instr.enc k ord).wf = true := by cases k <;> rfl

theorem wf_dec (k : Kind) (ord : ByteOrder) : (Instr.dec k ord).wf = true := by cases k <;> rfl

@[simp] theorem CountKind.ofCode_code (k : CountKind) : CountKind.ofCode k.code = k := by cases k <;> decide

/-- All four CK codes are legal (30_encoding R75). -/
@[simp] theorem CountKind.code_ofCode (c : BitVec 2) : (CountKind.ofCode c).code = c := by
  revert c
  decide

/-- The decoder's format check is the one of well-formedness (41_ieee754_packer R101). -/
theorem legalFmt_eq_formatWF (bits expb : BitVec 7) : legalFmt bits.toNat expb.toNat = formatWF bits expb := by
  simp [legalFmt, formatWF, Bool.and_assoc]

/-! ### What a row accepts -/

/-- The row matches the word and reads the command from it (30_encoding R80). -/
def Row.Accepts (r : Row) (w : CommandWord) (i : Instr) : Prop := r.hits w = true ∧ r.build w = .command i

/-- A row with no mnemonic: what the decoder reads of it. -/
def Row.bare (r : Row) : Row := { r with mnemonic := "" }

/-- FPACK and FUNPACK: BITS and EXPB are free (30_encoding R77). -/
def formatRow (opc : BitVec 4) (mk : BitVec 7 → BitVec 7 → Instr) : Row :=
  ⟨"", packWord opc 0 0 0 0 0, 0xFE0007FF, buildFormat mk⟩

/-- ENC, DEC, VENC and VDEC: ORD is free (30_encoding R77). -/
def orderRow (opc ek : BitVec 4) (mk : ByteOrder → Instr) : Row :=
  ⟨"", packWord opc 0 ek 0 0 0, 0xFFFFFFEF, buildOrd mk⟩

/-- LPENC and LPDEC: ORD, EK and CK are free (30_encoding R77). -/
def frameRow (opc : BitVec 4) (mk : ByteOrder → Kind → CountKind → Instr) : Row :=
  ⟨"", packWord opc 0 0 0 0 0, 0xFFFFF80F, buildFrame mk⟩

/-- The ten kinds in the order of their codes (30_encoding R73). -/
def Kind.all : List Kind := [.u8, .i8, .u16, .i16, .u32, .i32, .u64, .i64, .f32, .f64]

theorem Kind.mem_all (k : Kind) : k ∈ Kind.all := by cases k <;> decide

/-- The opcode map by shape (30_encoding R76, R77). -/
theorem map_bare_rows : rows.map Row.bare =
    [formatRow 1 .fpack, formatRow 2 .funpack] ++ Kind.all.map (fun k => orderRow 3 k.code (Instr.enc k)) ++
      Kind.all.map (fun k => orderRow 4 k.code (Instr.dec k)) ++
      [orderRow 5 0 .venc, orderRow 6 0 .vdec, frameRow 7 .lpenc, frameRow 8 .lpdec] :=
  rfl

theorem formatRow_accepts_iff {opc : BitVec 4} {mk : BitVec 7 → BitVec 7 → Instr} :
    (formatRow opc mk).Accepts w i ↔
      ∃ bits expb, formatWF bits expb = true ∧ mk bits expb = i ∧ packWord opc 0 0 0 bits expb = w := by
  simp only [Row.Accepts, formatRow, hits_format, buildFormat, legalFmt_eq_formatWF]
  constructor
  · rintro ⟨⟨ho, hord, hek, hck, -, -, hres⟩, hb⟩
    simp only [opcOf_packWord, getLsbD_packWord, ekOf_packWord, ckOf_packWord, resOf_packWord] at ho hord hek hck hres
    have hlit : (ordOf w).code = 0 := by
      rw [ordOf, hord]
      rfl
    split at hb
    next hf =>
      have hw := packWord_fields hres
      rw [ho, hlit, hek, hck] at hw
      exact ⟨_, _, hf, Verdict.command.inj hb, hw⟩
    next => cases hb
  · rintro ⟨bits, expb, hf, rfl, rfl⟩
    simp [hf]

theorem orderRow_accepts_iff {opc ek : BitVec 4} {mk : ByteOrder → Instr} :
    (orderRow opc ek mk).Accepts w i ↔ ∃ ord, mk ord = i ∧ packWord opc ord.code ek 0 0 0 = w := by
  simp only [Row.Accepts, orderRow, hits_order, buildOrd]
  constructor
  · rintro ⟨⟨ho, -, hek, hck, hbits, hexpb, hres⟩, hb⟩
    simp only [opcOf_packWord, ekOf_packWord, ckOf_packWord, bitsOf_packWord, expbOf_packWord, resOf_packWord]
      at ho hek hck hbits hexpb hres
    have hw := packWord_fields hres
    rw [ho, hek, hck, hbits, hexpb] at hw
    exact ⟨_, Verdict.command.inj hb, hw⟩
  · rintro ⟨ord, rfl, rfl⟩
    simp

theorem frameRow_accepts_iff {opc : BitVec 4} {mk : ByteOrder → Kind → CountKind → Instr} :
    (frameRow opc mk).Accepts w i ↔
      ∃ ord ek ck, mk ord ek ck = i ∧ packWord opc ord.code ek.code ck.code 0 0 = w := by
  simp only [Row.Accepts, frameRow, hits_frame, buildFrame]
  constructor
  · rintro ⟨⟨ho, -, -, -, hbits, hexpb, hres⟩, hb⟩
    simp only [opcOf_packWord, bitsOf_packWord, expbOf_packWord, resOf_packWord] at ho hbits hexpb hres
    cases hk : Kind.ofCode (ekOf w) with
    | none => rw [hk] at hb; cases hb
    | some k =>
      rw [hk] at hb
      have hw := packWord_fields hres
      rw [ho, hbits, hexpb, Kind.code_of_ofCode hk, ← CountKind.code_ofCode (ckOf w)] at hw
      exact ⟨_, _, _, Verdict.command.inj hb, hw⟩
  · rintro ⟨ord, ek, ck, rfl, rfl⟩
    simp

/-- A row of the map accepts exactly the words of well-formed commands, each with its own command. -/
theorem exists_row_accepts_iff : (∃ r ∈ rows, r.Accepts w i) ↔ i.wf = true ∧ encode i = w := by
  have hbare : (∃ r ∈ rows, r.Accepts w i) ↔ ∃ r ∈ rows.map Row.bare, r.Accepts w i := by
    simp only [List.mem_map, exists_exists_and_eq_and]
    rfl
  rw [hbare, map_bare_rows]
  simp only [List.cons_append, List.nil_append, List.append_assoc, List.mem_cons, List.mem_append, List.mem_map,
    Kind.mem_all, true_and, List.not_mem_nil, or_false, or_and_right, exists_or, ↓existsAndEq, formatRow_accepts_iff,
    orderRow_accepts_iff, frameRow_accepts_iff]
  constructor
  · rintro (⟨b, e, hf, rfl, rfl⟩ | ⟨b, e, hf, rfl, rfl⟩ | ⟨k, o, rfl, rfl⟩ | ⟨k, o, rfl, rfl⟩ | ⟨o, rfl, rfl⟩ |
      ⟨o, rfl, rfl⟩ | ⟨o, ek, ck, rfl, rfl⟩ | ⟨o, ek, ck, rfl, rfl⟩)
    · exact ⟨hf, rfl⟩
    · exact ⟨hf, rfl⟩
    · exact ⟨wf_enc k o, encode_enc k o⟩
    · exact ⟨wf_dec k o, encode_dec k o⟩
    all_goals exact ⟨rfl, rfl⟩
  · rintro ⟨hf, rfl⟩
    rcases Machine.instr_shapes i with ⟨b, e, rfl⟩ | ⟨b, e, rfl⟩ | ⟨k, o, rfl⟩ | ⟨k, o, rfl⟩ | ⟨o, rfl⟩ | ⟨o, rfl⟩ |
      ⟨o, ek, ck, rfl⟩ | ⟨o, ek, ck, rfl⟩
    · exact .inl ⟨b, e, hf, rfl, rfl⟩
    · exact .inr (.inl ⟨b, e, hf, rfl, rfl⟩)
    · exact .inr (.inr (.inl ⟨k, o, rfl, (encode_enc k o).symm⟩))
    · exact .inr (.inr (.inr (.inl ⟨k, o, rfl, (encode_dec k o).symm⟩)))
    · exact .inr (.inr (.inr (.inr (.inl ⟨o, rfl, rfl⟩))))
    · exact .inr (.inr (.inr (.inr (.inr (.inl ⟨o, rfl, rfl⟩)))))
    · exact .inr (.inr (.inr (.inr (.inr (.inr (.inl ⟨o, ek, ck, rfl, rfl⟩))))))
    · exact .inr (.inr (.inr (.inr (.inr (.inr (.inr ⟨o, ek, ck, rfl, rfl⟩))))))

/-! ### No word matches two rows -/

/-- The match words of two rows that match one word agree under both masks. -/
theorem Row.agree_of_hits {r t : Row} (hr : r.hits w = true) (ht : t.hits w = true) :
    r.value &&& t.mask = t.value &&& r.mask := by
  simp only [Row.hits, beq_iff_eq] at hr ht
  rw [← hr, ← ht, BitVec.and_assoc, BitVec.and_assoc, BitVec.and_comm r.mask]

/-- The match words of two rows differ in a bit that both masks keep (30_encoding R77). -/
theorem pairwise_rows_disagree : rows.Pairwise fun r t => r.value &&& t.mask ≠ t.value &&& r.mask := by decide

/-- Settles O3: two rows that match one word agree under both masks, and no two rows of the map do. -/
theorem atMostOneRowMatches : Obligations.AtMostOneRowMatches := by
  intro w j k hj hk hjw hkw
  have hne := List.pairwise_iff_getElem.1 pairwise_rows_disagree
  rcases lt_trichotomy j k with hlt | heq | hgt
  · exact absurd (Row.agree_of_hits hjw hkw) (hne j k hj hk hlt)
  · exact heq
  · exact absurd (Row.agree_of_hits hkw hjw) (hne k j hk hj hgt)

/-! ### The decoder's verdict -/

/-- A row that matches the word is the one the decoder takes (30_encoding R77, R80). -/
theorem decode_of_hits {r : Row} (hr : r ∈ rows) (hw : r.hits w = true) : decode w = r.build w := by
  rw [decode]
  cases hf : rows.find? (·.hits w) with
  | none => exact absurd hw (List.find?_eq_none.1 hf r hr)
  | some t =>
    obtain ⟨j, hj, rfl⟩ := List.getElem_of_mem hr
    obtain ⟨k, hk, rfl⟩ := List.getElem_of_mem (List.mem_of_find?_eq_some hf)
    cases atMostOneRowMatches w j k hj hk hw (List.find?_some (p := fun r : Row => r.hits w) hf)
    rfl

/-- The decoder reads a command from a word exactly when a row accepts the word with it (30_encoding R80). -/
theorem decode_eq_command_iff_row : decode w = .command i ↔ ∃ r ∈ rows, r.Accepts w i := by
  constructor
  · intro h
    rw [decode] at h
    split at h
    next r hf => exact ⟨r, List.mem_of_find?_eq_some hf, List.find?_some (p := fun r : Row => r.hits w) hf, h⟩
    next => cases h
  · rintro ⟨r, hr, hw, hb⟩
    rw [decode_of_hits hr hw, hb]

/-- The decoder reads a command exactly from the word of that command, when it is well formed. -/
theorem decode_eq_command_iff : decode w = .command i ↔ i.wf = true ∧ encode i = w :=
  decode_eq_command_iff_row.trans exists_row_accepts_iff

/-- Settles O1, by the row that accepts the command's word. -/
theorem decodeInvertsEncode : Obligations.DecodeInvertsEncode := fun _ hwf => decode_eq_command_iff.2 ⟨hwf, rfl⟩

/-- Settles O2, by what the row that matched accepts. -/
theorem encodeInvertsDecode : Obligations.EncodeInvertsDecode := fun _ _ => decode_eq_command_iff.1

/-! ### Illegal words -/

theorem formatWF_iff {bits expb : BitVec 7} : formatWF bits expb = true ↔
    2 ≤ bits.toNat ∧ bits.toNat ≤ 64 ∧ 1 ≤ expb.toNat ∧ expb.toNat ≤ bits.toNat - 1 := by
  simp [formatWF, and_assoc]

/-- The fields of a legal word, by opcode: the free ones legal, the others 0 (30_encoding R76). -/
def LegalFields (w : CommandWord) : Prop :=
  resOf w = 0 ∧
    ((opcOf w = 1 ∨ opcOf w = 2) ∧ ordOf w = .little ∧ ekOf w = 0 ∧ ckOf w = 0 ∧
        formatWF (bitsOf w) (expbOf w) = true ∨
      (opcOf w = 3 ∨ opcOf w = 4) ∧ Kind.ofCode (ekOf w) ≠ none ∧ ckOf w = 0 ∧ bitsOf w = 0 ∧ expbOf w = 0 ∨
      (opcOf w = 5 ∨ opcOf w = 6) ∧ ekOf w = 0 ∧ ckOf w = 0 ∧ bitsOf w = 0 ∧ expbOf w = 0 ∨
      (opcOf w = 7 ∨ opcOf w = 8) ∧ Kind.ofCode (ekOf w) ≠ none ∧ bitsOf w = 0 ∧ expbOf w = 0)

/-- A word packed with ORD = 0 has the order little (30_encoding R71). -/
@[simp] theorem ordOf_packWord_zero (opc ek : BitVec 4) (ck : BitVec 2) (bits expb : BitVec 7) :
    ordOf (packWord opc 0#1 ek ck bits expb) = .little :=
  ordOf_packWord opc ek ck bits expb .little

theorem legalFields_encode (hwf : i.wf = true) : LegalFields (encode i) := by
  rcases Machine.instr_shapes i with ⟨b, e, rfl⟩ | ⟨b, e, rfl⟩ | ⟨k, o, rfl⟩ | ⟨k, o, rfl⟩ | ⟨o, rfl⟩ | ⟨o, rfl⟩ |
    ⟨o, ek, ck, rfl⟩ | ⟨o, ek, ck, rfl⟩
  · simp [LegalFields, encode, show formatWF b e = true from hwf]
  · simp [LegalFields, encode, show formatWF b e = true from hwf]
  · simp [LegalFields, encode_enc]
  · simp [LegalFields, encode_dec]
  all_goals simp [LegalFields, encode]

/-- A word with the fields of R76 is the word of a well-formed command. -/
theorem exists_encode_eq (h : LegalFields w) : ∃ i : Instr, i.wf = true ∧ encode i = w := by
  obtain ⟨hres, h⟩ := h
  have hw := packWord_fields hres
  rcases h with ⟨ho, hord, hek, hck, hf⟩ | ⟨ho, hk, hck, hb, he⟩ | ⟨ho, hek, hck, hb, he⟩ | ⟨ho, hk, hb, he⟩
  · rw [hord, hek, hck] at hw
    rcases ho with ho | ho <;> rw [ho] at hw
    · exact ⟨.fpack (bitsOf w) (expbOf w), hf, hw⟩
    · exact ⟨.funpack (bitsOf w) (expbOf w), hf, hw⟩
  · obtain ⟨k, hk⟩ := Option.ne_none_iff_exists'.1 hk
    rw [Kind.code_of_ofCode hk, hck, hb, he] at hw
    rcases ho with ho | ho <;> rw [ho] at hw
    · exact ⟨.enc k (ordOf w), wf_enc k _, (encode_enc k _).trans hw⟩
    · exact ⟨.dec k (ordOf w), wf_dec k _, (encode_dec k _).trans hw⟩
  · rw [hek, hck, hb, he] at hw
    rcases ho with ho | ho <;> rw [ho] at hw
    · exact ⟨.venc (ordOf w), rfl, hw⟩
    · exact ⟨.vdec (ordOf w), rfl, hw⟩
  · obtain ⟨k, hk⟩ := Option.ne_none_iff_exists'.1 hk
    rw [Kind.code_of_ofCode hk, ← CountKind.code_ofCode (ckOf w), hb, he] at hw
    rcases ho with ho | ho <;> rw [ho] at hw
    · exact ⟨.lpenc (ordOf w) k (CountKind.ofCode (ckOf w)), rfl, hw⟩
    · exact ⟨.lpdec (ordOf w) k (CountKind.ofCode (ckOf w)), rfl, hw⟩

/-- The illegal words are those whose fields are not a legal word's (30_encoding R80, R81). -/
theorem exists_decode_eq_illegal_iff : (∃ why, decode w = .illegal why) ↔ ¬LegalFields w := by
  constructor
  · rintro ⟨why, hd⟩ h
    obtain ⟨i, hi⟩ := exists_encode_eq h
    rw [decode_eq_command_iff.2 hi] at hd
    cases hd
  · intro h
    cases hd : decode w with
    | command i =>
      obtain ⟨hwf, rfl⟩ := decode_eq_command_iff.1 hd
      exact absurd (legalFields_encode hwf) h
    | illegal why => exact ⟨why, rfl⟩

/-- OPC 0 and 9 to 15 are reserved, 1 to 8 are not (30_encoding R76). -/
theorem opcode_cases (c : BitVec 4) :
    c = 0 ∨ 9 ≤ c.toNat ∨ c = 1 ∨ c = 2 ∨ c = 3 ∨ c = 4 ∨ c = 5 ∨ c = 6 ∨ c = 7 ∨ c = 8 := by
  revert c
  decide

/-- Settles O4: by opcode, the listed words are those with no legal fields; the fault is the one an issue of an
illegal word records. -/
theorem illegalWordsFault : Obligations.IllegalWordsFault := by
  intro w
  refine ⟨?_, fun ⟨why, hd⟩ s rest hf h => ?_⟩
  · have hord : ordOf w = .big ↔ ¬ordOf w = .little := by cases ordOf w <;> decide
    rw [exists_decode_eq_illegal_iff, LegalFields, ← formatWF_iff, ← Kind.ofCode_eq_none, hord]
    rcases opcode_cases (opcOf w) with h | h | h | h | h | h | h | h | h | h
    · simp [h]
    · have hne : ∀ c : BitVec 4, c.toNat < 9 → opcOf w ≠ c := by
        rintro c hc rfl
        omega
      simp [h, hne]
    all_goals
      simp [h]
      tauto
  · rw [Machine.faulted_eq_recordFault, Machine.step_write_reqCw h]
    exact Machine.issue_illegal hf hd

/-- Settles O5: the words are those the encoder gives. -/
theorem workedEncodings : Obligations.WorkedEncodings := by
  simp only [Obligations.WorkedEncodings, decode_eq_command_iff]
  decide

/-! ### The text of a command -/

@[simp] theorem ByteOrder.named_suffix (o : ByteOrder) : ByteOrder.named o.suffix = some o := by cases o <;> decide

@[simp] theorem Kind.named_suffix (k : Kind) : Kind.named k.suffix = some k := by cases k <;> decide

@[simp] theorem CountKind.named_suffix (k : CountKind) : CountKind.named k.suffix = some k := by cases k <;> decide

@[simp] theorem field7_toNat (b : BitVec 7) : field7 b.toNat = some b := by simp [field7, b.isLt]

theorem tokens_enc (k : Kind) (o : ByteOrder) :
    (Instr.enc k o).tokens = [.word "enc", .word k.suffix, .word o.suffix] := by
  cases k <;> rfl

theorem tokens_dec (k : Kind) (o : ByteOrder) :
    (Instr.dec k o).tokens = [.word "dec", .word k.suffix, .word o.suffix] := by
  cases k <;> rfl

/-- Settles O6, shape by shape: each suffix names the kind, count kind or order it is the suffix of. -/
theorem mnemonicTextNamesTheCommand : Obligations.MnemonicTextNamesTheCommand := by
  intro i
  rcases Machine.instr_shapes i with ⟨b, e, rfl⟩ | ⟨b, e, rfl⟩ | ⟨k, o, rfl⟩ | ⟨k, o, rfl⟩ | ⟨o, rfl⟩ | ⟨o, rfl⟩ |
    ⟨o, ek, ck, rfl⟩ | ⟨o, ek, ck, rfl⟩
  · simp [Instr.tokens, Instr.ofTokens]
  · simp [Instr.tokens, Instr.ofTokens]
  · simp [tokens_enc, Instr.ofTokens]
  · simp [tokens_dec, Instr.ofTokens]
  all_goals simp [Instr.tokens, Instr.ofTokens]

end Sys2Proof

/-! The IEEE754 Packer (obligations O19, O21 to O31): quantize as a floor, what pack and unpack give on the fields of a
pattern, the round trip, and the packer's commands. -/

namespace Sys2Proof.Machine

variable {z : Quantize} {bits expb sign ef sig w biased n : Nat} {q f : Rat} {e : Int}

/-! ### quantize is a floor -/

/-- The expression PACK_QUANTIZE takes the floor of (41_ieee754_packer R106). -/
def quantizeArg (z : Quantize) (f : Rat) (sb : Nat) : Rat :=
  match z with
  | .addHalfUlp => f * 2 ^ sb + 1 / 2
  | .scalePlusHalf => f * (2 ^ sb + 1 / 2)

theorem quantize_eq_floor (z : Quantize) (f : Rat) (sb : Nat) : quantize z f sb = (quantizeArg z f sb).floor.toNat := by
  cases z <;> simp [quantize, quantizeArg, pow2_natCast]

theorem quantizeArg_nonneg (z : Quantize) (sb : Nat) (h : 0 ≤ f) : 0 ≤ quantizeArg z f sb := by
  cases z <;> simp only [quantizeArg] <;> positivity

/-- quantize is the only natural number n with `n <= x < n + 1`, x the expression of R106. -/
theorem quantize_eq_iff (z : Quantize) (sb : Nat) (h : 0 ≤ f) :
    quantize z f sb = n ↔ (n : Rat) ≤ quantizeArg z f sb ∧ quantizeArg z f sb < (n : Rat) + 1 := by
  obtain ⟨hlo, hhi⟩ := floor_toNat_bounds (quantizeArg_nonneg z sb h)
  rw [quantize_eq_floor]
  refine ⟨fun hn => hn ▸ ⟨hlo, hhi⟩, fun ⟨h1, h2⟩ => ?_⟩
  have hle := lt_of_le_of_lt h1 hhi
  have hge := lt_of_le_of_lt hlo h2
  norm_cast at hle hge
  omega

/-- A fraction of sb bits is quantized to itself: both readings add less than one. -/
theorem quantize_eq_of_exact (z : Quantize) {sb : Nat} (h0 : 0 ≤ f) (h1 : f < 1) (hn : f * 2 ^ sb = n) :
    quantize z f sb = n := by
  rw [quantize_eq_iff z sb h0]
  cases z with
  | addHalfUlp => rw [quantizeArg, hn]; constructor <;> linarith
  | scalePlusHalf => rw [quantizeArg, mul_add, hn]; constructor <;> linarith

/-! ### pack in range and out of range -/

theorem two_le_two_pow (he : 1 ≤ expb) : 2 ≤ 2 ^ expb := Nat.le_self_pow (by omega) 2

/-- The greatest biased exponent pack writes, as an integer (41_ieee754_packer R104). -/
theorem cast_maxBiased (he : 1 ≤ expb) : ((2 ^ expb - 2 : Nat) : Int) = 2 ^ expb - 2 := by
  push_cast [two_le_two_pow he]
  rfl

/-- There are `2 bias + 2` exponent fields, since `bias + 1 = 2^(expbits-1)` (41_ieee754_packer R100). -/
theorem two_pow_eq_two_mul (he : 1 ≤ expb) : (2 : Int) ^ expb = 2 * 2 ^ (expb - 1) :=
  (mul_pow_sub_one (by omega) 2).symm

/-- The fraction that bounds of the magnitude give lies in `[0, 1)` (41_ieee754_packer R104). -/
theorem fraction_bounds (h1 : (2 : Rat) ^ e ≤ |q|) (h2 : |q| < (2 : Rat) ^ (e + 1)) :
    0 ≤ |q| / (2 : Rat) ^ e - 1 ∧ |q| / (2 : Rat) ^ e - 1 < 1 := by
  obtain ⟨-, h0, hf⟩ := exponentOf_of_bounds h1 h2
  exact hf ▸ fractionOf_bounds h0

/-- pack of a nonzero value in range is the OR of the fields (41_ieee754_packer R104). -/
theorem pack_eq_compose (z : Quantize) (he : 1 ≤ expb) (h1 : (2 : Rat) ^ e ≤ |q|) (h2 : |q| < (2 : Rat) ^ (e + 1))
    (hb : (biased : Int) = e + (2 ^ (expb - 1) - 1)) (hr : biased ≤ 2 ^ expb - 2) :
    pack z q bits expb = .ok (compose bits expb (if q < 0 then 1 else 0) biased
      (quantize z (|q| / (2 : Rat) ^ e - 1) (sigBits bits expb))) := by
  obtain ⟨hexp, h0, hf⟩ := exponentOf_of_bounds h1 h2
  have hbias : exponentOf q + bias expb = biased := by rw [hexp, bias_cast, hb]
  have hrange : ¬((biased : Int) < 0 ∨ (biased : Int) > 2 ^ expb - 2) := by
    have := cast_maxBiased he
    omega
  simp only [pack, if_neg h0, hbias, if_neg hrange, hf, Int.toNat_natCast]

/-- A power of two has fraction 0. -/
theorem exponentOf_fractionOf_of_abs_eq (h : |q| = (2 : Rat) ^ e) : exponentOf q = e ∧ fractionOf q = 0 := by
  have hlt : |q| < (2 : Rat) ^ (e + 1) := h ▸ zpow_lt_zpow_right₀ one_lt_two (lt_add_one e)
  obtain ⟨hexp, -, hf⟩ := exponentOf_of_bounds h.ge hlt
  refine ⟨hexp, ?_⟩
  rw [hf, h, div_self (by positivity), sub_self]

/-- A value of the least magnitude has biased exponent 0 and significand 0: its pattern is its sign bit
(41_ieee754_packer R113). -/
theorem pack_least (z : Quantize) (bits : Nat) (he : 1 ≤ expb)
    (h : |q| = (2 : Rat) ^ (-((2 : Int) ^ (expb - 1) - 1))) :
    pack z q bits expb = .ok ((if q < 0 then 1 else 0) <<< (bits - 1)) := by
  rw [pack_eq_compose (biased := 0) z he h.ge (h ▸ zpow_lt_zpow_right₀ one_lt_two (lt_add_one _)) (by simp)
    (Nat.zero_le _), h, div_self (by positivity), sub_self, quantize_zero]
  simp [compose]

/-- A power of two is above a magnitude exactly when its exponent is above the value's. -/
theorem abs_lt_two_zpow_iff (h : q ≠ 0) (c : Int) : |q| < (2 : Rat) ^ c ↔ exponentOf q < c := by
  obtain ⟨h1, h2⟩ := exponentOf_bounds h
  rw [magnitude_eq_abs] at h1 h2
  rw [← pow2_eq_zpow]
  constructor
  · intro hlt
    by_contra hc
    exact absurd (lt_of_lt_of_le hlt (pow2_le (not_lt.1 hc))) (not_lt.2 h1)
  · exact fun hlt => lt_of_lt_of_le h2 (pow2_le hlt)

/-- pack is UNDEF exactly outside the exponent range (41_ieee754_packer R105). -/
theorem pack_eq_undef_iff (he : 1 ≤ expb) (h : q ≠ 0) :
    pack z q bits expb = .undef ↔
      |q| < (2 : Rat) ^ (-((2 : Int) ^ (expb - 1) - 1)) ∨ (2 : Rat) ^ ((2 : Int) ^ (expb - 1)) ≤ |q| := by
  rw [← not_lt (a := |q|), abs_lt_two_zpow_iff h, abs_lt_two_zpow_iff h]
  have hb := bias_cast expb
  have hx := two_pow_eq_two_mul he
  simp only [pack, if_neg h]
  split
  · simp only [true_iff]
    omega
  · simp only [reduceCtorEq, false_iff]
    omega

/-! ### unpack of the fields of a pattern -/

section
variable (h2 : 2 ≤ bits) (hb : expb ≤ bits - 1) (hs : sign ≤ 1)
include h2 hb hs

/-- unpack of a nonzero pattern by its fields (41_ieee754_packer R109). -/
theorem unpack_fields (hef : ef < 2 ^ expb) (hsig : sig < 2 ^ sigBits bits expb)
    (hw : w = sign * 2 ^ (bits - 1) + ef * 2 ^ sigBits bits expb + sig) (h0 : w ≠ 0) :
    unpack w bits expb =
      (-1) ^ sign * (1 + (sig : Rat) / 2 ^ sigBits bits expb) * (2 : Rat) ^ ((ef : Int) - (2 ^ (expb - 1) - 1)) := by
  rw [unpack, if_neg h0, unpackFormula_fields h2 hb hs hef hsig hw]

/-- A pattern with significand 0 has a power of two for its magnitude. -/
theorem abs_unpack_of_sig_zero (hef : ef < 2 ^ expb) (hw : w = sign * 2 ^ (bits - 1) + ef * 2 ^ sigBits bits expb)
    (h0 : w ≠ 0) : |unpack w bits expb| = (2 : Rat) ^ ((ef : Int) - (2 ^ (expb - 1) - 1)) := by
  rw [unpack_fields (sig := 0) h2 hb hs hef (Nat.two_pow_pos _) hw h0]
  simp [abs_mul]

end

section
variable (h2 : 2 ≤ bits) (hb : expb ≤ bits - 1)
include h2 hb

/-- The formula's value is never 0, whatever the fields (41_ieee754_packer R110). -/
theorem unpackFormula_ne_zero (hw : w < 2 ^ bits) : unpackFormula w bits expb ≠ 0 := by
  obtain ⟨sign, ef, sig, hs, hef, hsig, heq⟩ := exists_fields h2 hb hw
  rw [unpackFormula_fields h2 hb hs hef hsig heq]
  have hm : 1 + (sig : Rat) / 2 ^ sigBits bits expb ≠ 0 := by positivity
  have hp : (2 : Rat) ^ ((ef : Int) - (2 ^ (expb - 1) - 1)) ≠ 0 := by positivity
  exact mul_ne_zero (mul_ne_zero (pow_ne_zero _ (by norm_num)) hm) hp

/-- The formula on the zero word (41_ieee754_packer R110). -/
theorem unpackFormula_zero : unpackFormula 0 bits expb = (2 : Rat) ^ (-((2 : Int) ^ (expb - 1) - 1)) := by
  rw [unpackFormula_fields (sign := 0) (ef := 0) (sig := 0) h2 hb (Nat.zero_le 1) (Nat.two_pow_pos _)
    (Nat.two_pow_pos _) (by simp)]
  simp

/-- The sign-only word (41_ieee754_packer R116). -/
theorem unpack_sign_only : unpack (1 <<< (bits - 1)) bits expb = -(2 : Rat) ^ (-((2 : Int) ^ (expb - 1) - 1)) := by
  have h0 : 1 <<< (bits - 1) ≠ 0 := by simp [shiftLeft_one]
  rw [unpack_fields (sign := 1) (ef := 0) (sig := 0) h2 hb le_rfl (Nat.two_pow_pos _) (Nat.two_pow_pos _)
    (by simp [shiftLeft_one]) h0]
  simp

end

@[simp] theorem unpack_zero (bits expb : Nat) : unpack 0 bits expb = 0 := if_pos rfl

@[simp] theorem pack_zero (z : Quantize) (bits expb : Nat) : pack z 0 bits expb = .ok 0 := if_pos rfl

/-- An all-ones exponent field is one more than the range pack writes: `2^expbits - 1 - bias` (41_ieee754_packer
R117). -/
theorem unpack_all_ones (h2 : 2 ≤ bits) (he : 1 ≤ expb) (hb : expb ≤ bits - 1) (hs : sign ≤ 1)
    (hsig : sig < 2 ^ sigBits bits expb) :
    unpack (sign * 2 ^ (bits - 1) + (2 ^ expb - 1) * 2 ^ sigBits bits expb + sig) bits expb =
      (-1) ^ sign * (1 + (sig : Rat) / 2 ^ sigBits bits expb) * (2 : Rat) ^ ((2 : Int) ^ (expb - 1)) := by
  have htwo := two_le_two_pow he
  have hpos : 0 < (2 ^ expb - 1) * 2 ^ sigBits bits expb := Nat.mul_pos (by omega) (Nat.two_pow_pos _)
  rw [unpack_fields h2 hb hs (by omega) hsig rfl (by omega)]
  congr 2
  have hx := two_pow_eq_two_mul he
  push_cast [Nat.one_le_two_pow]
  omega

/-! ### The round trip -/

/-- A value of at most sb + 1 significant bits has a fraction of sb bits: m is below 2^(sb+1) and `m 2^k` at least 2^e,
so k is at least `e - sb` (41_ieee754_packer R111). -/
theorem exists_fraction_eq {m sb : Nat} {k : Int} (hq : |q| = m * (2 : Rat) ^ k) (hm : m < 2 ^ (sb + 1))
    (h1 : (2 : Rat) ^ e ≤ |q|) (h2 : |q| < (2 : Rat) ^ (e + 1)) :
    ∃ n : Nat, n < 2 ^ sb ∧ (|q| / (2 : Rat) ^ e - 1) * 2 ^ sb = n := by
  have hk : 0 ≤ k + sb - e := by
    by_contra hneg
    have hlt : (2 : Rat) ^ e < 2 ^ e := calc
      (2 : Rat) ^ e ≤ m * 2 ^ k := hq ▸ h1
      _ < 2 ^ ((sb : Int) + 1) * 2 ^ k := by
        have : (m : Rat) < 2 ^ (sb + 1) := by exact_mod_cast hm
        exact mul_lt_mul_of_pos_right (by exact_mod_cast this) (by positivity)
      _ = 2 ^ ((sb : Int) + 1 + k) := (zpow_add₀ two_ne_zero _ _).symm
      _ ≤ 2 ^ e := zpow_le_zpow_right₀ one_le_two (by omega)
    exact lt_irrefl _ hlt
  obtain ⟨j, hj⟩ := Int.eq_ofNat_of_zero_le hk
  have hint : (|q| / (2 : Rat) ^ e - 1) * 2 ^ sb = (m * 2 ^ j : Nat) - (2 ^ sb : Nat) := by
    have hj' : (2 : Rat) ^ k * 2 ^ sb / 2 ^ e = 2 ^ j := by
      rw [← zpow_natCast 2 sb, ← zpow_natCast 2 j, ← zpow_add₀ two_ne_zero, ← zpow_sub₀ two_ne_zero]
      exact congrArg _ hj
    push_cast
    rw [hq, ← hj']
    ring
  obtain ⟨hlo, hhi⟩ := fraction_bounds h1 h2
  have hpos : (0 : Rat) < 2 ^ sb := by positivity
  have hge : 2 ^ sb ≤ m * 2 ^ j := by
    have : (0 : Rat) ≤ (m * 2 ^ j : Nat) - (2 ^ sb : Nat) := hint ▸ mul_nonneg hlo hpos.le
    exact_mod_cast sub_nonneg.1 this
  refine ⟨m * 2 ^ j - 2 ^ sb, ?_, by rw [hint, Nat.cast_sub hge]⟩
  have hlt : ((m * 2 ^ j : Nat) : Rat) - (2 ^ sb : Nat) < (2 ^ sb : Nat) := by
    rw [← hint]
    push_cast
    nlinarith
  rw [← Nat.cast_sub hge] at hlt
  exact_mod_cast hlt

/-- The sign bit gives back the sign. -/
theorem sign_mul_abs (q : Rat) : (-1) ^ (if q < 0 then 1 else 0) * |q| = q := by
  split
  · simp [abs_of_neg ‹_›]
  · simp [abs_of_nonneg (not_lt.1 ‹_›)]

/-- The pattern of an exact fraction has the value it was packed from; only +2^(-bias) has the zero word for its
pattern (41_ieee754_packer R111, R113). -/
theorem unpack_compose (h2 : 2 ≤ bits) (hb : expb ≤ bits - 1) (hbiased : (biased : Int) = e + (2 ^ (expb - 1) - 1))
    (hr : biased < 2 ^ expb) (hn : n < 2 ^ sigBits bits expb)
    (hf : (|q| / (2 : Rat) ^ e - 1) * 2 ^ sigBits bits expb = n)
    (hq : q ≠ (2 : Rat) ^ (-((2 : Int) ^ (expb - 1) - 1))) :
    unpack (compose bits expb (if q < 0 then 1 else 0) biased n) bits expb = q := by
  have hs : (if q < 0 then 1 else 0) ≤ 1 := by split <;> omega
  have hval : unpackFormula (compose bits expb (if q < 0 then 1 else 0) biased n) bits expb = q := by
    rw [unpackFormula_fields h2 hb hs hr hn (compose_eq_sum h2 hb hr hn), ← hf, hbiased, add_sub_cancel_right]
    field_simp
    rw [add_sub_cancel]
    exact sign_mul_abs q
  rw [unpack, if_neg, hval]
  intro h0
  rw [h0, unpackFormula_zero h2 hb] at hval
  exact hq hval.symm

/-! ### The commands -/

variable {s : State} {ord : ByteOrder}

/-- The state FPACK of a finite operand leaves, when pack answers with a pattern (41_ieee754_packer R102). -/
theorem execFpack_ok {bits expb : BitVec 7} {p : Nat} (hq : finiteValue s.reqFval = some q)
    (hp : pack s.cfg.quantize q bits.toNat expb.toNat = .ok p) :
    execFpack bits expb s = .next { s with rspWord := BitVec.ofNat 64 p } := by
  simp only [execFpack, hq, packOrDraw, hp]
  rfl

/-- The state FPACK of a finite operand leaves, when pack is UNDEF (41_ieee754_packer R105). -/
theorem execFpack_undef {bits expb : BitVec 7} (hq : finiteValue s.reqFval = some q)
    (hp : pack s.cfg.quantize q bits.toNat expb.toNat = .undef) :
    execFpack bits expb s = .next { s with
      rspWord := BitVec.ofNat 64 (drawBits bits.toNat s.drawCount), drawCount := s.drawCount + 1 } := by
  simp only [execFpack, hq, packOrDraw, hp]
  rfl

theorem execFpack_nonfinite (bits expb : BitVec 7) (hq : finiteValue s.reqFval = none) :
    execFpack bits expb s = .next (s.recordFault ⟨.nonfiniteOperand, 0⟩) := by
  simp only [execFpack, hq]
  rfl

/-- The state FUNPACK leaves (41_ieee754_packer R108). -/
theorem execFunpack_eq {bits expb : BitVec 7}
    (h : unpack (s.reqWord.toNat % 2 ^ bits.toNat) bits.toNat expb.toNat = q) :
    execFunpack bits expb s = .next { s with rspFval := .fin q } := by
  rw [execFunpack, h]
  rfl

theorem encCommand_nonfinite {k : Kind} (hk : k.isFloat = true) (hq : finiteValue s.reqFval = none) :
    encCommand k ord s = .next (s.recordFault ⟨.nonfiniteOperand, 0⟩) := by
  simp only [encCommand, encBytes_nonfinite s.cfg ord 0 s.drawCount (it := ⟨k.code, s.reqWord, s.reqFval⟩) hk hq]
  rfl

/-- The first float item that is not finite is the one reported (41_ieee754_packer R115). -/
theorem encItems_nonfinite {c : Params} {l : List (Kind × Item)} {i : Nat} (idx d : Nat) (hi : i < l.length)
    (hf : l[i].1.isFloat = true) (hq : finiteValue l[i].2.real = none)
    (hlt : ∀ j, ∀ hj : j < i, (l[j]'(by omega)).1.isFloat = true → finiteValue (l[j]'(by omega)).2.real ≠ none) :
    encItems c ord idx d l = .error ⟨.nonfiniteOperand, idx + i⟩ := by
  cases he : encItems c ord idx d l with
  | ok e => exact absurd hq (finite_of_encItems he _ (List.getElem_mem hi) hf)
  | error r =>
    obtain ⟨i', hi', rfl, hf', hq', hlt'⟩ := encItems_error he
    rcases Nat.lt_trichotomy i i' with h | rfl | h
    · exact absurd hq (hlt' i h hf)
    · rfl
    · exact absurd hq' (hlt i' h hf')

theorem execVenc_of_encItems_error {l : List (Kind × Item)} {r : Raise} (ht : taggedItems 0 s.reqList = .ok l)
    (he : encItems s.cfg ord 0 s.drawCount l = .error r) : execVenc ord s = .next (s.recordFault r) := by
  simp only [execVenc, ht, he]
  rfl

theorem execLpenc_of_encItems_error {ek : Kind} {ck : CountKind} {r : Raise}
    (hn : s.reqList.length ≤ 2 ^ (8 * ck.size) - 1)
    (he : encItems s.cfg ord 0 s.drawCount (s.reqList.map fun it => (ek, it)) = .error r) :
    execLpenc ord ek ck s = .next (s.recordFault r) := by
  simp only [execLpenc, if_neg (not_lt.2 hn), he]
  rfl

/-- The float kinds are those of codes 8 and 9 (30_encoding R73). -/
theorem isFloat_iff_code (k : Kind) : k.isFloat = true ↔ 8 ≤ k.code.toNat := by cases k <;> decide

theorem finiteValue_ne_none {x : FVal} (h : x = .negZero ∨ ∃ q, x = .fin q) : finiteValue x ≠ none := by
  rcases h with rfl | ⟨q, rfl⟩ <;> simp [finiteValue]

/-- Items of legal kinds are tagged with the kinds of their codes (43_variadic_codec R164). -/
theorem taggedItems_of_legal {l : List Item} (idx : Nat) (h : ∀ it ∈ l, it.kind.toNat ≤ 9) :
    ∃ t, taggedItems idx l = .ok t := by
  cases ht : taggedItems idx l with
  | ok t => exact ⟨t, rfl⟩
  | error r =>
    obtain ⟨i, hi, -, hk, -⟩ := taggedItems_error ht
    have := h _ (List.getElem_mem hi)
    omega

/-- VENC on legal kinds reports its first float item that is not finite. -/
theorem execVenc_nonfinite {i : Nat} (hi : i < s.reqList.length) (hk : ∀ it ∈ s.reqList, it.kind.toNat ≤ 9)
    (hf : 8 ≤ s.reqList[i].kind.toNat) (hq : finiteValue s.reqList[i].real = none)
    (hlt : ∀ j, ∀ hj : j < i, 8 ≤ (s.reqList[j]'(by omega)).kind.toNat →
      finiteValue (s.reqList[j]'(by omega)).real ≠ none) :
    execVenc ord s = .next (s.recordFault ⟨.nonfiniteOperand, i⟩) := by
  obtain ⟨t, ht⟩ := taggedItems_of_legal 0 hk
  obtain ⟨hsnd, hcode, hlen⟩ := taggedItems_ok ht
  have hget : ∀ j, ∀ hj : j < t.length, s.reqList[j]'(by omega) = t[j].2 := fun j hj => by
    simp [List.getElem_of_eq hsnd.symm]
  have hfloat : ∀ j, ∀ hj : j < t.length, t[j].1.isFloat = true ↔ 8 ≤ (s.reqList[j]'(by omega)).kind.toNat :=
    fun j hj => by rw [isFloat_iff_code, hget j hj, hcode _ (List.getElem_mem hj)]
  have he : encItems s.cfg ord 0 s.drawCount t = .error ⟨.nonfiniteOperand, 0 + i⟩ :=
    encItems_nonfinite 0 s.drawCount (by omega) ((hfloat i (by omega)).2 hf) (hget i (by omega) ▸ hq)
      fun j hj hfj => hget j (by omega) ▸ hlt j hj ((hfloat j (by omega)).1 hfj)
  rw [Nat.zero_add] at he
  exact execVenc_of_encItems_error ht he

/-- LPENC of a float kind reports its first item that is not finite. -/
theorem execLpenc_nonfinite {ek : Kind} {ck : CountKind} {i : Nat} (hek : ek.isFloat = true)
    (hn : s.reqList.length ≤ 2 ^ (8 * ck.size) - 1) (hi : i < s.reqList.length)
    (hq : finiteValue s.reqList[i].real = none)
    (hlt : ∀ j, ∀ hj : j < i, finiteValue (s.reqList[j]'(by omega)).real ≠ none) :
    execLpenc ord ek ck s = .next (s.recordFault ⟨.nonfiniteOperand, i⟩) := by
  have he : encItems s.cfg ord 0 s.drawCount (s.reqList.map fun it => (ek, it)) =
      .error ⟨.nonfiniteOperand, 0 + i⟩ :=
    encItems_nonfinite 0 s.drawCount (by simpa using hi) (by simpa using hek) (by simpa using hq)
      fun j hj _ => by simpa using hlt j hj
  rw [Nat.zero_add] at he
  exact execLpenc_of_encItems_error hn he

/-- A command that ends leaves a finite value in RSP_FVAL (41_ieee754_packer R116, R117). -/
theorem rspFval_fin_of_exec {i : Instr} {t : State} (hs : ∃ q, s.rspFval = .fin q) (h : exec i s = .next t) :
    ∃ q, t.rspFval = .fin q := by
  rcases exec_cases i s with ⟨r, he⟩ | ⟨w, d, he⟩ | ⟨q, he⟩ | ⟨n, e, -, -, he⟩ | ⟨w, n, -, he⟩ | ⟨q, n, -, he⟩ |
    ⟨ord, off, ks, n, -, -, he⟩ | ⟨he, -⟩ <;> rw [he] at h <;> cases h
  case inr.inr.inl => exact ⟨q, rfl⟩
  case inr.inr.inr.inr.inr.inl => exact ⟨q, rfl⟩
  all_goals exact hs

end Sys2Proof.Machine

namespace Sys2Proof

open Machine

/-- Settles O31: the fraction is exact, so the pattern is the sum of its fields, and their value is the packed one. -/
theorem packThenUnpackIsExact : Obligations.PackThenUnpackIsExact := by
  intro z bits expb h2 _ he hb
  refine ⟨⟨pack_zero z bits expb, unpack_zero bits expb⟩, ?_⟩
  intro q m k e hq _ hm hlo hhi hrange0 hrange hne
  have habs : |q| = m * (2 : Rat) ^ k := by
    have hpos : (0 : Rat) ≤ m * 2 ^ k := by positivity
    rcases hq with rfl | rfl
    · exact abs_of_nonneg hpos
    · rw [abs_neg, abs_of_nonneg hpos]
  obtain ⟨n, hn, hf⟩ := exists_fraction_eq habs hm hlo hhi
  obtain ⟨hf0, hf1⟩ := fraction_bounds hlo hhi
  have hquant := quantize_eq_of_exact z hf0 hf1 hf
  obtain ⟨biased, hbiased⟩ := Int.eq_ofNat_of_zero_le hrange0
  have htwo := two_le_two_pow he
  have hr : biased ≤ 2 ^ expb - 2 := by
    have := cast_maxBiased he
    omega
  have hpack := pack_eq_compose (bits := bits) z he hlo hhi hbiased.symm hr
  rw [(exponentOf_of_bounds hlo hhi).2.2, hf]
  rw [hquant] at hpack ⊢
  exact ⟨rfl, _, hpack, pack_lt h2 he hb hpack, unpack_compose h2 hb hbiased.symm (by omega) hn hf hne⟩

/-- Settles O19, command by command: the checks that come first pass, and the item reported is the first not finite. -/
theorem nonfiniteOperandFaults : Obligations.NonfiniteOperandFaults := by
  intro s ord
  simp only [faulted_eq_recordFault, ← finiteValue_eq_none]
  refine ⟨fun hq => ⟨fun bits expb => execFpack_nonfinite bits expb hq, encCommand_nonfinite rfl hq,
    encCommand_nonfinite rfl hq⟩, fun i hi hq => ⟨fun hk hf hlt => ?_, fun ek ck hek hn hlt => ?_⟩⟩
  · exact execVenc_nonfinite hi hk hf hq fun j hj hfj => finiteValue_ne_none (hlt j hj hfj)
  · have hfloat : ek.isFloat = true := by rcases hek with rfl | rfl <;> rfl
    exact execLpenc_nonfinite hfloat hn hi hq fun j hj => finiteValue_ne_none (hlt j hj)

/-- Settles O22: the bounds fix the exponent and the fraction of the value. -/
theorem fpackComposesSignExponentAndFraction : Obligations.FpackComposesSignExponentAndFraction := by
  intro bits expb s q e biased hwf hq hlo hhi hbiased hr
  obtain ⟨-, -, he, -⟩ := formatWF_iff.1 hwf
  exact execFpack_ok (congrArg finiteValue hq) (pack_eq_compose _ he hlo hhi hbiased hr)

/-- Settles O23: the exponent is below -bias or above the greatest exponent exactly when the magnitude is. -/
theorem fpackOutOfRangeWritesADraw : Obligations.FpackOutOfRangeWritesADraw := by
  intro bits expb s q hwf h0
  obtain ⟨-, -, he, -⟩ := formatWF_iff.1 hwf
  exact ⟨pack_eq_undef_iff he h0, fun hq hp => ⟨drawBits_lt _ _, execFpack_undef (congrArg finiteValue hq) hp⟩⟩

/-- Settles O24: quantize is a floor, and a tie makes the floored expression a whole number. -/
theorem quantizeIsTheSpecifiedRounding : Obligations.QuantizeIsTheSpecifiedRounding := by
  intro f sb h0 h1
  refine ⟨fun z => quantize_le z sb h1, (quantize_eq_iff .addHalfUlp sb h0).1 rfl,
    (quantize_eq_iff .scalePlusHalf sb h0).1 rfl, fun m hm => ?_⟩
  rw [quantize_eq_iff _ sb h0, quantizeArg, hm]
  push_cast
  constructor <;> linarith

/-- Settles O25: the carry sets the low bit of the exponent field, which an even E has clear and an odd E has set. -/
theorem roundingCarryIsOred : Obligations.RoundingCarryIsOred := by
  intro bits expb sign biased h2 _ he hb hs hr
  have htwo := two_le_two_pow he
  have hpow : 2 ^ expb % 2 = 0 := Nat.mod_eq_zero_of_dvd (dvd_pow_self 2 (by omega))
  have hsum : ∀ ef, ef < 2 ^ expb → compose bits expb sign ef 0 = sign * 2 ^ (bits - 1) + ef * 2 ^ sigBits bits expb :=
    fun ef hef => compose_eq_sum h2 hb hef (Nat.two_pow_pos _)
  have hne : ∀ ef, 0 < ef → sign * 2 ^ (bits - 1) + ef * 2 ^ sigBits bits expb ≠ 0 := fun ef hef => by positivity
  rw [compose_carry]
  refine ⟨fun heven => ?_, fun hodd => ?_, fun hmax => by omega⟩
  · rw [or_one_of_even heven, hsum _ (by omega)]
    refine ⟨rfl, ?_⟩
    rw [abs_unpack_of_sig_zero h2 hb hs (by omega) rfl (hne _ (by omega))]
    congr 1
    push_cast
    ring
  · rw [or_one_of_odd hodd, hsum _ (by omega)]
    exact ⟨rfl, abs_unpack_of_sig_zero h2 hb hs (by omega) rfl (hne _ (by omega))⟩

/-- Settles O26, by the formula on the fields of the low bits of REQ_WORD. -/
theorem funpackGivesTheValueOfTheFields : Obligations.FunpackGivesTheValueOfTheFields := by
  intro bits expb s sign ef sig hwf hs hef hsig hw
  obtain ⟨h2, -, -, hb⟩ := formatWF_iff.1 hwf
  exact ⟨fun h0 => execFunpack_eq (unpack_fields h2 hb hs hef hsig hw h0),
    fun h0 => execFunpack_eq (h0 ▸ unpack_zero _ _)⟩

/-- Settles O27: the formula's value is a sign times two positive factors. -/
theorem onlyTheZeroWordUnpacksToZero : Obligations.OnlyTheZeroWordUnpacksToZero := by
  intro bits expb h2 _ _ hb
  refine ⟨unpack_zero _ _, fun z => pack_zero z _ _, unpackFormula_zero h2 hb, fun w hw h0 => ?_⟩
  have hformula : unpack w bits expb = unpackFormula w bits expb := if_neg h0
  exact ⟨hformula, hformula ▸ unpackFormula_ne_zero h2 hb hw⟩

/-- Settles O28, by the fields 1, 0, 0; binary32 is one of the formats. -/
theorem signOnlyWordIsNotZero : Obligations.SignOnlyWordIsNotZero := by
  refine ⟨fun bits expb h2 _ _ hb => unpack_sign_only h2 hb, ?_, ?_⟩
  · exact unpack_sign_only (bits := 32) (expb := 8) (by decide) (by decide)
  · rintro bits expb s t ⟨⟩
    exact ⟨nofun, _, rfl⟩

/-- Settles O29, by the fields of the words and by what every command can do. -/
theorem allOnesExponentIsFinite : Obligations.AllOnesExponentIsFinite := by
  refine ⟨fun bits expb sign sig h2 _ he hb hs hsig => unpack_all_ones h2 he hb hs hsig, ?_, ?_,
    fun i s t hs h => rspFval_fin_of_exec hs h, decItem_real⟩
  · have h := unpack_all_ones (bits := 32) (expb := 8) (sign := 0) (sig := 0)
      (by decide) (by decide) (by decide) (by decide) (by decide)
    norm_num [sigBits] at h ⊢
    exact h
  · have h := unpack_all_ones (bits := 32) (expb := 8) (sign := 0) (sig := 2 ^ 22)
      (by decide) (by decide) (by decide) (by decide) (by decide)
    norm_num [sigBits] at h ⊢
    exact h

/-- Settles O30: the least magnitude has biased exponent 0 and fraction 0, so its pattern is the sign alone. -/
theorem leastMagnitudePacksToZero : Obligations.LeastMagnitudePacksToZero := by
  have hpack : ∀ (z : Quantize) (bits expb : Nat), 1 ≤ expb →
      pack z ((2 : Rat) ^ (-((2 : Int) ^ (expb - 1) - 1))) bits expb = .ok 0 := by
    intro z bits expb he
    have hpos : ¬(2 : Rat) ^ (-((2 : Int) ^ (expb - 1) - 1)) < 0 := not_lt.2 (by positivity)
    rw [pack_least z bits he (abs_of_pos (by positivity)), if_neg hpos, Nat.zero_shiftLeft]
  refine ⟨?_, fun z => hpack z 32 8 (by decide)⟩
  rintro z bits expb q h2 _ he hb rfl
  have hpos : (0 : Rat) < 2 ^ (-((2 : Int) ^ (expb - 1) - 1)) := by positivity
  obtain ⟨hexp, hfrac⟩ := exponentOf_fractionOf_of_abs_eq (abs_of_pos hpos)
  refine ⟨hexp, ?_, hpack z bits expb he, unpack_zero _ _, ?_, unpack_sign_only h2 hb⟩
  · rw [hfrac, quantize_zero]
  · rw [pack_least z bits he (by rw [abs_neg, abs_of_pos hpos]), if_pos (neg_neg_of_pos hpos)]

/-- Settles O21: FPACK of either zero takes pack's special case. -/
theorem zeroPacksToTheZeroPattern : Obligations.ZeroPacksToTheZeroPattern := by
  refine ⟨?_, fun bits expb s _ hq => ?_⟩
  · intro z bits expb q hq
    obtain rfl : 0 = q := by rcases hq with h | h <;> exact Option.some.inj h
    exact pack_zero z bits expb
  · have hzero : finiteValue s.reqFval = some 0 := by rcases hq with h | h <;> rw [h] <;> rfl
    exact execFpack_ok hzero (pack_zero _ _ _)

end Sys2Proof

/-! The Fixed-Width Codec (obligations O32 to O38): the two's-complement value of the low bits of a word, the state each
ENC and DEC leaves when it does not fault, and the round trips of the integer kinds. -/

namespace Sys2Proof.Machine

variable {k : Kind} {s : State} {ord : ByteOrder} {bits expb n u : Nat} {w : Word}

/-! ### Two's complement

The signed value of an n-bit number is its balanced residue `Int.bmod` modulo 2^n. -/

theorem bmod_two_pow (hn : 1 ≤ n) (hu : u < 2 ^ n) :
    (u : Int).bmod (2 ^ n) = if 2 ^ (n - 1) ≤ u then (u : Int) - 2 ^ n else u := by
  have hhalf := Nat.two_pow_pred_add_two_pow_pred hn
  have hcast : (2 : Int) ^ n = (2 ^ n : Nat) := by push_cast; rfl
  rw [hcast]
  split
  · rw [← Int.sub_bmod_right]
    exact Int.bmod_eq_of_le_mul_two (by omega) (by omega)
  · exact Int.bmod_eq_of_le_mul_two (by omega) (by omega)

theorem sext_eq_ofInt_bmod (hn : 1 ≤ n) (hu : u < 2 ^ n) :
    sext n u = BitVec.ofInt 64 ((u : Int).bmod (2 ^ n)) := by
  rw [bmod_two_pow hn hu, sext, apply_ite (BitVec.ofInt 64), BitVec.ofInt_natCast]

/-- A sign extension keeps the signed value. -/
theorem toInt_sext (hn : 1 ≤ n) (hn64 : n ≤ 64) (hu : u < 2 ^ n) : (sext n u).toInt = (u : Int).bmod (2 ^ n) := by
  have hp : 2 ^ n ≤ 2 ^ 64 := Nat.pow_le_pow_right two_pos hn64
  have hlo : -((2 ^ n : Nat) / 2 : Int) ≤ (u : Int).bmod (2 ^ n) := Int.le_bmod (by omega)
  have hhi : (u : Int).bmod (2 ^ n) < ((2 ^ n : Nat) + 1) / 2 := Int.bmod_lt (by omega)
  rw [sext_eq_ofInt_bmod hn hu]
  exact BitVec.toInt_ofInt_eq_self (by decide) (by omega) (by omega)

/-- A word of a signed value that fits n bits is the sign extension of its low n bits. -/
theorem sext_low_bits (hn : 1 ≤ n) (hn64 : n ≤ 64) (hlo : -2 ^ (n - 1) ≤ BitVec.toInt w)
    (hhi : BitVec.toInt w < 2 ^ (n - 1)) : sext n (w.toNat % 2 ^ n) = w := by
  have hhalf := Nat.two_pow_pred_add_two_pow_pred hn
  have hcast : (2 : Int) ^ (n - 1) = (2 ^ (n - 1) : Nat) := by push_cast; rfl
  rw [hcast] at hlo hhi
  apply BitVec.eq_of_toInt_eq
  calc (sext n (w.toNat % 2 ^ n)).toInt
    _ = ((w.toNat % 2 ^ n : Nat) : Int).bmod (2 ^ n) := toInt_sext hn hn64 (Nat.mod_lt _ (by positivity))
    _ = (w.toNat : Int).bmod (2 ^ n) := by rw [Int.natCast_emod, Int.emod_bmod]
    _ = (BitVec.toInt w).bmod (2 ^ n) := by
      rw [BitVec.toInt_eq_toNat_bmod, Int.bmod_bmod_of_dvd (pow_dvd_pow 2 hn64)]
    _ = BitVec.toInt w := Int.bmod_eq_of_le_mul_two (by omega) (by omega)

/-- A word of an unsigned value that fits n bits is the zero extension of its low n bits. -/
theorem zext_low_bits (h : w.toNat < 2 ^ n) : zext (w.toNat % 2 ^ n) = w := by
  rw [Nat.mod_eq_of_lt h, zext, BitVec.ofNat_toNat, BitVec.setWidth_eq]

/-! ### The word a decode of an integer kind gives -/

theorem one_le_eight_mul_size (k : Kind) : 1 ≤ 8 * k.size := by have := k.size_pos; omega

theorem eight_mul_size_le (k : Kind) : 8 * k.size ≤ 64 := by have := k.size_le; omega

theorem valIn_lt_of_length {bs : List Byte} (ord : ByteOrder) (hl : bs.length = k.size) :
    valIn ord bs < 2 ^ (8 * k.size) := hl ▸ valIn_lt ord bs

/-- The unsigned kinds give the value of the bytes (42_fixed_width_codec R155). -/
theorem toNat_decItem_word {bs : List Byte} (c : Params) (hk : k.isFloat = false) (hs : k.signed = false)
    (hl : bs.length = k.size) : (decItem c k ord bs).word.toNat = valIn ord bs := by
  have hlt : valIn ord bs < 2 ^ 64 :=
    (valIn_lt_of_length ord hl).trans_le (Nat.pow_le_pow_right two_pos (eight_mul_size_le k))
  simp only [decItem_integer c ord bs hk, hs, Bool.false_eq_true, if_false, toNat_zext hlt]

/-- The signed kinds give the two's-complement value of the bytes (42_fixed_width_codec R155). -/
theorem toInt_decItem_word {bs : List Byte} (c : Params) (hk : k.isFloat = false) (hs : k.signed = true)
    (hl : bs.length = k.size) : (decItem c k ord bs).word.toInt =
      if 2 ^ (8 * k.size - 1) ≤ valIn ord bs then (valIn ord bs : Int) - 2 ^ (8 * k.size) else valIn ord bs := by
  have hlt := valIn_lt_of_length ord hl
  simp only [decItem_integer c ord bs hk, hs, if_true]
  rw [toInt_sext (one_le_eight_mul_size k) (eight_mul_size_le k) hlt, bmod_two_pow (one_le_eight_mul_size k) hlt]

/-- The low bits of the decoded word are the bytes. -/
theorem toNat_decItem_word_mod {bs : List Byte} (c : Params) (hk : k.isFloat = false) (hl : bs.length = k.size) :
    (decItem c k ord bs).word.toNat % 2 ^ (8 * k.size) = valIn ord bs := by
  have hlt := valIn_lt_of_length ord hl
  cases hs : k.signed with
  | false => rw [toNat_decItem_word c hk hs hl, Nat.mod_eq_of_lt hlt]
  | true =>
    simp only [decItem_integer c ord bs hk, hs, if_true]
    exact toNat_sext_mod (eight_mul_size_le k) hlt

/-- The bytes of a word in the kind's range decode to the word (42_fixed_width_codec R156). -/
theorem decItem_word_bytesIn (c : Params) (hk : k.isFloat = false)
    (hu : k.signed = false → w.toNat < 2 ^ (8 * k.size))
    (hs : k.signed = true → -2 ^ (8 * k.size - 1) ≤ BitVec.toInt w ∧ BitVec.toInt w < 2 ^ (8 * k.size - 1)) :
    (decItem c k ord (bytesIn ord w.toNat k.size)).word = w := by
  rw [decItem_integer c ord _ hk, valIn_bytesIn]
  cases hsg : k.signed with
  | false => exact zext_low_bits (hu hsg)
  | true =>
    obtain ⟨hlo, hhi⟩ := hs hsg
    exact sext_low_bits (one_le_eight_mul_size k) (eight_mul_size_le k) hlo hhi

/-! ### The state a command leaves -/

/-- What BUF holds after a store of a value: its bytes at REQ_OFF, and everywhere else what it held. -/
theorem read_stored_bytesIn (s : State) (ord : ByteOrder) (v n d : Nat) :
    (∀ i, i < n → (s.stored n ⟨bytesIn ord v n, d⟩).buf.read (s.reqOff.toNat + i) =
      BitVec.ofNat 8 (v >>> byteShift ord n i)) ∧
    ∀ a, a < s.reqOff.toNat ∨ s.reqOff.toNat + n ≤ a →
      (s.stored n ⟨bytesIn ord v n, d⟩).buf.read a = s.buf.read a := by
  refine ⟨fun i hi => ?_, fun a ha => read_stored_outside s (length_bytesIn ord v n) ha⟩
  have hlen : i < (bytesIn ord v n).length := by rwa [length_bytesIn]
  rw [stored_buf, read_writeBytes_inside _ _ _ hlen, getElem_bytesIn]

/-- The state an ENC of a float kind leaves for a finite value (42_fixed_width_codec R131, R133). -/
theorem encCommand_float {q : Rat} (hk : k.format = some (bits, expb)) (hq : finiteValue s.reqFval = some q)
    (hc : s.reqOff.toNat + k.size ≤ s.cfg.bufCap) :
    encCommand k ord s = .next (s.stored k.size
      ⟨bytesIn s.cfg.hostOrder (packOrDraw s.cfg.quantize q bits expb s.drawCount).value k.size,
        (packOrDraw s.cfg.quantize q bits expb s.drawCount).draws⟩) := by
  rw [encCommand, encBytes_float s.cfg ord 0 s.drawCount (it := ⟨k.code, s.reqWord, s.reqFval⟩) hk hq]
  exact storeRecord_ok hc

/-- The state a DEC of an integer kind leaves (42_fixed_width_codec R132, R134). -/
theorem decCommand_integer (hk : k.isFloat = false) (hc : s.reqOff.toNat + k.size ≤ s.cfg.bufCap) :
    decCommand k ord s = .next { s with
      rspWord := (decItem s.cfg k ord (s.buf.readBytes s.reqOff.toNat k.size)).word
      rspLen := BitVec.ofNat 64 k.size } := by
  rw [decCommand_ok ord hc, hk]
  rfl

/-- The state a DEC of a float kind leaves (42_fixed_width_codec R132, R134). -/
theorem decCommand_float (hk : k.format = some (bits, expb)) (hc : s.reqOff.toNat + k.size ≤ s.cfg.bufCap) :
    decCommand k ord s = .next { s with
      rspFval := .fin (unpack (valIn s.cfg.hostOrder (s.buf.readBytes s.reqOff.toNat k.size)) bits expb)
      rspLen := BitVec.ofNat 64 k.size } := by
  obtain ⟨-, -, -, -, hf⟩ := format_legal hk
  rw [decCommand_ok ord hc, hf, decItem_float s.cfg ord _ hk]
  rfl

/-- The two float kinds by their formats (30_encoding R74). -/
theorem format_of_f32_or_f64 (h : (k = .f32 ∧ bits = 32 ∧ expb = 8) ∨ (k = .f64 ∧ bits = 64 ∧ expb = 11)) :
    k.format = some (bits, expb) := by
  rcases h with ⟨rfl, rfl, rfl⟩ | ⟨rfl, rfl, rfl⟩ <;> rfl

/-! ### The float path ignores ORD -/

theorem encBytes_float_ord (c : Params) (hk : k.isFloat = true) (o o' : ByteOrder) (it : Item) (idx d : Nat) :
    encBytes c k o it idx d = encBytes c k o' it idx d := by
  obtain ⟨⟨bits, expb⟩, hfmt⟩ := Option.isSome_iff_exists.1 hk
  cases hq : finiteValue it.real with
  | none => rw [encBytes_nonfinite c o idx d hk hq, encBytes_nonfinite c o' idx d hk hq]
  | some q => rw [encBytes_float c o idx d hfmt hq, encBytes_float c o' idx d hfmt hq]

theorem decItem_float_ord (c : Params) (hk : k.isFloat = true) (o o' : ByteOrder) (bs : List Byte) :
    decItem c k o bs = decItem c k o' bs := by
  obtain ⟨⟨bits, expb⟩, hfmt⟩ := Option.isSome_iff_exists.1 hk
  rw [decItem_float c o bs hfmt, decItem_float c o' bs hfmt]

theorem encCommand_float_ord (hk : k.isFloat = true) (o o' : ByteOrder) (s : State) :
    encCommand k o s = encCommand k o' s := by
  rw [encCommand, encCommand, encBytes_float_ord s.cfg hk o o']

theorem decCommand_float_ord (hk : k.isFloat = true) (o o' : ByteOrder) (s : State) :
    decCommand k o s = decCommand k o' s := by
  rw [decCommand, decCommand, decItem_float_ord s.cfg hk o o']

end Sys2Proof.Machine

namespace Sys2Proof

open Machine

/-- Settles O37: the store leaves the word's bytes at REQ_OFF, and they decode to the word when it is in range. -/
theorem integerRoundTrip : Obligations.IntegerRoundTrip := by
  intro k ord s hk hc hu hs
  refine ⟨_, (exec_enc k ord s).trans (encCommand_integer hk hc), fun u hcfg hoff hbytes => ?_⟩
  have hread : u.buf.readBytes u.reqOff.toNat k.size = bytesIn ord s.reqWord.toNat k.size := by
    rw [hoff, stored_reqOff, readBytes_congr hbytes, stored_buf]
    exact readBytes_writeBytes _ _ _ (length_bytesIn ord _ _)
  have hcu : u.reqOff.toNat + k.size ≤ u.cfg.bufCap := by rwa [hoff, hcfg]
  refine ⟨_, (exec_dec k ord u).trans (decCommand_integer hk hcu), ?_⟩
  dsimp only
  rw [hread]
  exact decItem_word_bytesIn u.cfg hk hu hs

/-- Settles O32: the bytes stored are those of REQ_WORD, one by one. -/
theorem encIntegerStoresTheLowBytes : Obligations.EncIntegerStoresTheLowBytes := by
  intro k ord s hk hc
  exact ⟨_, (exec_enc k ord s).trans (encCommand_integer hk hc), rfl, read_stored_bytesIn s ord _ _ _⟩

/-- Settles O33: the value stored is pack's pattern, or a draw when pack is UNDEF. -/
theorem encFloatStoresThePattern : Obligations.EncFloatStoresThePattern := by
  intro k bits expb ord s q hk hv hc
  have hq : finiteValue s.reqFval = some q := by rcases hv with h | ⟨h, rfl⟩ <;> rw [h] <;> rfl
  have hexec := (exec_enc k ord s).trans (encCommand_float (format_of_f32_or_f64 hk) hq hc)
  refine ⟨_, _, hexec, rfl, ?_, read_stored_bytesIn s s.cfg.hostOrder _ _ _⟩
  rw [stored_drawCount]
  rcases packOrDraw_cases s.cfg.quantize q bits expb s.drawCount with ⟨p, hp, he⟩ | ⟨hp, he⟩ <;> rw [he]
  · exact .inl ⟨hp, rfl⟩
  · exact .inr ⟨hp, rfl, rfl⟩

/-- Settles O34: `u` is the value of the bytes read, and R155 widens it. -/
theorem decIntegerReadsTheValue : Obligations.DecIntegerReadsTheValue := by
  intro k ord s u hk hc hu
  have hlen := length_readBytes s.buf s.reqOff.toNat k.size
  obtain rfl : valIn ord (s.buf.readBytes s.reqOff.toNat k.size) = u := (valIn_readBytes ord _ _ _).trans hu.symm
  exact ⟨_, (exec_dec k ord s).trans (decCommand_integer hk hc), valIn_lt_of_length ord hlen,
    fun hs => toNat_decItem_word s.cfg hk hs hlen, fun hs => toInt_decItem_word s.cfg hk hs hlen⟩

/-- Settles O35: the sum is the value of the bytes read in HOST_ORDER. -/
theorem decFloatReadsTheRational : Obligations.DecFloatReadsTheRational := by
  intro k bits expb ord s hk hc
  rw [exec_dec, decCommand_float (format_of_f32_or_f64 hk) hc, valIn_readBytes]

/-- Settles O38: the encode stores the low bits of the decoded word, which are the bytes. -/
theorem decodedBytesEncodeBack : Obligations.DecodedBytesEncodeBack := by
  intro c k ord bs d hk hl
  rw [encBytes_integer c ord _ 0 d hk, ← bytesIn_mod, toNat_decItem_word_mod c hk hl, ← hl, bytesIn_valIn]

/-- Settles O36: neither element function reads ORD for a float kind. -/
theorem floatPathIgnoresOrd : Obligations.FloatPathIgnoresOrd := by
  refine fun s => ⟨encCommand_float_ord rfl _ _ s, encCommand_float_ord rfl _ _ s, decCommand_float_ord rfl _ _ s,
    decCommand_float_ord rfl _ _ s, fun c k ord bits expb bs hk => ⟨?_, fun it q idx d p hit hp => ?_⟩⟩
  · rw [decItem_float c ord bs hk]
  · have hq : finiteValue it.real = some q := by rw [hit, finiteValue]
    rw [encBytes_float c ord idx d hk hq, packOrDraw, hp]

end Sys2Proof

/-! The Variadic Codec (obligations O40 to O46): what VENC and VDEC leave when they do not fault, the bytes of each item
of a stored record, and a list of items as a chain of single commands. -/

namespace Sys2Proof.Machine

variable {c : Params} {k : Kind} {s t : State} {ord : ByteOrder} {it : Item} {e : Encoded} {idx d i : Nat}
  {l : List (Kind × Item)}

/-! ### The kinds of a list -/

/-- The lowest item of a reserved kind decides (43_variadic_codec R164). -/
theorem taggedItems_reserved {items : List Item} (hi : i < items.length) (hres : 10 ≤ (items[i]).kind.toNat)
    (hlow : ∀ j, ∀ hj : j < i, (items[j]'(by omega)).kind.toNat ≤ 9) :
    taggedItems 0 items = .error ⟨.illegalCommand, i + 1⟩ := by
  cases ht : taggedItems 0 items with
  | ok t =>
    obtain ⟨rfl, hk, -⟩ := taggedItems_ok ht
    rw [← Kind.ofCode_eq_none, List.getElem_map, hk _ (List.getElem_mem _), Kind.ofCode_code] at hres
    cases hres
  | error r =>
    obtain ⟨j, hj, rfl, hjres, hjlow⟩ := taggedItems_error ht
    obtain rfl : j = i := by
      rcases lt_trichotomy j i with h | h | h
      · have := hlow j h
        omega
      · exact h
      · have := hjlow i h
        omega
    rw [Nat.zero_add]

/-- Item i of a list ends within the total width (43_variadic_codec R161). -/
theorem totalSize_take_add_size_le {ks : List Kind} (hi : i < ks.length) :
    totalSize (ks.take i) + ks[i].size ≤ totalSize ks := calc
  _ = totalSize (ks.take (i + 1)) := by
    rw [List.take_succ_eq_append_getElem hi, totalSize_append, totalSize_cons, totalSize_nil, Nat.add_zero]
  _ ≤ totalSize (ks.take (i + 1)) + totalSize (ks.drop (i + 1)) := Nat.le_add_right _ _
  _ = totalSize ks := by rw [← totalSize_append, List.take_append_drop]

/-! ### The state VENC and VDEC leave -/

theorem execVenc_error {r : Raise} (ht : taggedItems 0 s.reqList = .error r) :
    execVenc ord s = .next (s.recordFault r) := by
  rw [execVenc, ht]
  rfl

theorem execVdec_error {r : Raise} (ht : taggedItems 0 s.reqList = .error r) :
    execVdec ord s = .next (s.recordFault r) := by
  rw [execVdec, ht]
  rfl

theorem execVenc_ok (ht : taggedItems 0 s.reqList = .ok l) (he : encItems s.cfg ord 0 s.drawCount l = .ok e)
    (hc : s.reqOff.toNat + totalSize (l.map Prod.fst) ≤ s.cfg.bufCap) :
    execVenc ord s = .next (s.stored (totalSize (l.map Prod.fst)) e) := by
  simp only [execVenc, ht, he, (encItems_ok he).1]
  exact storeRecord_ok hc

/-- A VENC that does not fault has stored the bytes of its items. -/
theorem stored_of_execVenc (ht : taggedItems 0 s.reqList = .ok l) (h : execVenc ord s = .next t)
    (hv : faultValid t = false) :
    ∃ e, encItems s.cfg ord 0 s.drawCount l = .ok e ∧
      s.reqOff.toNat + totalSize (l.map Prod.fst) ≤ s.cfg.bufCap ∧ t = s.stored (totalSize (l.map Prod.fst)) e := by
  rcases execVenc_cases ord s with ⟨r, -, hx⟩ | ⟨l', hl, ⟨r, -, hx⟩ | ⟨e, he, ⟨-, hx⟩ | ⟨hc, hx⟩⟩⟩
  · exact absurd (hx.symm.trans h) (ne_recordFault hv r)
  · exact absurd (hx.symm.trans h) (ne_recordFault hv r)
  · exact absurd (hx.symm.trans h) (ne_recordFault hv _)
  · obtain rfl : l = l' := Except.ok.inj (ht.symm.trans hl)
    obtain ⟨hlen, -⟩ := encItems_ok he
    rw [hlen] at hc hx
    cases hx.symm.trans h
    exact ⟨e, he, hc, rfl⟩

theorem execVdec_ok (ht : taggedItems 0 s.reqList = .ok l)
    (hc : s.reqOff.toNat + totalSize (l.map Prod.fst) ≤ s.cfg.bufCap) :
    execVdec ord s = .next { s with
      rspList := decItems s.cfg ord s.buf s.reqOff.toNat (l.map Prod.fst)
      rspLen := BitVec.ofNat 64 (totalSize (l.map Prod.fst)) } := by
  simp only [execVdec, ht]
  exact guardCapacity_ok _ hc

/-- A VDEC that does not fault had its items within the capacity. -/
theorem capacity_of_execVdec (ht : taggedItems 0 s.reqList = .ok l) (h : execVdec ord s = .next t)
    (hv : faultValid t = false) : s.reqOff.toNat + totalSize (l.map Prod.fst) ≤ s.cfg.bufCap := by
  by_contra hc
  exact ne_recordFault hv _ ((execVdec_fault ht (not_le.1 hc)).symm.trans h)

/-! ### The bytes of an item in a stored record -/

theorem packOrDraw_of_ok {z : Quantize} {q : Rat} {bits expb p : Nat} (n : Nat) (h : pack z q bits expb = .ok p) :
    packOrDraw z q bits expb n = ⟨p, n⟩ := by
  rw [packOrDraw, h]

theorem packOrDraw_of_undef {z : Quantize} {q : Rat} {bits expb : Nat} (n : Nat)
    (h : pack z q bits expb = .undef) : packOrDraw z q bits expb n = ⟨drawBits bits n, n + 1⟩ := by
  rw [packOrDraw, h]

theorem readBytes_stored_integer (he : encItems s.cfg ord idx d l = .ok e) (total : Nat) (hi : i < l.length)
    (hk : l[i].1.isFloat = false) :
    (s.stored total e).buf.readBytes (s.reqOff.toNat + totalSize ((l.map Prod.fst).take i)) l[i].1.size =
      bytesIn ord l[i].2.word.toNat l[i].1.size := by
  obtain ⟨d', e', hx, hread⟩ := readBytes_encItems he s.buf s.reqOff.toNat i hi
  rw [encBytes_integer _ _ _ _ _ hk] at hx
  cases hx
  exact hread

theorem readBytes_stored_float {bits expb : Nat} {q : Rat} (he : encItems s.cfg ord idx d l = .ok e) (total : Nat)
    (hi : i < l.length) (hk : l[i].1.format = some (bits, expb)) (hq : finiteValue l[i].2.real = some q) :
    ∃ n, (s.stored total e).buf.readBytes (s.reqOff.toNat + totalSize ((l.map Prod.fst).take i)) l[i].1.size =
      bytesIn s.cfg.hostOrder (packOrDraw s.cfg.quantize q bits expb n).value l[i].1.size := by
  obtain ⟨n, e', hx, hread⟩ := readBytes_encItems he s.buf s.reqOff.toNat i hi
  rw [encBytes_float _ _ _ _ hk hq] at hx
  cases hx
  exact ⟨n, hread⟩

/-- The bytes of a pattern decode to the value it unpacks to. -/
theorem decItem_pattern {z : Quantize} {q : Rat} {bits expb p : Nat} (ord : ByteOrder)
    (hk : k.format = some (bits, expb)) (hp : pack z q bits expb = .ok p) :
    decItem c k ord (bytesIn c.hostOrder p k.size) = ⟨k.code, 0, .fin (unpack p bits expb)⟩ := by
  obtain ⟨h2, he, hb, hsize, -⟩ := format_legal hk
  rw [decItem_float c ord _ hk, valIn_bytesIn, ← hsize, Nat.mod_eq_of_lt (pack_lt h2 he hb hp)]

/-! ### A list of items as a chain of commands -/

theorem encItems_cons_ok (h : encItems c ord idx d ((k, it) :: l) = .ok e) :
    ∃ e₁ e₂, encBytes c k ord it idx d = .ok e₁ ∧ encItems c ord (idx + 1) e₁.draws l = .ok e₂ ∧
      e = ⟨e₁.bytes ++ e₂.bytes, e₂.draws⟩ := by
  rw [encItems] at h
  split at h
  · cases h
  · rename_i e₁ h₁
    split at h
    · cases h
    · rename_i e₂ h₂
      cases h
      exact ⟨e₁, e₂, h₁, h₂, rfl⟩

/-- The bytes of an element depend on neither its index nor its own kind code (42_fixed_width_codec R131). -/
theorem encBytes_ok_of_fields (h : encBytes c k ord it idx d = .ok e) :
    encBytes c k ord ⟨k.code, it.word, it.real⟩ 0 d = .ok e := by
  cases hf : k.isFloat with
  | false =>
    rw [encBytes_integer _ _ _ _ _ hf] at h ⊢
    exact h
  | true =>
    obtain ⟨⟨bits, expb⟩, hfmt⟩ := Option.isSome_iff_exists.1 hf
    cases hq : finiteValue it.real with
    | none =>
      rw [encBytes_nonfinite _ _ _ _ hf hq] at h
      cases h
    | some q =>
      rw [encBytes_float _ _ _ _ hfmt hq] at h
      exact (encBytes_float (it := ⟨k.code, it.word, it.real⟩) c ord 0 d hfmt hq).trans h

theorem length_of_encBytes (h : encBytes c k ord it idx d = .ok e) : e.bytes.length = k.size := by
  rcases encBytes_cases c k ord it idx d with ⟨e', hx, hlen, -⟩ | ⟨hx, -, -⟩
  · cases hx.symm.trans h
    exact hlen
  · cases hx.symm.trans h

theorem encCommand_ok (he : encBytes s.cfg k ord ⟨k.code, s.reqWord, s.reqFval⟩ 0 s.drawCount = .ok e)
    (hc : s.reqOff.toNat + k.size ≤ s.cfg.bufCap) : encCommand k ord s = .next (s.stored k.size e) := by
  rw [encCommand, he]
  exact storeRecord_ok hc

/-- The state after one item of a chain of ENC commands: the store at REQ_OFF, and REQ_OFF moved past it. -/
def State.linked (k : Kind) (it : Item) (e : Encoded) (s : State) : State :=
  { s.stored k.size e with reqWord := it.word, reqFval := it.real, reqOff := s.reqOff + BitVec.ofNat 64 k.size }

theorem encChain_cons (he : encBytes s.cfg k ord it idx s.drawCount = .ok e)
    (hc : s.reqOff.toNat + k.size ≤ s.cfg.bufCap) (hf : faultValid s = false) :
    encChain ord ((k, it) :: l) s = encChain ord l (s.linked k it e) := by
  have hx := encCommand_ok (s := { s with reqWord := it.word, reqFval := it.real }) (encBytes_ok_of_fields he) hc
  rw [encChain, exec_enc, hx]
  exact if_neg (ne_true_of_eq_false hf)

/-- The chain of ENC commands stores the bytes VENC stores, and makes its draws (43_variadic_codec R166). -/
theorem encChain_of_encItems (he : encItems s.cfg ord idx s.drawCount l = .ok e) (hf : faultValid s = false)
    (hcap : s.cfg.bufCap < 2 ^ 64) (hc : s.reqOff.toNat + totalSize (l.map Prod.fst) ≤ s.cfg.bufCap) :
    ∃ u, encChain ord l s = some u ∧ u.buf = s.buf.writeBytes s.reqOff.toNat e.bytes ∧ u.drawCount = e.draws := by
  induction l generalizing s idx e with
  | nil =>
    cases he
    exact ⟨s, rfl, rfl, rfl⟩
  | cons p l ih =>
    obtain ⟨k, it⟩ := p
    obtain ⟨e₁, e₂, h₁, h₂, rfl⟩ := encItems_cons_ok he
    simp only [List.map_cons, totalSize_cons] at hc
    have hoff : (s.linked k it e₁).reqOff.toNat = s.reqOff.toNat + k.size := toNat_add_ofNat (by omega)
    have hc' : (s.linked k it e₁).reqOff.toNat + totalSize (l.map Prod.fst) ≤ s.cfg.bufCap := by omega
    obtain ⟨u, hu, hbuf, hdraws⟩ := ih (s := s.linked k it e₁) h₂ hf hcap hc'
    refine ⟨u, (encChain_cons h₁ (by omega) hf).trans hu, ?_, hdraws⟩
    rw [hbuf, hoff, writeBytes_append, length_of_encBytes h₁]
    rfl

end Sys2Proof.Machine

namespace Sys2Proof

open Machine

/-- Settles O46: each item's bytes lie at its place in the record, and decode to the item. -/
theorem vdecAfterVencGivesTheItemsBack : Obligations.VdecAfterVencGivesTheItemsBack := by
  rintro ord s t u v l m hl hk - hs ht hcfg hoff hbuf hm hmk hkinds hu
  obtain ⟨e, he, hc, rfl⟩ := stored_of_execVenc (hl ▸ taggedItems_of_tagged 0 l hk) hs ht
  have hv := execVdec_ok (ord := ord) (s := u) (hm ▸ taggedItems_of_tagged 0 m hmk) (by rwa [hkinds, hoff, hcfg])
  cases hv.symm.trans hu
  rw [hkinds, hcfg, hoff, hbuf]
  refine ⟨rfl, by simp, fun i hi => ?_⟩
  simp only [getElem_decItems _ _ _ _ _ i (by simpa using hi : i < (l.map Prod.fst).length), List.getElem_map,
    decItem_kind, stored_cfg, stored_reqOff, true_and]
  constructor
  · intro hf
    rw [readBytes_stored_integer he _ hi hf]
    exact ⟨decItem_bytesIn _ _ _ hf, by rw [decItem_integer _ _ _ hf]⟩
  · intro bits expb q p hfmt hq hp
    obtain ⟨n, hread⟩ := readBytes_stored_float he (totalSize (l.map Prod.fst)) hi hfmt hq
    rw [hread, packOrDraw_of_ok n hp, decItem_pattern ord hfmt hp]
    exact ⟨rfl, rfl⟩

/-- Settles O40: the items encode, and each one's bytes lie at its place in the record. -/
theorem vencStoresTheRecord : Obligations.VencStoresTheRecord := by
  intro ord s l hl hk hfin hc
  obtain ⟨e, he⟩ := encItems_of_finite (c := s.cfg) (ord := ord) 0 s.drawCount hfin
  refine ⟨_, execVenc_ok (hl ▸ taggedItems_of_tagged 0 l hk) he hc, rfl,
    fun a ha => read_stored_outside s (encItems_ok he).1 ha, ?_⟩
  rintro i hi _ rfl
  refine ⟨readBytes_stored_integer he _ hi, fun bits expb q hfmt hq => ?_⟩
  obtain ⟨n, hread⟩ := readBytes_stored_float he (totalSize (l.map Prod.fst)) hi hfmt hq
  refine ⟨fun p hp => ?_, fun hp => ⟨n, ?_⟩⟩
  · rw [hread, packOrDraw_of_ok n hp]
  · rw [hread, packOrDraw_of_undef n hp]

/-- Settles O41: item i of the decoded list is read at the sum of the widths before it. -/
theorem vdecReadsTheRecord : Obligations.VdecReadsTheRecord := by
  intro ord s l hl hk hc
  refine ⟨_, execVdec_ok (hl ▸ taggedItems_of_tagged 0 l hk) hc, by simp, fun i hi => ?_⟩
  rw [getElem_decItems _ _ _ _ _ i (by simpa using hi), List.getElem_map]

/-- Settles O42: the check of the kinds comes first in both commands. -/
theorem reservedItemKindFaults : Obligations.ReservedItemKindFaults := by
  intro ord s i hi hres hlow
  have ht := taggedItems_reserved hi hres hlow
  rw [faulted_eq_recordFault]
  exact ⟨execVenc_error ht, execVdec_error ht⟩

/-- Settles O44, by induction on the items: each ENC stores its item's bytes right after those before it. -/
theorem vencIsAChainOfEnc : Obligations.VencIsAChainOfEnc := by
  rintro ord s t l ⟨hcap, -, -⟩ hl hk hf hs ht
  obtain ⟨e, he, hc, rfl⟩ := stored_of_execVenc (hl ▸ taggedItems_of_tagged 0 l hk) hs ht
  exact encChain_of_encItems he hf (by omega) hc

/-- Settles O45: a DEC at the item's offset reads the item's bytes. -/
theorem vdecItemsAreThoseOfDec : Obligations.VdecItemsAreThoseOfDec := by
  rintro ord s t l ⟨hcap, -, -⟩ hl hk - hs ht
  have hc := capacity_of_execVdec (hl ▸ taggedItems_of_tagged 0 l hk) hs ht
  cases (execVdec_ok (ord := ord) (hl ▸ taggedItems_of_tagged 0 l hk) hc).symm.trans hs
  refine ⟨by simp, fun i hi => ?_⟩
  have hle := totalSize_take_add_size_le (ks := l.map Prod.fst) (i := i) (by simpa using hi)
  rw [List.getElem_map] at hle
  have hoff : (s.reqOff + BitVec.ofNat 64 (totalSize ((l.map Prod.fst).take i))).toNat =
      s.reqOff.toNat + totalSize ((l.map Prod.fst).take i) := toNat_add_ofNat (by omega)
  refine ⟨_, (exec_dec _ _ _).trans (decCommand_ok ord ?_), ?_⟩
  · dsimp only
    omega
  · simp only [getElem_decItems _ _ _ _ _ i (by simpa using hi : i < (l.map Prod.fst).length), List.getElem_map,
      decItem_kind, hoff]
    exact ⟨trivial, fun hf => by simp [hf], fun hf => by simp [hf]⟩

/-- Settles O43: an empty list has no bytes, and its end offset is REQ_OFF. -/
theorem emptyListIsLegal : Obligations.EmptyListIsLegal := by
  intro ord s hl
  have ht : taggedItems 0 s.reqList = .ok [] := by rw [hl, taggedItems]
  refine ⟨fun hc => ⟨execVenc_ok ht rfl hc, execVdec_ok ht hc⟩, fun hc => ?_⟩
  rw [faulted_eq_recordFault]
  exact ⟨execVenc_fault ht (by simp) hc, execVdec_fault ht hc⟩

end Sys2Proof

/-! The Length-Prefixed Codec (obligations O47 to O55): the frame LPENC stores, what LPDEC answers by the count it reads,
and the round trips of lists and of strings. -/

namespace Sys2Proof.Machine

variable {s t u : State} {ord : ByteOrder} {ek : Kind} {ck : CountKind} {e : Encoded} {i : Nat}

/-! ### The frame LPENC stores -/

/-- The bytes LPENC gives for the elements of REQ_LIST, each encoded with EK (44_length_prefixed_codec R183). -/
abbrev encElements (ord : ByteOrder) (ek : Kind) (s : State) : Except Raise Encoded :=
  encItems s.cfg ord 0 s.drawCount (s.reqList.map fun it => (ek, it))

/-- The state after LPENC has stored the count and the encoded elements `e` (44_length_prefixed_codec R182, R183). -/
def State.framed (ord : ByteOrder) (ek : Kind) (ck : CountKind) (e : Encoded) (s : State) : State :=
  s.stored (ck.size + s.reqList.length * ek.size) ⟨bytesIn ord s.reqList.length ck.size ++ e.bytes, e.draws⟩

theorem encElements_of_finite (ord : ByteOrder)
    (hfin : ek.isFloat = true → ∀ it ∈ s.reqList, finiteValue it.real ≠ none) : ∃ e, encElements ord ek s = .ok e :=
  encItems_of_finite 0 s.drawCount (List.forall_mem_map.2 fun it hit hf => hfin hf it hit)

theorem execLpenc_ok (hn : s.reqList.length ≤ 2 ^ (8 * ck.size) - 1) (he : encElements ord ek s = .ok e)
    (hc : s.reqOff.toNat + (ck.size + s.reqList.length * ek.size) ≤ s.cfg.bufCap) :
    execLpenc ord ek ck s = .next (s.framed ord ek ck e) := by
  simp only [execLpenc, if_neg (not_lt.2 hn), he]
  exact storeRecord_ok hc

theorem execLpenc_countRange (hn : 2 ^ (8 * ck.size) - 1 < s.reqList.length) :
    execLpenc ord ek ck s = .next (s.recordFault ⟨.countRange, s.reqList.length⟩) := if_pos hn

/-- An LPENC that does not fault has stored the frame of its items. -/
theorem framed_of_execLpenc (h : execLpenc ord ek ck s = .next t) (hv : faultValid t = false) :
    s.reqList.length ≤ 2 ^ (8 * ck.size) - 1 ∧
      s.reqOff.toNat + (ck.size + s.reqList.length * ek.size) ≤ s.cfg.bufCap ∧
      ∃ e, encElements ord ek s = .ok e ∧ t = s.framed ord ek ck e := by
  rcases execLpenc_cases ord ek ck s with ⟨-, hx⟩ | ⟨hn, ⟨r, -, hx⟩ | ⟨e, he, -, ⟨-, hx⟩ | ⟨hc, hx⟩⟩⟩
  · exact absurd (hx.symm.trans h) (ne_recordFault hv _)
  · exact absurd (hx.symm.trans h) (ne_recordFault hv r)
  · exact absurd (hx.symm.trans h) (ne_recordFault hv _)
  · cases hx.symm.trans h
    exact ⟨hn, hc, e, he, rfl⟩

theorem length_of_encElements (he : encElements ord ek s = .ok e) : e.bytes.length = s.reqList.length * ek.size := by
  rw [(encItems_ok he).1, List.map_map]
  simp [totalSize, Function.comp_def]

/-- A frame leaves alone every byte outside its own. -/
theorem read_framed_outside (ck : CountKind) (he : encElements ord ek s = .ok e) {a : Nat}
    (ha : a < s.reqOff.toNat ∨ s.reqOff.toNat + (ck.size + s.reqList.length * ek.size) ≤ a) :
    (s.framed ord ek ck e).buf.read a = s.buf.read a :=
  read_stored_outside s (by simp [length_of_encElements he]) ha

/-- The count comes first in a frame (44_length_prefixed_codec R182). -/
theorem readBytes_framed_count (ord : ByteOrder) (ek : Kind) (ck : CountKind) (e : Encoded) (s : State) :
    (s.framed ord ek ck e).buf.readBytes s.reqOff.toNat ck.size = bytesIn ord s.reqList.length ck.size :=
  readBytes_writeBytes_prefix (length_bytesIn ord _ _)

/-- Element i of a frame lies at `REQ_OFF + U + i S` (44_length_prefixed_codec R182). -/
theorem readBytes_framed_element (ck : CountKind) (he : encElements ord ek s = .ok e) (hi : i < s.reqList.length) :
    ∃ d e', encBytes s.cfg ek ord s.reqList[i] i d = .ok e' ∧
      (s.framed ord ek ck e).buf.readBytes (s.reqOff.toNat + ck.size + i * ek.size) ek.size = e'.bytes := by
  obtain ⟨d, e', hx, hread⟩ := readBytes_encItems he
    (s.buf.writeBytes s.reqOff.toNat (bytesIn ord s.reqList.length ck.size)) (s.reqOff.toNat + ck.size) i
    (by simpa using hi)
  rw [totalSize_take_elements ek _ hi.le] at hread
  simp only [List.getElem_map, Nat.zero_add] at hx hread
  refine ⟨d, e', hx, ?_⟩
  rw [State.framed, stored_buf, writeBytes_append, length_bytesIn, hread]

theorem readBytes_framed_integer (ck : CountKind) (he : encElements ord ek s = .ok e) (hi : i < s.reqList.length)
    (hk : ek.isFloat = false) :
    (s.framed ord ek ck e).buf.readBytes (s.reqOff.toNat + ck.size + i * ek.size) ek.size =
      bytesIn ord s.reqList[i].word.toNat ek.size := by
  obtain ⟨d, e', hx, hread⟩ := readBytes_framed_element ck he hi
  rw [encBytes_integer _ _ _ _ _ hk] at hx
  cases hx
  exact hread

theorem readBytes_framed_float {bits expb : Nat} {q : Rat} (ck : CountKind) (he : encElements ord ek s = .ok e)
    (hi : i < s.reqList.length) (hk : ek.format = some (bits, expb)) (hq : finiteValue s.reqList[i].real = some q) :
    ∃ d, (s.framed ord ek ck e).buf.readBytes (s.reqOff.toNat + ck.size + i * ek.size) ek.size =
      bytesIn s.cfg.hostOrder (packOrDraw s.cfg.quantize q bits expb d).value ek.size := by
  obtain ⟨d, e', hx, hread⟩ := readBytes_framed_element ck he hi
  rw [encBytes_float _ _ _ _ hk hq] at hx
  cases hx
  exact ⟨d, hread⟩

/-! ### What LPDEC answers by the count it reads -/

/-- The elements LPDEC reads after the count field (44_length_prefixed_codec R187). -/
abbrev frameItems (ord : ByteOrder) (ek : Kind) (ck : CountKind) (s : State) : List Item :=
  decItems s.cfg ord s.buf (s.reqOff.toNat + ck.size) (List.replicate (countField ord ck s) ek)

/-- Element i of equal kinds is read after i widths (44_length_prefixed_codec R182). -/
theorem getElem_decItems_replicate (c : Params) (ord : ByteOrder) (m : Memory) (off : Nat) (k : Kind) {n : Nat}
    (h : i < n) : (decItems c ord m off (List.replicate n k))[i]'(by simpa using h) =
      decItem c k ord (m.readBytes (off + i * k.size) k.size) := by
  rw [getElem_decItems _ _ _ _ _ i (by simpa using h), List.take_replicate, min_eq_left h.le, totalSize_replicate,
    List.getElem_replicate]

theorem countField_lt (ord : ByteOrder) (ck : CountKind) (s : State) : countField ord ck s < 2 ^ (8 * ck.size) := by
  simpa using valIn_lt ord (s.buf.readBytes s.reqOff.toNat ck.size)

/-- The count as the sum of its bytes at their weights (00_scope R10). -/
theorem countField_eq {c : Nat} (h : c = ∑ j ∈ Finset.range ck.size,
    (s.buf.read (s.reqOff.toNat + j)).toNat * 2 ^ byteShift ord ck.size j) : countField ord ck s = c :=
  (valIn_readBytes ord _ _ _).trans h.symm

theorem execLpdec_sentinel (hu : s.reqOff.toNat + ck.size ≤ s.cfg.bufCap)
    (hg : s.reqMax.toNat < countField ord ck s) :
    execLpdec ord ek ck s = .next { s with rspLen := sentinel, rspList := [] } :=
  (guardCapacity_ok _ hu).trans (if_pos hg)

theorem execLpdec_listRange (hu : s.reqOff.toNat + ck.size ≤ s.cfg.bufCap)
    (hg : countField ord ck s ≤ s.reqMax.toNat) (hm : s.cfg.maxList < countField ord ck s) :
    execLpdec ord ek ck s = .next (s.recordFault ⟨.listRange, countField ord ck s⟩) :=
  (guardCapacity_ok _ hu).trans ((if_neg (not_lt.2 hg)).trans (if_pos hm))

theorem execLpdec_ok (hg : countField ord ck s ≤ s.reqMax.toNat) (hm : countField ord ck s ≤ s.cfg.maxList)
    (hc : s.reqOff.toNat + (ck.size + countField ord ck s * ek.size) ≤ s.cfg.bufCap) :
    execLpdec ord ek ck s = .next { s with
      rspList := frameItems ord ek ck s
      rspLen := BitVec.ofNat 64 (ck.size + countField ord ck s * ek.size) } :=
  (guardCapacity_ok _ (by omega)).trans
    ((if_neg (not_lt.2 hg)).trans ((if_neg (not_lt.2 hm)).trans (guardCapacity_ok _ hc)))

/-- An LPDEC that does not fault gave the sentinel or the elements of the frame. -/
theorem outcome_of_execLpdec (h : execLpdec ord ek ck s = .next t) (hv : faultValid t = false) :
    (s.reqMax.toNat < countField ord ck s ∧ t = { s with rspLen := sentinel, rspList := [] }) ∨
      (countField ord ck s ≤ s.reqMax.toNat ∧
        s.reqOff.toNat + (ck.size + countField ord ck s * ek.size) ≤ s.cfg.bufCap ∧
        t = { s with
          rspList := frameItems ord ek ck s
          rspLen := BitVec.ofNat 64 (ck.size + countField ord ck s * ek.size) }) := by
  rcases execLpdec_cases ord ek ck s with ⟨-, hx⟩ | ⟨-, ⟨hg, hx⟩ | ⟨hg, ⟨-, hx⟩ | ⟨-, ⟨-, hx⟩ | ⟨hc, hx⟩⟩⟩⟩
  · exact absurd (hx.symm.trans h) (ne_recordFault hv _)
  · cases hx.symm.trans h
    exact .inl ⟨hg, rfl⟩
  · exact absurd (hx.symm.trans h) (ne_recordFault hv _)
  · exact absurd (hx.symm.trans h) (ne_recordFault hv _)
  · cases hx.symm.trans h
    exact .inr ⟨hg, hc, rfl⟩

/-! ### A frame read back

`u` is a state whose bytes at REQ_OFF are those of the frame `s` stored. -/

section
variable (hn : s.reqList.length ≤ 2 ^ (8 * ck.size) - 1) (hoff : u.reqOff = s.reqOff)
  (hread : ∀ j < ck.size + s.reqList.length * ek.size,
    u.buf.read (s.reqOff.toNat + j) = (s.framed ord ek ck e).buf.read (s.reqOff.toNat + j))
include hn hoff hread

/-- The count read back from a frame is the length of its list. -/
theorem countField_of_framed : countField ord ck u = s.reqList.length := by
  have hpos := Nat.two_pow_pos (8 * ck.size)
  rw [countField, hoff, readBytes_congr fun j hj => hread j (by omega), readBytes_framed_count, valIn_bytesIn]
  exact Nat.mod_eq_of_lt (by omega)

/-- The elements read back from a frame are those the frame holds. -/
theorem frameItems_of_framed (hcfg : u.cfg = s.cfg) :
    frameItems ord ek ck u = decItems s.cfg ord (s.framed ord ek ck e).buf (s.reqOff.toNat + ck.size)
      (List.replicate s.reqList.length ek) := by
  rw [frameItems, countField_of_framed hn hoff hread, hcfg, hoff]
  refine decItems_congr fun j hj => ?_
  rw [totalSize_replicate] at hj
  rw [Nat.add_assoc]
  exact hread _ (by omega)

end

/-! ### Which causes a fault records, and which lengths a command writes -/

theorem fault_recordFault_ne {r : Raise} {c : Cause} (s : State) (h : r.cause ≠ c) :
    (s.recordFault r).fault ≠ faultWord c := fun hf => h (faultWord_injective hf)

/-- LPENC of a list its count field can express records no COUNT_RANGE (44_length_prefixed_codec R184). -/
theorem fault_execLpenc_of_le (hn : s.reqList.length ≤ 2 ^ (8 * ck.size) - 1) (h : execLpenc ord ek ck s = .next t) :
    t.fault = s.fault ∨ t.fault ≠ faultWord .countRange := by
  rcases execLpenc_cases ord ek ck s with ⟨hlt, -⟩ | ⟨-, ⟨r, hr, hx⟩ | ⟨e, -, -, ⟨-, hx⟩ | ⟨-, hx⟩⟩⟩
  · exact absurd hn (not_le.2 hlt)
  · cases hx.symm.trans h
    obtain ⟨j, -, rfl, -⟩ := encItems_error hr
    exact .inr (fault_recordFault_ne s nofun)
  · cases hx.symm.trans h
    exact .inr (fault_recordFault_ne s nofun)
  · cases hx.symm.trans h
    exact .inl rfl

/-- LPDEC whose count, once past the guard, fits a list register records no LIST_RANGE (44_length_prefixed_codec
R189). -/
theorem fault_execLpdec_of_le (hm : countField ord ck s ≤ s.reqMax.toNat → countField ord ck s ≤ s.cfg.maxList)
    (h : execLpdec ord ek ck s = .next t) : t.fault = s.fault ∨ t.fault ≠ faultWord .listRange := by
  rcases execLpdec_cases ord ek ck s with ⟨-, hx⟩ | ⟨-, ⟨-, hx⟩ | ⟨hg, ⟨hlt, -⟩ | ⟨-, ⟨-, hx⟩ | ⟨-, hx⟩⟩⟩⟩
  · cases hx.symm.trans h
    exact .inr (fault_recordFault_ne s nofun)
  · cases hx.symm.trans h
    exact .inl rfl
  · exact absurd (hm hg) (not_le.2 hlt)
  · cases hx.symm.trans h
    exact .inr (fault_recordFault_ne s nofun)
  · cases hx.symm.trans h
    exact .inl rfl

/-- A command outside the packer that does not fault writes to RSP_LEN the width of an access within the capacity, or,
failing LPDEC's guard, the sentinel (44_length_prefixed_codec R190). -/
theorem rspLen_of_exec {i : Instr} (hp : ∀ bits expb, i ≠ .fpack bits expb ∧ i ≠ .funpack bits expb)
    (h : exec i s = .next t) (hv : faultValid t = false) :
    (∃ ord ek ck, i = .lpdec ord ek ck ∧ s.reqMax.toNat < countField ord ck s ∧ t.rspLen = sentinel) ∨
      ∃ n, s.reqOff.toNat + n ≤ s.cfg.bufCap ∧ t.rspLen = BitVec.ofNat 64 n := by
  rcases instr_shapes i with ⟨b, e, rfl⟩ | ⟨b, e, rfl⟩ | ⟨k, o, rfl⟩ | ⟨k, o, rfl⟩ | ⟨o, rfl⟩ | ⟨o, rfl⟩ |
    ⟨o, ek, ck, rfl⟩ | ⟨o, ek, ck, rfl⟩
  · exact absurd rfl (hp b e).1
  · exact absurd rfl (hp b e).2
  · rw [exec_enc] at h
    rcases encCommand_cases k o s with ⟨-, -, hx⟩ | ⟨e, -, -, ⟨-, hx⟩ | ⟨hc, hx⟩⟩
    · exact absurd (hx.symm.trans h) (ne_recordFault hv _)
    · exact absurd (hx.symm.trans h) (ne_recordFault hv _)
    · cases hx.symm.trans h
      exact .inr ⟨_, hc, rfl⟩
  · rw [exec_dec] at h
    rcases Nat.lt_or_ge s.cfg.bufCap (s.reqOff.toNat + k.size) with hc | hc
    · exact absurd ((decCommand_fault o hc).symm.trans h) (ne_recordFault hv _)
    · cases (decCommand_ok o hc).symm.trans h
      exact .inr ⟨_, hc, rfl⟩
  · rcases execVenc_cases o s with ⟨r, -, hx⟩ | ⟨l, -, ⟨r, -, hx⟩ | ⟨e, -, ⟨-, hx⟩ | ⟨hc, hx⟩⟩⟩
    · exact absurd (hx.symm.trans h) (ne_recordFault hv r)
    · exact absurd (hx.symm.trans h) (ne_recordFault hv r)
    · exact absurd (hx.symm.trans h) (ne_recordFault hv _)
    · cases hx.symm.trans h
      exact .inr ⟨_, hc, rfl⟩
  · rcases execVdec_cases o s with ⟨r, -, hx⟩ | ⟨l, -, ⟨-, hx⟩ | ⟨hc, hx⟩⟩
    · exact absurd (hx.symm.trans h) (ne_recordFault hv r)
    · exact absurd (hx.symm.trans h) (ne_recordFault hv _)
    · cases hx.symm.trans h
      exact .inr ⟨_, hc, rfl⟩
  · obtain ⟨-, hc, e, -, rfl⟩ := framed_of_execLpenc h hv
    exact .inr ⟨_, hc, rfl⟩
  · rcases outcome_of_execLpdec h hv with ⟨hg, rfl⟩ | ⟨-, hc, rfl⟩
    · exact .inl ⟨o, ek, ck, rfl, hg, rfl⟩
    · exact .inr ⟨_, hc, rfl⟩

/-- A width below 2^63 is nonnegative as a 64-bit length. -/
theorem toInt_ofNat_nonneg {n : Nat} (h : n < 2 ^ 63) : 0 ≤ (BitVec.ofNat 64 n).toInt := by
  rw [BitVec.toInt_ofNat', Int.bmod_eq_of_le_mul_two (by omega) (by omega)]
  exact Int.natCast_nonneg n

/-! ### Strings -/

@[simp] theorem length_stringItems (str : List Byte) : (stringItems str).length = str.length := by simp [stringItems]

/-- A byte is the low byte of its zero extension. -/
theorem extractLsb'_zext (b : Byte) : (zext b.toNat).extractLsb' 0 8 = b := by
  have hb := b.isLt
  apply BitVec.eq_of_toNat_eq
  rw [BitVec.extractLsb'_toNat, toNat_zext (by omega), Nat.shiftRight_zero, Nat.mod_eq_of_lt hb]

/-- The one byte of a U8 element decodes to the word it was encoded from, when that word is a byte. -/
theorem decItem_u8_zext (c : Params) (ord : ByteOrder) (b : Byte) :
    (decItem c .u8 ord (bytesIn ord (zext b.toNat).toNat Kind.u8.size)).word = zext b.toNat := by
  have hb := b.isLt
  refine decItem_word_bytesIn c rfl (fun _ => ?_) nofun
  rw [toNat_zext (by omega)]
  exact hb

/-- The elements of a string's frame are its bytes (44_length_prefixed_codec R191). -/
theorem map_decItems_framed {str : List Byte} (hs : s.reqList = stringItems str)
    (he : encElements ord .u8 s = .ok e) :
    (decItems s.cfg ord (s.framed ord .u8 ck e).buf (s.reqOff.toNat + ck.size)
      (List.replicate s.reqList.length .u8)).map (fun it => it.word.extractLsb' 0 8) = str := by
  refine List.ext_getElem (by simp [hs]) fun i _ hi => ?_
  have hil : i < s.reqList.length := by simpa [hs] using hi
  have hword : s.reqList[i].word = zext str[i].toNat := by simp [hs, stringItems]
  rw [List.getElem_map, getElem_decItems_replicate _ _ _ _ _ hil, readBytes_framed_integer ck he hil rfl, hword,
    decItem_u8_zext, extractLsb'_zext]

/-- A frame within the capacity does not have the sentinel for its length. -/
theorem ofNat_ne_sentinel {n : Nat} (h : n < 2 ^ 63) : BitVec.ofNat 64 n ≠ sentinel := by
  intro hs
  have hnonneg := hs ▸ toInt_ofNat_nonneg h
  exact absurd hnonneg (by decide)

end Sys2Proof.Machine

namespace Sys2Proof

open Machine

/-- Settles O54: LPDEC reads back the count and each element at its place, unless the guard turns the count away. -/
theorem frameRoundTrip : Obligations.FrameRoundTrip := by
  rintro ord ek ck s t u v _ rfl - ht hft hcfg hoff - hread hv hfv
  obtain ⟨hn, -, e, he, rfl⟩ := framed_of_execLpenc ht hft
  have hcount := countField_of_framed hn hoff hread
  rcases outcome_of_execLpdec hv hfv with ⟨hg, rfl⟩ | ⟨hg, -, rfl⟩
  · rw [hcount] at hg
    exact ⟨fun hle => absurd hg (not_lt.2 hle), fun _ => ⟨rfl, rfl⟩⟩
  · rw [hcount] at hg
    refine ⟨fun _ => ?_, fun hlt => absurd hlt (not_lt.2 hg)⟩
    simp only [frameItems_of_framed hn hoff hread hcfg, hcount]
    refine ⟨trivial, by simp, fun i hi => ?_⟩
    simp only [getElem_decItems_replicate _ _ _ _ _ hi, decItem_kind, true_and]
    constructor
    · intro hk
      rw [readBytes_framed_integer ck he hi hk]
      exact decItem_bytesIn _ _ _ hk
    · intro bits expb q p hk hq hp
      obtain ⟨d, hbytes⟩ := readBytes_framed_float ck he hi hk hq
      rw [hbytes, packOrDraw_of_ok d hp, decItem_pattern ord hk hp]

/-- Settles O47: the elements encode, and the count and each element lie at their places in the frame. -/
theorem lpencStoresTheFrame : Obligations.LpencStoresTheFrame := by
  rintro ord ek ck s _ rfl hn hfin hc
  obtain ⟨e, he⟩ := encElements_of_finite ord hfin
  refine ⟨_, execLpenc_ok hn he hc, rfl, fun a => read_framed_outside ck he, readBytes_framed_count ord ek ck e s, ?_⟩
  rintro i hi _ rfl
  refine ⟨readBytes_framed_integer ck he hi, fun bits expb q hk hq => ?_⟩
  obtain ⟨d, hbytes⟩ := readBytes_framed_float ck he hi hk hq
  refine ⟨fun p hp => ?_, fun hp => ⟨d, ?_⟩⟩
  · rw [hbytes, packOrDraw_of_ok d hp]
  · rw [hbytes, packOrDraw_of_undef d hp]

/-- Settles O48: element i of the decoded list is read after the count and i widths. -/
theorem lpdecReadsTheFrame : Obligations.LpdecReadsTheFrame := by
  intro ord ek ck s c _ hsum hg hm hc
  obtain rfl := countField_eq hsum
  exact ⟨_, execLpdec_ok hg hm hc, by simp, fun i hi => getElem_decItems_replicate _ _ _ _ _ hi⟩

/-- Settles O49, by what LPDEC can do once the count field is within the capacity. -/
theorem guardGivesTheSentinel : Obligations.GuardGivesTheSentinel := by
  intro ord ek ck s c hu hsum
  obtain rfl := countField_eq hsum
  simp only [faulted_eq_recordFault]
  refine ⟨execLpdec_sentinel hu, fun hg => ?_⟩
  rcases Nat.lt_or_ge s.cfg.maxList (countField ord ck s) with hm | hm
  · exact ⟨_, execLpdec_listRange hu hg hm, .inl rfl⟩
  · rcases Nat.lt_or_ge s.cfg.bufCap (s.reqOff.toNat + (ck.size + countField ord ck s * ek.size)) with hc | hc
    · exact ⟨_, execLpdec_fault_elements hu hg hm hc, .inr (.inl rfl)⟩
    · exact ⟨_, execLpdec_ok hg hm hc, .inr (.inr ⟨by simp, rfl⟩)⟩

/-- Settles O50: COUNT_RANGE is the first check, and the length of a list register fits 64 bits. -/
theorem countRangeFaults : Obligations.CountRangeFaults := by
  intro ord ek s
  simp only [faulted_eq_recordFault]
  refine ⟨fun ck => execLpenc_countRange, ?_⟩
  rintro ⟨-, -, hmax⟩ hlen t ht
  exact fault_execLpenc_of_le (ck := .u64) (hlen.trans hmax) ht

/-- Settles O51: a count is below 2^(8U), and one past the guard is at most REQ_MAX. -/
theorem listRangeFaults : Obligations.ListRangeFaults := by
  intro ord ek ck s c hu hsum
  obtain rfl := countField_eq hsum
  rw [faulted_eq_recordFault]
  refine ⟨execLpdec_listRange hu, fun hcap t ht => fault_execLpdec_of_le (fun hg => ?_) ht⟩
  have hlt := countField_lt ord ck s
  rcases hcap with h | h <;> omega

/-- Settles O52, by the width each command writes. -/
theorem onlyTheGuardGivesANegativeLength : Obligations.OnlyTheGuardGivesANegativeLength := by
  refine ⟨by decide, ?_⟩
  rintro i s t ⟨hcap, -, -⟩ - h hv hp
  rcases rspLen_of_exec hp h hv with hs | ⟨n, hn, hlen⟩
  · exact .inl hs
  · rw [hlen]
    exact .inr (toInt_ofNat_nonneg (by omega))

/-- Settles O55: the frame of a string reads back as its bytes, and its length is not the sentinel. -/
theorem stringRoundTrip : Obligations.StringRoundTrip := by
  intro ord ck off max str s t u
  refine ⟨rfl, rfl, ?_⟩
  rintro ⟨hcap, -, -⟩ hs hn hmax hc ht hcfg hoff hbuf
  have hlen : s.reqList.length = str.length := by simp [hs]
  have hn' : s.reqList.length ≤ 2 ^ (8 * ck.size) - 1 := by rwa [hlen]
  obtain ⟨e, he⟩ := encElements_of_finite (ek := .u8) (s := s) ord nofun
  cases (execLpenc_ok hn' he (by simpa [hlen, Kind.size] using hc)).symm.trans ht
  have hread : ∀ j < ck.size + s.reqList.length * Kind.u8.size,
      u.buf.read (s.reqOff.toNat + j) = (s.framed ord .u8 ck e).buf.read (s.reqOff.toNat + j) :=
    fun _ _ => by rw [hbuf]
  have hcount : countField ord ck u = str.length := (countField_of_framed hn' hoff hread).trans hlen
  rcases Nat.lt_or_ge u.reqMax.toNat str.length with hg | hg
  · refine ⟨_, execLpdec_sentinel ?_ (by rwa [hcount]), fun hle => absurd hg (not_lt.2 hle), fun _ => if_pos rfl⟩
    rw [hoff, hcfg]
    exact le_trans (Nat.add_le_add_left (Nat.le_add_right _ _) _) hc
  · refine ⟨_, execLpdec_ok (by rwa [hcount]) ?_ ?_, fun _ => ⟨?_, ?_⟩, fun hlt => absurd hlt (not_lt.2 hg)⟩
    · rw [hcount, hcfg]
      exact hmax
    · rw [hcount, hoff, hcfg, Kind.size, Nat.mul_one]
      exact hc
    · have hne : BitVec.ofNat 64 (ck.size + countField ord ck u * Kind.u8.size) ≠ sentinel := by
        refine ofNat_ne_sentinel ?_
        rw [hcount, Kind.size]
        omega
      rw [decodedString, if_neg hne]
      dsimp only
      rw [frameItems_of_framed hn' hoff hread hcfg]
      exact map_decItems_framed hs he
    · dsimp only
      rw [hcount, Kind.size, Nat.mul_one]

/-- Settles O53: the frame of an empty list is its count, and every byte of 0 is 0. -/
theorem emptyFrameIsAZeroCount : Obligations.EmptyFrameIsAZeroCount := by
  intro ord ek ck s hl
  have hn : s.reqList.length ≤ 2 ^ (8 * ck.size) - 1 := by simp [hl]
  have hwidth : ck.size + s.reqList.length * ek.size = ck.size := by simp [hl]
  have he : encElements ord ek s = .ok ⟨[], s.drawCount⟩ := by rw [encElements, hl]; rfl
  constructor
  · intro hc
    refine ⟨_, execLpenc_ok hn he (by rwa [hwidth]), ?_, fun i hi => ?_, fun a ha => ?_⟩
    · rw [← hwidth]
      rfl
    · have hbyte := List.getElem_of_eq (readBytes_framed_count ord ek ck ⟨[], s.drawCount⟩ s) (by simpa using hi)
      rw [getElem_readBytes, getElem_bytesIn, hl] at hbyte
      rw [hbyte]
      simp
    · exact read_framed_outside ck he (by rwa [hwidth])
  · intro hc
    have hfault := execLpenc_fault (ord := ord) (ek := ek) hn (by simp [hl]) (by rwa [hwidth])
    rwa [hwidth, ← faulted_eq_recordFault] at hfault

end Sys2Proof

/-! Faults are precise, and the block is stuck after one until reset (obligations O8, O18). -/

namespace Sys2Proof.Machine

variable {s t : State}

/-- With a fault recorded, an access that is no reset changes at most the request registers, BUF, the command index
and the data read (60_exceptions R214). -/
theorem hostAccess_frame_of_stuck {op : HostOp} (hf : faultValid s = true) (hop : op ≠ .reset)
    (h : hostAccess op s = .next t) :
    t = { s with
      reqCw := t.reqCw, reqOff := t.reqOff, reqWord := t.reqWord, reqFval := t.reqFval, reqMax := t.reqMax
      reqList := t.reqList, buf := t.buf, cmdIndex := t.cmdIndex, readData := t.readData } := by
  cases op with
  | write n v =>
    by_cases hc : ∃ w, HostOp.write n v = .write 0x00 (.bits32 w)
    · obtain ⟨w, ⟨⟩⟩ := hc
      have hi : issue w s = .next t := h
      rw [issue_stuck hf] at hi
      cases hi
      rfl
    · have hw : hostWrite n v s = .next t := h
      rw [hostWrite_frame (not_exists.1 hc) hw]
  | read n => cases h; rfl
  | bufWrite off b =>
    rw [hostAccess] at h
    split at h <;> cases h
    rfl
  | bufRead off =>
    rw [hostAccess] at h
    split at h <;> cases h
    rfl
  | reset => exact absurd rfl hop

/-- A run that ends with a fault recorded has no second end with none (70_reset_and_hazards R248). -/
theorem not_normalEnd_of_faultedRun (h : s.FaultedRun) : ¬s.NormalEnd := by
  obtain ⟨t, ht, hf⟩ := h
  rintro ⟨u, hu, hv⟩
  rw [ht] at hu
  cases hu
  exact Bool.false_ne_true (hv.symm.trans hf)

end Sys2Proof.Machine

namespace Sys2Proof

open Machine

/-- Settles O18: a command records a fault, or changes only response registers, BUF and the count of draws. -/
theorem faultsArePrecise : Obligations.FaultsArePrecise := by
  intro i s t _ h
  rcases exec_cases i s with ⟨r, he⟩ | ⟨w, d, he⟩ | ⟨q, he⟩ | ⟨n, e, -, -, he⟩ | ⟨w, n, -, he⟩ | ⟨q, n, -, he⟩ |
    ⟨ord, off, ks, n, -, -, he⟩ | ⟨he, -⟩ <;> rw [he] at h <;> cases h
  · exact .inr ⟨faultValid_recordFault s r, r.cause, r.info, (faulted_eq_recordFault s r.cause r.info).symm⟩
  all_goals exact .inl ⟨rfl, rfl, rfl⟩

/-- Settles O8: FAULT.FV at the run's end, a stuck issue, the frame of a stuck access, and reset. -/
theorem stuckUntilReset : Obligations.StuckUntilReset := by
  intro s op rest hf h
  have hstuck : faultValid (s.setHost rest) = true := hf
  refine ⟨fun r hr => ?_, ?_, fun hop t ht => ?_, ?_⟩
  · have hrun : r.FaultedRun := ⟨s, hr, hf⟩
    exact ⟨hrun, not_normalEnd_of_faultedRun hrun⟩
  · rintro w rfl
    rw [step_write_reqCw h]
    exact issue_stuck hstuck
  · rw [step_access h] at ht
    rw [hostAccess_frame_of_stuck hstuck hop ht]
    exact ⟨rfl, rfl, rfl, rfl, rfl, rfl, rfl⟩
  · rintro rfl
    exact ⟨_, step_access h, rfl, BitVec.getLsbD_zero⟩

end Sys2Proof

/-! The run of the host's sequence: the configuration is fixed, every command ends, and where a run ends (obligations
O16, O17, O60). -/

namespace Sys2Proof.Machine

variable {s t : State}

/-! ### The configuration -/

/-- No command changes the configuration (70_reset_and_hazards R244). -/
theorem cfg_of_exec {i : Instr} (h : exec i s = .next t) : t.cfg = s.cfg := by
  rcases exec_cases i s with ⟨r, he⟩ | ⟨w, d, he⟩ | ⟨q, he⟩ | ⟨n, e, -, -, he⟩ | ⟨w, n, -, he⟩ | ⟨q, n, -, he⟩ |
    ⟨ord, off, ks, n, -, -, he⟩ | ⟨he, -⟩ <;> rw [he] at h <;> cases h <;> rfl

theorem cfg_of_issue {w : CommandWord} (h : issue w s = .next t) : t.cfg = s.cfg := by
  rcases issue_cases w s with ⟨-, he⟩ | ⟨-, ⟨i, -, he⟩ | ⟨why, -, he⟩⟩ <;> rw [he] at h
  · cases h; rfl
  · exact cfg_of_exec (s := s.acceptCommand w) h
  · cases h; rfl

theorem cfg_of_hostAccess {op : HostOp} (h : hostAccess op s = .next t) : t.cfg = s.cfg := by
  by_cases hc : ∃ w, op = .write 0x00 (.bits32 w)
  · obtain ⟨w, rfl⟩ := hc
    exact cfg_of_issue (w := w) h
  · cases op with
    | write n v =>
      have hw : hostWrite n v s = .next t := h
      rw [hostWrite_frame (not_exists.1 hc) hw]
    | bufWrite off b | bufRead off =>
      rw [hostAccess] at h
      split at h <;> cases h
      rfl
    | read n | reset => cases h; rfl

/-! ### Where a run ends -/

/-- The end of a run whose next step has answered `r`. -/
def runAfter : Result → Result
  | .next t => t.runEnd
  | .fault r => .fault r
  | .refused r => .refused r

/-- While a command is left, a run goes on after the next step. -/
theorem runEnd_eq_runAfter (hc : s.host.any HostOp.isCommand = true) : s.runEnd = runAfter (step s) := by
  cases hh : s.host with
  | nil => simp [hh] at hc
  | cons op rest =>
    cases hs : step s with
    | next t => exact runEnd_cons hh hc hs
    | fault r | refused r => rw [State.runEnd, hh, List.length_cons, runFor, if_pos hc, hs]; rfl

theorem runEnd_ended (h : s.host.any HostOp.isCommand = false) : s.runEnd = .next s := runFor_ended _ h

/-- At the end of a run no command is left. -/
theorem ended_of_runEnd {l : List HostOp} (hl : s.host = l) (h : s.runEnd = .next t) :
    t.host.any HostOp.isCommand = false ∧
      ∃ made, l = made ++ t.host ∧ (made = [] ∨ ∃ before w, made = before ++ [.write 0x00 (.bits32 w)]) := by
  induction l generalizing s with
  | nil =>
    rw [runEnd_ended (by rw [hl]; rfl)] at h
    cases h
    exact ⟨by rw [hl]; rfl, [], hl.symm, .inl rfl⟩
  | cons op rest ih =>
    cases hc : s.host.any HostOp.isCommand with
    | false =>
      rw [runEnd_ended hc] at h
      cases h
      exact ⟨hc, [], hl.symm, .inl rfl⟩
    | true =>
      rw [runEnd_eq_runAfter hc] at h
      cases hs : step s with
      | fault r | refused r => rw [hs] at h; cases h
      | next u =>
        rw [hs] at h
        obtain ⟨hend, made, hmade, hlast⟩ := ih (step_host hl hs) h
        refine ⟨hend, op :: made, by rw [hmade, List.cons_append], .inr ?_⟩
        rcases hlast with rfl | ⟨before, w, rfl⟩
        · have hrest : rest.any HostOp.isCommand = false := by rw [hmade]; exact hend
          rw [hl, List.any_cons, hrest, Bool.or_false] at hc
          obtain ⟨w, rfl⟩ := isCommand_iff.1 hc
          exact ⟨[], w, rfl⟩
        · exact ⟨op :: before, w, rfl⟩

/-- Accesses after the last command stay pending through a run, and change nothing else of its end. -/
theorem runEnd_append {after : List HostOp} (ha : after.any HostOp.isCommand = false) (sequence : List HostOp)
    (s : State) :
    (s.setHost (sequence ++ after)).runEnd =
      mapNext (fun t => t.setHost (t.host ++ after)) (s.setHost sequence).runEnd := by
  induction sequence generalizing s with
  | nil => rw [runEnd_ended (s := s.setHost []) rfl]; exact runEnd_ended ha
  | cons op rest ih =>
    have hany : ((op :: rest) ++ after).any HostOp.isCommand = (op :: rest).any HostOp.isCommand := by
      rw [List.any_append, ha, Bool.or_false]
    cases hc : (op :: rest).any HostOp.isCommand with
    | false =>
      rw [runEnd_ended (s := s.setHost (op :: rest)) hc]
      exact runEnd_ended (hany.trans hc)
    | true =>
      rw [runEnd_eq_runAfter (s := s.setHost (op :: rest)) hc,
        runEnd_eq_runAfter (s := s.setHost (op :: rest ++ after)) (hany.trans hc),
        step_access (s := s.setHost (op :: rest)) rfl, step_access (s := s.setHost (op :: rest ++ after)) rfl,
        setHost_setHost, setHost_setHost, hostAccess_setHost, hostAccess_setHost]
      cases hostAccess op s with
      | next u => exact ih u
      | fault r | refused r => rfl

/-- The observed result does not depend on the accesses after the last command. -/
theorem runResult_append {after : List HostOp} (ha : after.any HostOp.isCommand = false) (sequence : List HostOp)
    (s : State) : (s.setHost (sequence ++ after)).runResult = (s.setHost sequence).runResult := by
  rw [State.runResult, runEnd_append ha, State.runResult]
  cases (s.setHost sequence).runEnd <;> rfl

theorem any_isCommand_eq_false_iff {l : List HostOp} :
    l.any HostOp.isCommand = false ↔ ∀ w, .write 0x00 (.bits32 w) ∉ l := by
  rw [← Bool.not_eq_true, any_isCommand_iff, not_exists]

theorem normalEnd_iff (h : s.runEnd = .next t) : s.NormalEnd ↔ faultValid t = false := by
  simp [State.NormalEnd, h]

theorem faultedRun_iff (h : s.runEnd = .next t) : s.FaultedRun ↔ faultValid t = true := by
  simp [State.FaultedRun, h]

theorem runResult_eq (h : s.runEnd = .next t) : s.runResult = some t.observed := by
  rw [State.runResult, h]

/-- The step of the last command is the end of the run. -/
theorem runEnd_last {op : HostOp} {rest : List HostOp} (hh : s.host = op :: rest) (hop : op.isCommand = true)
    (hrest : rest.any HostOp.isCommand = false) : s.runEnd = step s := by
  rw [runEnd_eq_runAfter (by rw [hh, List.any_cons, hop, Bool.true_or])]
  cases hs : step s with
  | next t => exact runEnd_ended (by rw [step_host hh hs, hrest])
  | fault r | refused r => rfl

end Sys2Proof.Machine

namespace Sys2Proof

open Machine

/-- Settles O16: a step makes one access, or nothing. -/
theorem configurationIsFixed : Obligations.ConfigurationIsFixed := by
  intro s t ht
  cases hh : s.host with
  | nil => rw [step_idle hh] at ht; cases ht; rfl
  | cons op rest =>
    rw [step_access hh] at ht
    exact cfg_of_hostAccess (s := s.setHost rest) ht

/-- Settles O17: each thing a command can do, a fault among them, is a next state. -/
theorem everyCommandEnds : Obligations.EveryCommandEnds := by
  intro i s
  rcases exec_cases i s with ⟨r, he⟩ | ⟨w, d, he⟩ | ⟨q, he⟩ | ⟨n, e, -, -, he⟩ | ⟨w, n, -, he⟩ | ⟨q, n, -, he⟩ |
    ⟨ord, off, ks, n, -, -, he⟩ | ⟨he, -⟩ <;> exact ⟨_, he⟩

/-- Settles O60, by induction on the host's sequence for the end, and again for the accesses after it. -/
theorem runEndsAtTheLastCommand : Obligations.RunEndsAtTheLastCommand := by
  intro s
  refine ⟨fun t ht => ?_, fun w rest hh hrest => ?_, fun op rest t hh hw ht => ?_, fun sequence after ha => ?_⟩
  · obtain ⟨hend, hmade⟩ := ended_of_runEnd rfl ht
    exact ⟨any_isCommand_eq_false_iff.1 hend, hmade, normalEnd_iff ht, faultedRun_iff ht, runResult_eq ht⟩
  · exact runEnd_last hh rfl (any_isCommand_eq_false_iff.2 hrest)
  · exact runEnd_cons hh (by rw [hh, List.any_cons, any_isCommand_iff.2 hw, Bool.or_true]) ht
  · exact runResult_append (any_isCommand_eq_false_iff.2 ha) sequence s

end Sys2Proof

/-! Reset (obligations O9, O10, O14). -/

namespace Sys2Proof.Machine

theorem registersReset_powerUp (c : Params) (m : Memory) : (State.powerUp c m).RegistersReset :=
  ⟨rfl, rfl, rfl, rfl, rfl, rfl, rfl, rfl, rfl, rfl, rfl, rfl, rfl⟩

theorem registersReset_resetRegisters (s : State) : s.resetRegisters.RegistersReset :=
  ⟨rfl, rfl, rfl, rfl, rfl, rfl, rfl, rfl, rfl, rfl, rfl, rfl, rfl⟩

/-- After reset FAULT.FV = 0: the engine is ready (70_reset_and_hazards R240). -/
theorem State.RegistersReset.faultValid {s : State} (h : s.RegistersReset) : faultValid s = false := by
  rw [Machine.faultValid, h.fault]
  exact BitVec.getLsbD_zero

/-- With FAULT.FV = 0 a legal word written to REQ_CW is executed in the same step (10_state R40). -/
theorem step_command {s : State} {w : CommandWord} {rest : List HostOp} {i : Instr}
    (h : s.host = .write 0x00 (.bits32 w) :: rest) (hf : faultValid s = false) (hd : decode w = .command i) :
    step s = exec i (s.accepted w rest) := by
  rw [step_write_reqCw h]
  exact issue_command hf hd

/-- Power-up meets the invariant with every configuration in range and every canonical launch contents inside BUF. -/
theorem inv_powerUp {c : Params} {m : Memory} (hc : c.WF) (hm : m.wf) (hin : ∀ x ∈ m, x.1 < c.bufCap) :
    (State.powerUp c m).Inv where
  cfg := hc
  bufCanonical := hm
  bufInside := hin
  faultLegal := .inl ⟨rfl, rfl, rfl⟩
  reqListBound := Nat.zero_le _
  rspListBound := Nat.zero_le _
  rspFvalFin := ⟨0, rfl⟩
  rspItems := List.forall_mem_nil _
  rspLen := .inr (Nat.zero_le _)

end Sys2Proof.Machine

namespace Sys2Proof

open Machine

/-- Settles O9: every register of a power-up and of a reset, one by one. -/
theorem resetStateOfEveryRegister : Obligations.ResetStateOfEveryRegister :=
  ⟨registersReset_powerUp _ _, registersReset_powerUp, fun s => ⟨registersReset_resetRegisters s, rfl⟩⟩

/-- Settles O10: with FAULT.FV = 0 after reset, the next legal command word is executed. -/
theorem resetLeavesBufAndClearsTheFault : Obligations.ResetLeavesBufAndClearsTheFault := by
  refine ⟨fun s rest hh => ?_, fun c m => ?_⟩
  · have hreset := registersReset_resetRegisters (s.setHost rest)
    refine ⟨_, step_access hh, hreset, rfl, rfl, hreset.faultValid, rfl, fun w rest' i hrest hd => ?_⟩
    exact step_command hrest hreset.faultValid hd
  · have hreset := registersReset_powerUp c m
    exact ⟨hreset, rfl, hreset.faultValid⟩

/-- Settles O14: State.reset is a power-up with the configuration of the test vectors and nothing in BUF. -/
theorem resetMeetsTheInvariant : Obligations.ResetMeetsTheInvariant :=
  inv_powerUp (by decide) ⟨.nil, List.forall_mem_nil _⟩ (List.forall_mem_nil _)

end Sys2Proof

/-! The request registers each command reads (obligation O59). -/

namespace Sys2Proof.Machine

variable (s : State) (off word : Word) (fval : FVal) (max : Word) (list : List Item)

/-! ### The state with other request registers -/

@[simp] theorem withRequests_cfg : (s.withRequests off word fval max list).cfg = s.cfg := rfl
@[simp] theorem withRequests_reqWord : (s.withRequests off word fval max list).reqWord = word := rfl
@[simp] theorem withRequests_reqFval : (s.withRequests off word fval max list).reqFval = fval := rfl
@[simp] theorem withRequests_reqList : (s.withRequests off word fval max list).reqList = list := rfl
@[simp] theorem withRequests_drawCount : (s.withRequests off word fval max list).drawCount = s.drawCount := rfl

/-- A change of the next state goes into both branches of a check. -/
theorem ite_eq_mapNext {f : State → State} {p : Prop} [Decidable p] {yes yes' no no' : Result}
    (hyes : yes' = mapNext f yes) (hno : no' = mapNext f no) :
    (if p then yes' else no') = mapNext f (if p then yes else no) := by
  split
  · exact hyes
  · exact hno

/-- The capacity check reads no request register by itself. -/
theorem guardCapacity_withRequests (a n : Nat) {go go' : Result}
    (h : go' = mapNext (State.withRequests off word fval max list) go) :
    guardCapacity a n (s.withRequests off word fval max list) go' =
      mapNext (State.withRequests off word fval max list) (guardCapacity a n s go) :=
  ite_eq_mapNext h rfl

/-- The store of a record reads REQ_OFF only. -/
theorem storeRecord_withRequests (n : Nat) (e : Encoded) :
    storeRecord n e (s.withRequests s.reqOff word fval max list) =
      mapNext (State.withRequests s.reqOff word fval max list) (storeRecord n e s) :=
  guardCapacity_withRequests s s.reqOff word fval max list _ _ rfl

/-! ### Which part of an item an encode or a decode reads -/

theorem encBytes_integer_congr {k : Kind} {it it' : Item} (c : Params) (ord : ByteOrder) (idx d : Nat)
    (hk : k.isFloat = false) (h : it'.word = it.word) : encBytes c k ord it' idx d = encBytes c k ord it idx d := by
  rw [encBytes_integer c ord it' idx d hk, encBytes_integer c ord it idx d hk, h]

theorem encBytes_float_congr {k : Kind} {it it' : Item} (c : Params) (ord : ByteOrder) (idx d : Nat)
    (hk : k.isFloat = true) (h : it'.real = it.real) : encBytes c k ord it' idx d = encBytes c k ord it idx d := by
  obtain ⟨f, hf⟩ := Option.isSome_iff_exists.1 hk
  rw [encBytes, encBytes, hf, h]

/-- The kinds of a list, or the lowest reserved one, depend on the items' kind codes only (43_variadic_codec R165). -/
theorem taggedItems_kinds_congr {l l' : List Item} (idx : Nat) (h : l'.map Item.kind = l.map Item.kind) :
    (taggedItems idx l').map (List.map Prod.fst) = (taggedItems idx l).map (List.map Prod.fst) := by
  induction l generalizing l' idx with
  | nil => rw [List.map_eq_nil_iff.1 h]
  | cons it l ih =>
    obtain ⟨it', l', rfl, hk, hl⟩ := List.map_eq_cons_iff.1 h
    rw [taggedItems, taggedItems, hk]
    cases Kind.ofCode it.kind with
    | none => rfl
    | some k =>
      have hrest := ih (idx + 1) hl
      generalize taggedItems (idx + 1) l' = r' at hrest ⊢
      generalize taggedItems (idx + 1) l = r at hrest ⊢
      cases r' <;> cases r <;> simp_all [Except.map]

/-! ### The commands -/

theorem execFpack_withRequests (bits expb : BitVec 7) :
    execFpack bits expb (s.withRequests off word s.reqFval max list) =
      mapNext (State.withRequests off word s.reqFval max list) (execFpack bits expb s) := by
  rcases execFpack_cases bits expb s with ⟨hq, h⟩ | ⟨q, hq, h⟩ <;> rw [h, execFpack, withRequests_reqFval, hq] <;> rfl

/-- ENC reads REQ_OFF, and of REQ_WORD and REQ_FVAL what its element encoder reads. -/
theorem encCommand_withRequests {k : Kind} {ord : ByteOrder}
    (h : encBytes s.cfg k ord ⟨k.code, word, fval⟩ 0 s.drawCount =
      encBytes s.cfg k ord ⟨k.code, s.reqWord, s.reqFval⟩ 0 s.drawCount) :
    encCommand k ord (s.withRequests s.reqOff word fval max list) =
      mapNext (State.withRequests s.reqOff word fval max list) (encCommand k ord s) := by
  simp only [encCommand, withRequests_cfg, withRequests_reqWord, withRequests_reqFval, withRequests_drawCount, h]
  split
  · rfl
  · exact storeRecord_withRequests s word fval max list _ _

theorem decCommand_withRequests (k : Kind) (ord : ByteOrder) :
    decCommand k ord (s.withRequests s.reqOff word fval max list) =
      mapNext (State.withRequests s.reqOff word fval max list) (decCommand k ord s) := by
  refine guardCapacity_withRequests s s.reqOff word fval max list _ _ ?_
  cases k.isFloat <;> rfl

theorem execVenc_withRequests (ord : ByteOrder) :
    execVenc ord (s.withRequests s.reqOff word fval max s.reqList) =
      mapNext (State.withRequests s.reqOff word fval max s.reqList) (execVenc ord s) := by
  simp only [execVenc, withRequests_reqList, withRequests_cfg, withRequests_drawCount]
  split
  · rfl
  · split
    · rfl
    · exact storeRecord_withRequests s word fval max s.reqList _ _

theorem execVdec_withRequests (ord : ByteOrder) (h : list.map Item.kind = s.reqList.map Item.kind) :
    execVdec ord (s.withRequests s.reqOff word fval max list) =
      mapNext (State.withRequests s.reqOff word fval max list) (execVdec ord s) := by
  have hkinds := taggedItems_kinds_congr 0 h
  cases hl' : taggedItems 0 list with
  | error r' => cases hl : taggedItems 0 s.reqList with
    | error r =>
      rw [hl', hl] at hkinds
      cases hkinds
      rw [execVdec_error hl, execVdec_error (s := s.withRequests s.reqOff word fval max list) hl']
      rfl
    | ok l => rw [hl', hl] at hkinds; cases hkinds
  | ok l' => cases hl : taggedItems 0 s.reqList with
    | error r => rw [hl', hl] at hkinds; cases hkinds
    | ok l =>
      rw [hl', hl] at hkinds
      have hks : l'.map Prod.fst = l.map Prod.fst := Except.ok.inj hkinds
      simp only [execVdec, withRequests_reqList, hl', hl, hks]
      exact guardCapacity_withRequests s s.reqOff word fval max list _ _ rfl

theorem execLpenc_withRequests (ord : ByteOrder) (ek : Kind) (ck : CountKind) :
    execLpenc ord ek ck (s.withRequests s.reqOff word fval max s.reqList) =
      mapNext (State.withRequests s.reqOff word fval max s.reqList) (execLpenc ord ek ck s) := by
  refine ite_eq_mapNext rfl ?_
  simp only [withRequests_reqList, withRequests_cfg, withRequests_drawCount]
  split
  · rfl
  · exact storeRecord_withRequests s word fval max s.reqList _ _

theorem execLpdec_withRequests (ord : ByteOrder) (ek : Kind) (ck : CountKind) :
    execLpdec ord ek ck (s.withRequests s.reqOff word fval s.reqMax list) =
      mapNext (State.withRequests s.reqOff word fval s.reqMax list) (execLpdec ord ek ck s) := by
  refine guardCapacity_withRequests s s.reqOff word fval s.reqMax list _ _ ?_
  refine ite_eq_mapNext rfl (ite_eq_mapNext rfl ?_)
  exact guardCapacity_withRequests s s.reqOff word fval s.reqMax list _ _ rfl

end Sys2Proof.Machine

namespace Sys2Proof

open Machine

/-- Settles O59: each command's outcome, with the registers of its row of 70_reset_and_hazards R245 kept. -/
theorem commandsReadOnlyTheirOperands : Obligations.CommandsReadOnlyTheirOperands := by
  intro s off word fval max list i h
  rcases h with ⟨⟨bits, expb, rfl⟩, rfl⟩ | ⟨⟨bits, expb, rfl⟩, rfl⟩ | ⟨⟨k, ord, hk, rfl⟩, rfl, rfl⟩ |
    ⟨⟨k, ord, hk, rfl⟩, rfl, rfl⟩ | ⟨⟨k, ord, rfl⟩, rfl⟩ | ⟨⟨ord, rfl⟩, rfl, rfl⟩ | ⟨⟨ord, rfl⟩, rfl, hkinds⟩ |
    ⟨⟨ord, ek, ck, rfl⟩, rfl, rfl⟩ | ⟨⟨ord, ek, ck, rfl⟩, rfl, rfl⟩
  · exact execFpack_withRequests s off word max list bits expb
  · rfl
  · rw [exec_enc, exec_enc]
    exact encCommand_withRequests s _ fval max list (encBytes_integer_congr s.cfg ord 0 s.drawCount hk rfl)
  · rw [exec_enc, exec_enc]
    exact encCommand_withRequests s word _ max list (encBytes_float_congr s.cfg ord 0 s.drawCount hk rfl)
  · rw [exec_dec, exec_dec]
    exact decCommand_withRequests s word fval max list k ord
  · exact execVenc_withRequests s word fval max ord
  · exact execVdec_withRequests s word fval max list ord hkinds
  · exact execLpenc_withRequests s word fval max ord ek ck
  · exact execLpdec_withRequests s word fval list ord ek ck

end Sys2Proof
